-- ==== Sys2Proof/Word.lean ====
section
/-!
DEFINITION. The words of huffman_codec: the widths of 00_scope.md R7 and of 10_state.md, and nothing that computes.
-/

namespace Sys2Proof

/-- A byte: an operand, an output item, a symbol (R7 SYMBOL_BITS, R78). -/
abbrev Byte := BitVec 8

/-- A command word (R7 CMD_BITS, R100). -/
abbrev CmdWord := BitVec 16

/-- A register-port word (R7 CSR_DATA_BITS, R80). -/
abbrev Word := BitVec 32

/-- A register-port address (R7 CSR_ADDR_BITS, R80). -/
abbrev CsrAddr := BitVec 16

/-- An occurrence count (R7 FREQ_BITS, R36). -/
abbrev Freq := BitVec 64

/-- A weight, TOTAL or a symbol counter (R7 WEIGHT_BITS, COUNTER_BITS; R33, R34, R37). -/
abbrev Weight := BitVec 72

/-- A node index; the value 0x1FF is NIL (R7 NODE_INDEX_BITS). -/
abbrev NodeIndex := BitVec 9

end Sys2Proof
end

