-- ==== Sys2Proof/Syntax.lean ====
section
/-!
DEFINITION. The twelve commands of HCMD revision 1 (30_encoding.md R103), one constructor per row of the opcode table.
-/

namespace Sys2Proof

/-- A command. Operand forms `ctrl` and `reason` carry the whole OPERAND byte (R102), so that an operand the form
forbids is a term, which `Instr.wellFormed` rejects; the operand of a `none` form is 0 and is not written. -/
inductive Instr
  /-- NOP (R131) -/
  | nop
  /-- CLEAR (R132) -/
  | clear
  /-- WRCTRL f (R134) -/
  | wrctrl (f : Byte)
  /-- ABORT r (R138) -/
  | abort (r : Byte)
  /-- COUNT b (R151) -/
  | count (b : Byte)
  /-- BUILD (R178) -/
  | build
  /-- HDR_EMIT (R211) -/
  | hdrEmit
  /-- ENCODE b (R241) -/
  | encode (b : Byte)
  /-- FLUSH (R246) -/
  | flush
  /-- DEC_START (R260) -/
  | decStart
  /-- DEC_BYTE b (R261) -/
  | decByte (b : Byte)
  /-- DEC_END (R265) -/
  | decEnd
  deriving DecidableEq, Repr

end Sys2Proof
end

