-- ==== Sys2Proof/WellFormed.lean ====
section
/-!
DEFINITION. Which commands have a legal operand (30_encoding.md R102).
-/

namespace Sys2Proof

/-- The operand forms of R102: `ctrl` needs bits 7:2 zero, `reason` needs 0x01 or 0x02, and every operand of the
`byte` form is legal. -/
def Instr.wellFormed (i : Instr) : Bool :=
  match i with
  | .nop => true
  | .clear => true
  | .wrctrl f => f.extractLsb' 2 6 == 0#6
  | .abort r => r == 0x01#8 || r == 0x02#8
  | .count _ => true
  | .build => true
  | .hdrEmit => true
  | .encode _ => true
  | .flush => true
  | .decStart => true
  | .decByte _ => true
  | .decEnd => true

/-- The command is well formed (R102). -/
abbrev Instr.WF (i : Instr) : Prop := i.wellFormed = true

end Sys2Proof
end

