-- ==== Sys2Proof/Decode.lean ====
section
/-!
DEFINITION. From a command word to a command and back (30_encoding.md R100 to R105). A command is one 16-bit word; the
block has no bytes of program, so the decoder takes the word.
-/

namespace Sys2Proof

/-- OPCODE, bits 15:8 (R100). -/
def opcodeOf (w : CmdWord) : Byte := w.extractLsb' 8 8

/-- OPERAND, bits 7:0 (R100). -/
def operandOf (w : CmdWord) : Byte := w.extractLsb' 0 8

/-- `LegalEnc(w)`, written as R104 writes it. -/
def legalEnc (w : CmdWord) : Bool :=
  let op := (opcodeOf w).toNat
  let a := operandOf w
  [0x10, 0x13, 0x21].contains op
    || (op == 0x02 && a.extractLsb' 2 6 == 0#6)
    || (op == 0x03 && [0x01#8, 0x02#8].contains a)
    || ([0x00, 0x01, 0x11, 0x12, 0x14, 0x20, 0x22].contains op && a == 0x00#8)

/-- Why a word is illegal: the four lines of R105. -/
inductive DecodeError
  /-- a reserved opcode -/
  | reservedOpcode (op : Byte)
  /-- a `none` opcode with an operand that is not zero -/
  | operandNotZero (op a : Byte)
  /-- WRCTRL with one of the operand bits 7:2 set -/
  | ctrlReservedBits (a : Byte)
  /-- ABORT with an operand other than 0x01 and 0x02 -/
  | badReason (a : Byte)
  deriving DecidableEq, Repr

/-- The answer of the decoder. -/
inductive Decoded
  | legal (i : Instr)
  | illegal (e : DecodeError)
  deriving DecidableEq, Repr

/-- A command of the `none` form (R102): OPERAND must be zero. -/
def decodeNone (i : Instr) (w : CmdWord) : Decoded :=
  if operandOf w = 0x00#8 then .legal i else .illegal (.operandNotZero (opcodeOf w) (operandOf w))

/-- A command of the `ctrl` form (R102): bits 7:2 must be zero. -/
def decodeCtrl (w : CmdWord) : Decoded :=
  if (operandOf w).extractLsb' 2 6 = 0#6 then .legal (.wrctrl (operandOf w)) else .illegal (.ctrlReservedBits (operandOf w))

/-- A command of the `reason` form (R102): OPERAND must be 0x01 or 0x02. -/
def decodeReason (w : CmdWord) : Decoded :=
  if operandOf w = 0x01#8 ∨ operandOf w = 0x02#8 then .legal (.abort (operandOf w)) else .illegal (.badReason (operandOf w))

/-- The opcode map of R103. Total: every word without a row is rejected by name (R105). -/
def decode (w : CmdWord) : Decoded :=
  match (opcodeOf w).toNat with
  | 0x00 => decodeNone .nop w
  | 0x01 => decodeNone .clear w
  | 0x02 => decodeCtrl w
  | 0x03 => decodeReason w
  | 0x10 => .legal (.count (operandOf w))
  | 0x11 => decodeNone .build w
  | 0x12 => decodeNone .hdrEmit w
  | 0x13 => .legal (.encode (operandOf w))
  | 0x14 => decodeNone .flush w
  | 0x20 => decodeNone .decStart w
  | 0x21 => .legal (.decByte (operandOf w))
  | 0x22 => decodeNone .decEnd w
  | _ => .illegal (.reservedOpcode (opcodeOf w))

/-- The OPCODE column of R103. -/
def Instr.opcode (i : Instr) : Byte :=
  match i with
  | .nop => 0x00#8
  | .clear => 0x01#8
  | .wrctrl _ => 0x02#8
  | .abort _ => 0x03#8
  | .count _ => 0x10#8
  | .build => 0x11#8
  | .hdrEmit => 0x12#8
  | .encode _ => 0x13#8
  | .flush => 0x14#8
  | .decStart => 0x20#8
  | .decByte _ => 0x21#8
  | .decEnd => 0x22#8

/-- OPERAND of each command (R102). -/
def Instr.operand (i : Instr) : Byte :=
  match i with
  | .nop => 0x00#8
  | .clear => 0x00#8
  | .wrctrl f => f
  | .abort r => r
  | .count b => b
  | .build => 0x00#8
  | .hdrEmit => 0x00#8
  | .encode b => b
  | .flush => 0x00#8
  | .decStart => 0x00#8
  | .decByte b => b
  | .decEnd => 0x00#8

/-- The command's word: OPCODE in bits 15:8, OPERAND in bits 7:0 (R100, R103). -/
def encode (i : Instr) : CmdWord := i.opcode ++ i.operand

/-- The command the decoder reads from a word given as a number, bit 0 least significant. -/
def decodeTableWord (nbits w : Nat) : Option Instr :=
  match decode (BitVec.ofNat 16 (w % 2 ^ nbits)) with
  | .legal i => some i
  | .illegal _ => none

end Sys2Proof
end

