-- ==== Sys2Proof/Config.lean ====
section
/-!
DEFINITION. The fixed parameters of huffman_codec (00_scope.md R7) and its one free value.
-/

namespace Sys2Proof.Config

/-- NUM_SYMBOLS (R7). -/
abbrev numSymbols : Nat := 256

/-- MAX_NODES (R7). -/
abbrev maxNodes : Nat := 511

/-- PQ_CAPACITY and MAX_LEAVES (R7). -/
abbrev pqCapacity : Nat := 256

/-- MAX_CODE_LEN (R7). -/
abbrev maxCodeLen : Nat := 255

/-- NIL, the one 9-bit value no node uses (R7, R30). -/
def nilIndex : NodeIndex := 0x1FF#9

/-- HDR_COUNT_BYTES (R7). -/
abbrev hdrCountBytes : Nat := 4

/-- HDR_FREQ_BYTES (R7). -/
abbrev hdrFreqBytes : Nat := 8

/-- The constant of the ID register (10_state.md R28). -/
def idWord : Word := 0x48430001#32

/-- The word a register-port read of any register but ID returns while the block is not idle: any value (20_memory.md R85, S1 of
93_implementation_defined.md). A free value: it has no body, and it depends on the read instant the caller names, so
two reads need not agree. Log entry 2. -/
opaque busyRead : Nat → CsrAddr → Word

end Sys2Proof.Config
end

