-- ==== Sys2Proof/Machine/State.lean ====
section
/-!
DEFINITION. Everything the spec gives the machine (10_state.md R22), as plain data, and its value at reset (R43).
-/

namespace Sys2Proof.Machine

/-- PHASE (10_state.md R23): where the engine stands in a pass. -/
inductive Phase
  | idle
  | built
  | encoding
  | encDone
  | decHdr
  | decPayload
  | decDone
  | error
  deriving DecidableEq, Repr

/-- HDR_STAGE (10_state.md R35): the part of the header the parser waits for. -/
inductive HdrStage
  | count
  | symbol
  | frequency
  | done
  deriving DecidableEq, Repr

/-- The error codes of 60_exceptions.md R302, NONE among them. -/
inductive ErrorCode
  | none
  | illegalCommand
  | sequence
  | freqOverflow
  | symbolNotInTree
  | malformedContainer
  | traversalOnEmptyTree
  | sourceUnavailable
  | sinkUnavailable
  deriving DecidableEq, Repr

/-- ERRINFO (10_state.md R27), field by field. -/
structure ErrInfo where
  /-- bits 31:24 -/
  opcode : Byte
  /-- bits 18:16, PHASE when the failing command was accepted -/
  phase : Phase
  /-- bits 15:8, the error's detail -/
  sub : Byte
  /-- bits 7:0 -/
  code : ErrorCode
  deriving DecidableEq, Repr

/-- The status flags, STATUS bits 10:4 (10_state.md R26). -/
structure StatusFlags where
  /-- bit 4 -/
  treeValid : Bool
  /-- bit 5 -/
  treeEmpty : Bool
  /-- bit 6 -/
  degenerate : Bool
  /-- bit 7 -/
  overrun : Bool
  /-- bit 8 -/
  underrun : Bool
  /-- bit 9 -/
  tailPartial : Bool
  /-- bit 10 -/
  encMismatch : Bool
  deriving DecidableEq, Repr

/-- An entry of the node arena (10_state.md R37). `internal = false` is a leaf. -/
structure NodeEntry where
  used : Bool
  internal : Bool
  sym : Byte
  left : NodeIndex
  right : NodeIndex
  weight : Weight
  deriving DecidableEq, Repr

/-- An entry of the code table (10_state.md R39). Code bit j is bit 255 - j of `bits`, so that word w of the register
port's window is the w-th group of 32 bits from the top. -/
structure CodeEntry where
  valid : Bool
  len : BitVec 9
  bits : BitVec 256
  deriving DecidableEq, Repr

/-- What the host does to the block, in the order it does it (20_memory.md R76, R90; 70_reset_and_hazards.md R340). -/
inductive HostInput
  /-- the host presents a command word (R76) -/
  | command (w : CmdWord)
  /-- the host is ready to accept the front byte of OUT (R75, R90) -/
  | drain
  /-- the host asserts rst (R340) -/
  | reset
  deriving DecidableEq, Repr

/-- The state of the block (10_state.md R22), and at its end the host's events still to come. -/
@[ext]
structure State where
  /-- PHASE (R23) -/
  phase : Phase
  /-- CTRL bits 1:0 (R24); bits 31:2 cannot be written and read 0 -/
  ctrl : BitVec 2
  /-- ACTIVE_CTRL bits 1:0 (R25) -/
  activeCtrl : BitVec 2
  /-- STATUS bits 10:4 (R26) -/
  flags : StatusFlags
  /-- ERRINFO (R27) -/
  errInfo : ErrInfo
  /-- NSYM (R29) -/
  nsym : BitVec 9
  /-- ROOT (R30) -/
  root : NodeIndex
  /-- CURSOR (R31) -/
  cursor : NodeIndex
  /-- BITBUF (R32) -/
  bitBuf : BitVec 8
  /-- BITCNT (R32) -/
  bitCnt : BitVec 3
  /-- HDR_STAGE (R35) -/
  hdrStage : HdrStage
  /-- HDR_POS (R35) -/
  hdrPos : BitVec 4
  /-- HDR_LEFT (R35) -/
  hdrLeft : BitVec 9
  /-- HDR_SYM (R35) -/
  hdrSym : Byte
  /-- HDR_ACC (R35) -/
  hdrAcc : BitVec 64
  /-- TOTAL (R33) -/
  total : Weight
  /-- ENC_COUNT (R34) -/
  encCount : Weight
  /-- OUT_COUNT (R34) -/
  outCount : Weight
  /-- FREQ (R36) -/
  freq : Vector Freq 256
  /-- NODE (R37) -/
  node : Vector NodeEntry 511
  /-- CODE (R39) -/
  code : Vector CodeEntry 256
  /-- OUT (R9, R22, R75): every byte emitted since reset, the first emitted first -/
  out : List Byte
  /-- how many bytes the host has removed from the front of OUT (R42(d), R75) -/
  drained : Nat
  /-- the host's events still to come, the next one first: a parameter of the model (R22), carried here -/
  input : List HostInput
  deriving DecidableEq, Repr

/-- Why the machine stops. -/
inductive Fault
  /-- The tree walk of a DEC_BYTE reads NODE at NIL: unreachable on the hardware, and a model may treat it as stuck
  (S4 of 93_implementation_defined.md, 45_decoder.md R264). Raised by DEC_BYTE in phase DEC_PAYLOAD, in states no run
  from reset reaches. Safe: nothing is claimed of what follows. Log entry 3. -/
  | nodeAtNil
  deriving DecidableEq, Repr

/-- Why an instruction has no meaning. -/
inductive Refusal
  /-- The instruction has no meaning in this model yet. Raised by an arm of `exec` only; no arm of this model raises it.
  Safe: nothing is claimed of what follows. -/
  | notModelled (mnemonic : String)
  deriving DecidableEq, Repr

/-- ERRINFO = 0 (R27, R43). -/
def ErrInfo.zero : ErrInfo := { opcode := 0, phase := .idle, sub := 0, code := .none }

/-- STATUS flags all 0 (R26, R43). -/
def StatusFlags.zero : StatusFlags :=
  { treeValid := false, treeEmpty := false, degenerate := false, overrun := false, underrun := false,
    tailPartial := false, encMismatch := false }

/-- A node entry with every field 0, LEFT and RIGHT too (R37, R43). -/
def NodeEntry.zero : NodeEntry :=
  { used := false, internal := false, sym := 0, left := 0, right := 0, weight := 0 }

/-- A code entry with VALID 0, LEN 0, BITS 0 (R39, R43). -/
def CodeEntry.zero : CodeEntry := { valid := false, len := 0, bits := 0 }

/-- The state after reset: the table of 10_state.md R43. No host event is waiting (log entry 1). -/
def State.reset : State :=
  { phase := .idle
    ctrl := 0
    activeCtrl := 0
    flags := StatusFlags.zero
    errInfo := ErrInfo.zero
    nsym := 0
    root := Config.nilIndex
    cursor := Config.nilIndex
    bitBuf := 0
    bitCnt := 0
    hdrStage := .count
    hdrPos := 0
    hdrLeft := 0
    hdrSym := 0
    hdrAcc := 0
    total := 0
    encCount := 0
    outCount := 0
    freq := Vector.replicate 256 0
    node := Vector.replicate 511 NodeEntry.zero
    code := Vector.replicate 256 CodeEntry.zero
    out := []
    drained := 0
    input := [] }

end Sys2Proof.Machine
end

