-- ==== Sys2Proof/Machine/Flags.lean ====
section
/-!
DEFINITION. The STATUS flags (10_state.md R26): every place that writes one, and STATUS as the register port shows it.
-/

namespace Sys2Proof.Machine

/-- The 3 bits of PHASE (10_state.md R23). -/
def Phase.bits (p : Phase) : BitVec 3 :=
  match p with
  | .idle => 0
  | .built => 1
  | .encoding => 2
  | .encDone => 3
  | .decHdr => 4
  | .decPayload => 5
  | .decDone => 6
  | .error => 7

/-- STATUS.ERR: 1 exactly when PHASE is ERROR, a view (10_state.md R26). -/
def Phase.errBit (p : Phase) : Bool := p == .error

/-- STATUS as read at 0x0003 (10_state.md R26): PHASE in bits 2:0, ERR in bit 3, the flags in bits 10:4. -/
def statusWord (p : Phase) (f : StatusFlags) : Word :=
  0#21 ++ BitVec.ofBool f.encMismatch ++ BitVec.ofBool f.tailPartial ++ BitVec.ofBool f.underrun
    ++ BitVec.ofBool f.overrun ++ BitVec.ofBool f.degenerate ++ BitVec.ofBool f.treeEmpty
    ++ BitVec.ofBool f.treeValid ++ BitVec.ofBool p.errBit ++ p.bits

/-- What BuildTree writes (42_tree_builder.md R177): TREE_VALID is 1, TREE_EMPTY says that ROOT is NIL, DEGENERATE that
the root is a leaf. -/
def setTreeFlags (empty degenerate : Bool) (f : StatusFlags) : StatusFlags :=
  { f with treeValid := true, treeEmpty := empty, degenerate := degenerate }

/-- What WalkBit writes at a leaf when every counted symbol is out (45_decoder.md R264). -/
def setOverrun (f : StatusFlags) : StatusFlags := { f with overrun := true }

/-- What DEC_END writes (45_decoder.md R265): TAIL_PARTIAL and UNDERRUN, each with both values. -/
def setEndFlags (tailPartial underrun : Bool) (f : StatusFlags) : StatusFlags :=
  { f with tailPartial := tailPartial, underrun := underrun }

/-- What FLUSH writes (44_bitstream_writer.md R246): ENC_MISMATCH, with both values. -/
def setEncMismatch (mismatch : Bool) (f : StatusFlags) : StatusFlags := { f with encMismatch := mismatch }

end Sys2Proof.Machine
end

