-- ==== Sys2Proof/Machine/Operands.lean ====
section
/-!
DEFINITION. What the operand forms of 30_encoding.md R102 and the field orders of 20_memory.md R72 mean: indices, byte
order, and the integer conversions of 00_scope.md R14.
-/

namespace Sys2Proof.Machine

/-- A `byte` operand as an index into FREQ or CODE (R102). -/
def symbolIndex (b : Byte) : Fin 256 := ⟨b.toNat, b.isLt⟩

/-- The new CTRL bits of a `ctrl` operand, bits 1:0 (R102, R134). -/
def ctrlBits (f : Byte) : BitVec 2 := f.extractLsb' 0 2

/-- HDR_BE, bit 0 of a control value (10_state.md R24). -/
def hdrBe (c : BitVec 2) : Bool := c.getLsbD 0

/-- COMPAT_TAIL, bit 1 of a control value (10_state.md R24). -/
def compatTail (c : BitVec 2) : Bool := c.getLsbD 1

/-- The bytes of `v[8n-1:0]`, least significant first. -/
def littleBytes (n : Nat) (v : BitVec 64) : List Byte := (List.range n).map fun i => v.extractLsb' (8 * i) 8

/-- `EncInt(v, n)` (20_memory.md R72): `be` is ACTIVE_CTRL.HDR_BE. -/
def encInt (be : Bool) (n : Nat) (v : BitVec 64) : List Byte :=
  if be then (littleBytes n v).reverse else littleBytes n v

/-- `AccByte(acc, b, pos)` (20_memory.md R72): `be` is ACTIVE_CTRL.HDR_BE. -/
def accByte (be : Bool) (acc : BitVec 64) (b : Byte) (pos : Nat) : BitVec 64 :=
  if be then (acc <<< 8) ||| b.zeroExtend 64 else acc ||| (b.zeroExtend 64 <<< (8 * pos))

/-- The int32 count of the header: `acc[31:0]` as a two's-complement integer (43_container_header.md R213, R14). -/
def headerCount (acc : BitVec 64) : Int := (acc.extractLsb' 0 32).toInt

/-- `sat72(x)` (00_scope.md R14). -/
def sat72 (x : Nat) : Weight := BitVec.ofNat 72 (min x (2 ^ 72 - 1))

/-- `C <- sat72(C + 1)` (10_state.md R34). -/
def satInc (c : Weight) : Weight := sat72 (c.toNat + 1)

/-- The bits of a payload byte in stream order, b[7] first (45_decoder.md R263). -/
def bitsOfByte (b : Byte) : List Bool :=
  [b.getLsbD 7, b.getLsbD 6, b.getLsbD 5, b.getLsbD 4, b.getLsbD 3, b.getLsbD 2, b.getLsbD 1, b.getLsbD 0]

/-- A code as the 256 bits of CODE BITS: code bit j at bit 255 - j, so in word j div 32 at position 31 - (j mod 32);
the bits at positions j ≥ LEN are 0 (10_state.md R39). -/
def packBits : List Bool → BitVec 256
  | [] => 0
  | c :: cs => (if c then 1#256 <<< 255 else 0) ||| (packBits cs >>> 1)

/-- Code bit j of a stored code (10_state.md R39). -/
def codeBit (e : CodeEntry) (j : Nat) : Bool := e.bits.getMsbD j

/-- The code bits of an entry, first bit first: positions 0 to LEN - 1 (44_bitstream_writer.md R241). -/
def codeOf (e : CodeEntry) : List Bool := (List.range e.len.toNat).map (codeBit e)

/-- Every symbol in ascending order: `for s in 0..255`. -/
def allSymbols : List Byte := (List.range 256).map (BitVec.ofNat 8)

end Sys2Proof.Machine
end

