-- ==== Sys2Proof/Machine/Ops.lean ====
section
/-!
DEFINITION. The shared operations: the tables, the output stream, InitPass, error entry, and the dispatch every command
goes through.
-/

namespace Sys2Proof.Machine

/-! ## Tables -/

/-- FREQ[b] (10_state.md R36). -/
def freqAt (t : Vector Freq 256) (b : Byte) : Freq := t.get (symbolIndex b)

/-- FREQ[b] <- v (10_state.md R36). -/
def setFreq (t : Vector Freq 256) (b : Byte) (v : Freq) : Vector Freq 256 :=
  t.set (symbolIndex b).val v (symbolIndex b).isLt

/-- CODE[b] (10_state.md R39). -/
def codeAt (t : Vector CodeEntry 256) (b : Byte) : CodeEntry := t.get (symbolIndex b)

/-- CODE[b] <- e (10_state.md R39). -/
def setCode (t : Vector CodeEntry 256) (b : Byte) (e : CodeEntry) : Vector CodeEntry 256 :=
  t.set (symbolIndex b).val e (symbolIndex b).isLt

/-- NODE[n] (10_state.md R37): `none` exactly at NIL, the one index without an entry. -/
def nodeAt (t : Vector NodeEntry 511) (n : NodeIndex) : Option NodeEntry := t[n.toNat]?

/-- NODE[n] <- e (10_state.md R37). BuildTree writes indices 0 to 510 only; at NIL nothing is written. -/
def setNode (t : Vector NodeEntry 511) (n : NodeIndex) (e : NodeEntry) : Vector NodeEntry 511 :=
  t.setIfInBounds n.toNat e

/-! ## The output stream -/

/-- `EmitAll(seq)`: append bytes to OUT (20_memory.md R75). -/
def emitAll (bs : List Byte) (s : State) : State := { s with out := s.out ++ bs }

/-- `Emit(b)`: append one byte to OUT (20_memory.md R75). -/
def emit (b : Byte) (s : State) : State := emitAll [b] s

/-- The bytes emitted but not yet drained (10_state.md R42(d)). -/
def State.pendingOut (s : State) : List Byte := s.out.drop s.drained

/-- One transfer on the output port: the host removes the front byte, if there is one (20_memory.md R75, R90). -/
def drainOne (s : State) : State := if s.drained < s.out.length then { s with drained := s.drained + 1 } else s

/-! ## Reset and InitPass -/

/-- `rst` (70_reset_and_hazards.md R340): every state element takes its reset value, and the words not yet accepted are
not consumed. -/
def hardReset (s : State) : State := { State.reset with input := s.input }

/-- InitPass (10_state.md R44): the reset values, but CTRL keeps its value, ACTIVE_CTRL takes CTRL, and OUT is not
touched. The caller sets PHASE. -/
def initPass (s : State) : State :=
  { State.reset with
    phase := s.phase, ctrl := s.ctrl, activeCtrl := s.ctrl, out := s.out, drained := s.drained, input := s.input }

/-! ## Errors -/

/-- The CODE column of 60_exceptions.md R302. -/
def ErrorCode.bits (c : ErrorCode) : Byte :=
  match c with
  | .none => 0x00
  | .illegalCommand => 0x01
  | .sequence => 0x02
  | .freqOverflow => 0x03
  | .symbolNotInTree => 0x04
  | .malformedContainer => 0x05
  | .traversalOnEmptyTree => 0x06
  | .sourceUnavailable => 0x07
  | .sinkUnavailable => 0x08

/-- SUB of MALFORMED_CONTAINER, negative count (60_exceptions.md R303). -/
def subNegativeCount : Byte := 1

/-- SUB of MALFORMED_CONTAINER, count above 256 (60_exceptions.md R303). -/
def subCountTooLarge : Byte := 2

/-- SUB of MALFORMED_CONTAINER, DEC_END before the header completed (60_exceptions.md R303). -/
def subTruncatedHeader : Byte := 3

/-- SUB of MALFORMED_CONTAINER, a symbol given twice (60_exceptions.md R303). -/
def subDuplicateSymbol : Byte := 4

/-- SUB of MALFORMED_CONTAINER, a frequency of zero (60_exceptions.md R303). -/
def subZeroFrequency : Byte := 5

/-- SUB of MALFORMED_CONTAINER, a payload byte after a one-symbol header (60_exceptions.md R303). -/
def subDegeneratePayload : Byte := 6

/-- ERRINFO as read at 0x0004 (10_state.md R27): bits 23:19 read 0. -/
def errInfoWord (e : ErrInfo) : Word := e.opcode ++ 0#5 ++ e.phase.bits ++ e.sub ++ e.code.bits

/-- Error entry (60_exceptions.md R301): ERRINFO records the opcode, the phase, the detail and the code; PHASE becomes
ERROR; nothing else changes. This is the block's one way of taking an exception (R300). The way out is CLEAR or
DEC_START, by `initPass` (R309). -/
def errorEntry (op : Byte) (code : ErrorCode) (sub : Byte) (s : State) : State :=
  { s with phase := .error, errInfo := { opcode := op, phase := s.phase, sub := sub, code := code } }

/-! ## Dispatch -/

/-- How the rule of one command ends, before dispatch makes a step of it. -/
inductive Effect
  /-- the command completes -/
  | done (s : State)
  /-- `raise Error(code, sub)` (00_scope.md R15) -/
  | raise (code : ErrorCode) (sub : Byte)
  /-- the case a model may treat as stuck (S4) -/
  | stuck (f : Fault)

/-- The commands that execute in phase ERROR (60_exceptions.md R305; 30_encoding.md R108). -/
def recovers (i : Instr) : Bool :=
  match i with
  | .nop => true
  | .clear => true
  | .wrctrl _ => true
  | .abort _ => false
  | .count _ => false
  | .build => false
  | .hdrEmit => false
  | .encode _ => false
  | .flush => false
  | .decStart => true
  | .decByte _ => false
  | .decEnd => false

/-- `Allowed(op, PHASE)`: the table of 30_encoding.md R107. -/
def allowed (i : Instr) (p : Phase) : Bool :=
  match i with
  | .nop => true
  | .clear => true
  | .wrctrl _ => true
  | .abort _ => p != .error
  | .count _ => p == .idle
  | .build => p == .idle
  | .hdrEmit => p == .built
  | .encode _ => p == .encoding
  | .flush => p == .encoding
  | .decStart => true
  | .decByte _ => p == .decHdr || p == .decPayload
  | .decEnd => p == .decHdr || p == .decPayload

/-- The end of a command: a completed one gives its state, one that raises takes the error entry with the state from
before the command (60_exceptions.md R301, R304). -/
def settle (op : Byte) (s : State) (e : Effect) : Host.Outcome State Fault Refusal :=
  match e with
  | .done s' => .next s'
  | .raise code sub => .next (errorEntry op code sub s)
  | .stuck f => .fault f

/-- `Step` for a command (30_encoding.md R108), its checks in the spec's order: discard in ERROR, ILLEGAL_COMMAND,
SEQUENCE, then the command's own rule `body`. A command the decoder gives is well formed; the second check speaks of
the terms it never gives. -/
def dispatch (i : Instr) (body : State → Effect) (s : State) : Host.Outcome State Fault Refusal :=
  if s.phase = .error ∧ ¬(i.WF ∧ recovers i = true) then .next s
  else if ¬i.WF then .next (errorEntry i.opcode .illegalCommand 0 s)
  else if ¬allowed i s.phase = true then .next (errorEntry i.opcode .sequence 0 s)
  else settle i.opcode s (body s)

/-- `Step` for a word the decoder rejects (30_encoding.md R105, R108): discarded in ERROR, else ILLEGAL_COMMAND. -/
def illegalWord (w : CmdWord) (s : State) : State :=
  if s.phase = .error then s else errorEntry (opcodeOf w) .illegalCommand 0 s

end Sys2Proof.Machine
end

