-- ==== Sys2Proof/Machine/Control.lean ====
section
/-!
DEFINITION. The pass-control commands NOP, CLEAR, WRCTRL and ABORT (40_control.md).
-/

namespace Sys2Proof.Machine

/-- The rule of NOP (R131): no effect. -/
def nopRule (s : State) : Effect := .done s

/-- NOP (R131). -/
def execNop (s : State) : Host.Outcome State Fault Refusal := dispatch .nop nopRule s

/-- The rule of CLEAR (R132). -/
def clearRule (s : State) : Effect := .done { initPass s with phase := .idle }

/-- CLEAR (R132). -/
def execClear (s : State) : Host.Outcome State Fault Refusal := dispatch .clear clearRule s

/-- The rule of WRCTRL f (R134). -/
def wrctrlRule (f : Byte) (s : State) : Effect := .done { s with ctrl := ctrlBits f }

/-- WRCTRL f (R134). -/
def execWrctrl (f : Byte) (s : State) : Host.Outcome State Fault Refusal := dispatch (.wrctrl f) (wrctrlRule f) s

/-- The rule of ABORT r (R138). Dispatch lets through the reasons 0x01 and 0x02 only. -/
def abortRule (r : Byte) (_ : State) : Effect :=
  if r = 0x01#8 then .raise .sourceUnavailable 0 else .raise .sinkUnavailable 0

/-- ABORT r (R138). -/
def execAbort (r : Byte) (s : State) : Host.Outcome State Fault Refusal := dispatch (.abort r) (abortRule r) s

end Sys2Proof.Machine
end

