-- ==== Sys2Proof/Machine/Counter.lean ====
section
/-!
DEFINITION. The frequency counter: COUNT (41_frequency_counter.md).
-/

namespace Sys2Proof.Machine

/-- The rule of COUNT b (R151): the check comes before the write. -/
def countRule (b : Byte) (s : State) : Effect :=
  if freqAt s.freq b = BitVec.allOnes 64 then .raise .freqOverflow b
  else .done { s with freq := setFreq s.freq b (freqAt s.freq b + 1) }

/-- COUNT b (R151). -/
def execCount (b : Byte) (s : State) : Host.Outcome State Fault Refusal := dispatch (.count b) (countRule b) s

end Sys2Proof.Machine
end

