-- ==== Sys2Proof/Machine/Tree.lean ====
section
/-!
DEFINITION. The priority queue, the tree builder, the code assigner and BUILD (42_tree_builder.md).
-/

namespace Sys2Proof.Machine

/-! ## Priority queue (R170 to R175): HEAP[0..PQ_SIZE-1] is a list, PQ_SIZE its length -/

/-- HEAP[i]. -/
def heapAt (h : List NodeIndex) (i : Nat) : NodeIndex := h.getD i Config.nilIndex

/-- swap HEAP[i], HEAP[j]. -/
def heapSwap (h : List NodeIndex) (i j : Nat) : List NodeIndex := (h.set i (heapAt h j)).set j (heapAt h i)

/-- Sift-up from position i (R173). `less m n` is key(m) < key(n). The first argument bounds the turns of the loop:
i is enough, because (i - 1) div 2 < i. -/
def siftUp (less : NodeIndex → NodeIndex → Bool) : Nat → Nat → List NodeIndex → List NodeIndex
  | 0, _, h => h
  | fuel + 1, i, h =>
    if 0 < i ∧ less (heapAt h i) (heapAt h ((i - 1) / 2)) = true then
      siftUp less fuel ((i - 1) / 2) (heapSwap h i ((i - 1) / 2))
    else h

/-- PQ_Insert(n) (R173). -/
def pqInsert (less : NodeIndex → NodeIndex → Bool) (h : List NodeIndex) (n : NodeIndex) : List NodeIndex :=
  siftUp less h.length h.length (h ++ [n])

/-- One choice of the sift-down loop: position j where it is inside the heap and its key is less than that of m. -/
def smallerOf (less : NodeIndex → NodeIndex → Bool) (h : List NodeIndex) (j m : Nat) : Nat :=
  if j < h.length ∧ less (heapAt h j) (heapAt h m) = true then j else m

/-- The position of the least key among i and its two children (R174). -/
def leastOf (less : NodeIndex → NodeIndex → Bool) (h : List NodeIndex) (i : Nat) : Nat :=
  smallerOf less h (2 * i + 2) (smallerOf less h (2 * i + 1) i)

/-- Sift-down from position i (R174). The first argument bounds the turns of the loop: PQ_SIZE is enough, because the
position grows at every turn. -/
def siftDown (less : NodeIndex → NodeIndex → Bool) : Nat → Nat → List NodeIndex → List NodeIndex
  | 0, _, h => h
  | fuel + 1, i, h =>
    if leastOf less h i = i then h
    else siftDown less fuel (leastOf less h i) (heapSwap h i (leastOf less h i))

/-- PQ_ExtractMin() (R174): the root leaves, the last element takes its place and sifts down. `none` on an empty queue,
which BuildTree never gives it (S3 of 93_implementation_defined.md; log entry 4). -/
def pqExtractMin (less : NodeIndex → NodeIndex → Bool) : List NodeIndex → Option (NodeIndex × List NodeIndex)
  | [] => none
  | r :: rest =>
    match rest.getLast? with
    | none => some (r, [])
    | some l => some (r, siftDown less rest.length 0 (l :: rest.dropLast))

/-! ## Tree builder (R171, R172, R176, R177) -/

/-- The child a bit leads to: LEFT for 0, RIGHT for 1 (R190; 45_decoder.md R264). -/
def childOf (e : NodeEntry) (c : Bool) : NodeIndex := if c then e.right else e.left

/-- NODE[n].WEIGHT. -/
def weightAt (t : Vector NodeEntry 511) (n : NodeIndex) : Weight :=
  match nodeAt t n with
  | some e => e.weight
  | none => 0

/-- key(m) < key(n): weight first, then node index (R171, 00_scope.md R16). -/
def keyLess (t : Vector NodeEntry 511) (m n : NodeIndex) : Bool :=
  decide (weightAt t m < weightAt t n) || (weightAt t m == weightAt t n && decide (m < n))

/-- The entry NewLeaf writes (R172). -/
def leafEntry (s : Byte) (w : Freq) : NodeEntry :=
  { used := true, internal := false, sym := s, left := Config.nilIndex, right := Config.nilIndex,
    weight := w.zeroExtend 72 }

/-- The entry NewInternal writes (R176). -/
def internalEntry (t : Vector NodeEntry 511) (a b : NodeIndex) : NodeEntry :=
  { used := true, internal := true, sym := 0, left := a, right := b, weight := weightAt t a + weightAt t b }

/-- What BuildTree works on: the arena, the queue and the next free index (R177). -/
structure TreeBuild where
  node : Vector NodeEntry 511
  heap : List NodeIndex
  idx : Nat

/-- The start of BuildTree: every entry zero, the queue empty, idx 0 (R177). -/
def TreeBuild.start : TreeBuild := { node := Vector.replicate 511 NodeEntry.zero, heap := [], idx := 0 }

/-- Write an entry at idx, put idx into the queue and count idx up (R177). -/
def TreeBuild.push (b : TreeBuild) (e : NodeEntry) (rest : List NodeIndex) : TreeBuild :=
  let t := setNode b.node (BitVec.ofNat 9 b.idx) e
  { node := t, heap := pqInsert (keyLess t) rest (BitVec.ofNat 9 b.idx), idx := b.idx + 1 }

/-- NewLeaf(s, idx) and PQ_Insert(idx), for a symbol of non-zero frequency (R172, R177). -/
def addLeaf (freq : Vector Freq 256) (b : TreeBuild) (s : Byte) : TreeBuild :=
  if freqAt freq s ≠ 0#64 then b.push (leafEntry s (freqAt freq s)) b.heap else b

/-- The leaves, in ascending symbol order (R177). -/
def addLeaves (freq : Vector Freq 256) : TreeBuild := allSymbols.foldl (addLeaf freq) TreeBuild.start

/-- One merge: A, then B, then NewInternal(A, B, idx) and PQ_Insert(idx) (R177). `none` where the queue holds fewer
than two nodes. -/
def mergeOnce (b : TreeBuild) : Option TreeBuild :=
  match pqExtractMin (keyLess b.node) b.heap with
  | none => none
  | some (x, h) =>
    match pqExtractMin (keyLess b.node) h with
    | none => none
    | some (y, h') => some (b.push (internalEntry b.node x y) h')

/-- `while PQ_SIZE > 1` (R177). The first argument bounds the turns: each takes one node out of the queue. -/
def mergeAll : Nat → TreeBuild → TreeBuild
  | 0, b => b
  | fuel + 1, b =>
    match mergeOnce b with
    | none => b
    | some b' => mergeAll fuel b'

/-- The arena and the queue when the merges are done, for a table of frequencies. -/
def buildArena (freq : Vector Freq 256) : TreeBuild :=
  mergeAll (addLeaves freq).heap.length (addLeaves freq)

/-- ROOT (R177): the one node left in the queue, or NIL. -/
def arenaRoot (b : TreeBuild) : NodeIndex :=
  match pqExtractMin (keyLess b.node) b.heap with
  | some (r, _) => r
  | none => Config.nilIndex

/-! ## Code assigner (R190) -/

/-- The code entry of a leaf with path p (R190, stored as 10_state.md R39 says). -/
def codeEntry (p : List Bool) : CodeEntry := { valid := true, len := BitVec.ofNat 9 p.length, bits := packBits p }

/-- Visit(n, p) (R190). The first argument bounds the depth; a child's index is below its parent's, so the number of
nodes is enough (log entry 4). -/
def visit (t : Vector NodeEntry 511) : Nat → NodeIndex → List Bool → Vector CodeEntry 256 → Vector CodeEntry 256
  | 0, _, _, c => c
  | fuel + 1, n, p, c =>
    match nodeAt t n with
    | none => c
    | some e =>
      if e.internal then visit t fuel e.right (p ++ [true]) (visit t fuel e.left (p ++ [false]) c)
      else setCode c e.sym (codeEntry p)

/-- AssignCodes() (R190), from a code table with no valid entry (R177). -/
def assignCodes (t : Vector NodeEntry 511) (root : NodeIndex) : Vector CodeEntry 256 :=
  visit t Config.maxNodes root [] (Vector.replicate 256 CodeEntry.zero)

/-! ## BuildTree and BUILD -/

/-- The root is a leaf: `ROOT != NIL and NODE[ROOT].INTERNAL = 0` (R177). -/
def rootIsLeaf (t : Vector NodeEntry 511) (root : NodeIndex) : Bool :=
  match nodeAt t root with
  | some e => !e.internal
  | none => false

/-- BuildTree() (R177). It reads FREQ alone and writes NODE, CODE, NSYM, ROOT, CURSOR, TOTAL and STATUS bits 6:4; it
emits nothing and cannot fail. -/
def buildTree (s : State) : State :=
  let b := buildArena s.freq
  let root := arenaRoot b
  { s with
    node := b.node
    code := assignCodes b.node root
    nsym := BitVec.ofNat 9 (addLeaves s.freq).idx
    root := root
    cursor := root
    total := weightAt b.node root
    flags := setTreeFlags (root == Config.nilIndex) (rootIsLeaf b.node root) s.flags }

/-- The rule of BUILD (R178). -/
def buildRule (s : State) : Effect := .done { buildTree s with phase := .built }

/-- BUILD (R178). -/
def execBuild (s : State) : Host.Outcome State Fault Refusal := dispatch .build buildRule s

end Sys2Proof.Machine
end

