-- ==== Sys2Proof/Machine/Header.lean ====
section
/-!
DEFINITION. The container header: HDR_EMIT and the header parser (43_container_header.md).
-/

namespace Sys2Proof.Machine

/-! ## The header writer (R210, R211) -/

/-- The entry of symbol s: its byte and its frequency, or nothing where the frequency is 0 (R211). -/
def headerEntry (be : Bool) (freq : Vector Freq 256) (s : Byte) : List Byte :=
  if freqAt freq s ≠ 0#64 then s :: encInt be Config.hdrFreqBytes (freqAt freq s) else []

/-- The header (R210, R211): the count, then the entries in ascending symbol order. -/
def headerBytes (be : Bool) (nsym : BitVec 9) (freq : Vector Freq 256) : List Byte :=
  encInt be Config.hdrCountBytes (nsym.zeroExtend 64) ++ allSymbols.flatMap (headerEntry be freq)

/-- The rule of HDR_EMIT (R211). -/
def hdrEmitRule (s : State) : Effect :=
  .done { emitAll (headerBytes (hdrBe s.activeCtrl) s.nsym s.freq) s with phase := .encoding }

/-- HDR_EMIT (R211). -/
def execHdrEmit (s : State) : Host.Outcome State Fault Refusal := dispatch .hdrEmit hdrEmitRule s

/-! ## The header parser (R212 to R216) -/

/-- HeaderComplete() (R216). -/
def headerComplete (s : State) : State := { buildTree { s with hdrStage := .done } with phase := .decPayload }

/-- The field accumulator with byte b absorbed (R213, R215; 20_memory.md R72). -/
def nextAcc (b : Byte) (s : State) : BitVec 64 := accByte (hdrBe s.activeCtrl) s.hdrAcc b s.hdrPos.toNat

/-- A byte that does not complete its field: HDR_ACC and HDR_POS move on (R213, R215). -/
def absorb (b : Byte) (s : State) : State :=
  { s with hdrAcc := nextAcc b s, hdrPos := BitVec.ofNat 4 (s.hdrPos.toNat + 1) }

/-- The count field is complete with count c, 0 ≤ c ≤ 256 (R213). -/
def takeCount (c : Nat) (s : State) : State :=
  let s' := { s with hdrLeft := BitVec.ofNat 9 c, hdrAcc := 0, hdrPos := 0 }
  if c = 0 then headerComplete s' else { s' with hdrStage := .symbol }

/-- HdrByte in stage 0, the COUNT field (R213). -/
def countByte (b : Byte) (s : State) : Effect :=
  if s.hdrPos.toNat + 1 < 4 then .done (absorb b s)
  else if headerCount (nextAcc b s) < 0 then .raise .malformedContainer subNegativeCount
  else if headerCount (nextAcc b s) > 256 then .raise .malformedContainer subCountTooLarge
  else .done (takeCount (headerCount (nextAcc b s)).toNat s)

/-- HdrByte in stage 1, the SYMBOL byte of an entry (R214). -/
def symbolByte (b : Byte) (s : State) : Effect :=
  if freqAt s.freq b ≠ 0#64 then .raise .malformedContainer subDuplicateSymbol
  else .done { s with hdrSym := b, hdrAcc := 0, hdrPos := 0, hdrStage := .frequency }

/-- The frequency field is complete with a value that is not 0 (R215). -/
def takeFrequency (v : Freq) (s : State) : State :=
  let s' := { s with freq := setFreq s.freq s.hdrSym v, hdrAcc := 0, hdrPos := 0, hdrLeft := s.hdrLeft - 1 }
  if s'.hdrLeft = 0 then headerComplete s' else { s' with hdrStage := .symbol }

/-- HdrByte in stage 2, the FREQUENCY field of an entry (R215). -/
def frequencyByte (b : Byte) (s : State) : Effect :=
  if s.hdrPos.toNat + 1 < 8 then .done (absorb b s)
  else if nextAcc b s = 0#64 then .raise .malformedContainer subZeroFrequency
  else .done (takeFrequency (nextAcc b s) s)

/-- HdrByte(b) (R212). Stage 3 comes together with phase DEC_PAYLOAD, so HdrByte never runs in it; in a state no run
reaches the byte changes nothing (log entry 4). -/
def hdrByte (b : Byte) (s : State) : Effect :=
  match s.hdrStage with
  | .count => countByte b s
  | .symbol => symbolByte b s
  | .frequency => frequencyByte b s
  | .done => .done s

end Sys2Proof.Machine
end

