-- ==== Sys2Proof/Machine/Decoder.lean ====
section
/-!
DEFINITION. The decoder: DEC_START, DEC_BYTE and DEC_END (45_decoder.md).
-/

namespace Sys2Proof.Machine

/-- The rule of DEC_START (R260). -/
def decStartRule (s : State) : Effect := .done { initPass s with phase := .decHdr }

/-- DEC_START (R260). -/
def execDecStart (s : State) : Host.Outcome State Fault Refusal := dispatch .decStart decStartRule s

/-- WalkBit at a leaf with symbol y (R264): the symbol is emitted while OUT_COUNT < TOTAL; after that OVERRUN is set,
and only the compatible tail emits. -/
def leafReached (y : Byte) (s : State) : State :=
  if s.outCount < s.total then { emit y s with outCount := s.outCount + 1 }
  else if compatTail s.activeCtrl = true then
    { emit y s with flags := setOverrun s.flags, outCount := satInc s.outCount }
  else { s with flags := setOverrun s.flags }

/-- The walk arrives at node n with entry d (R264): at a leaf the symbol is taken and CURSOR is ROOT again. -/
def arriveAt (n : NodeIndex) (d : NodeEntry) (s : State) : State :=
  if d.internal then { s with cursor := n } else { leafReached d.sym s with cursor := s.root }

/-- WalkBit(c) (R264). `none` where the walk reads NODE at NIL, which no run does (S4; log entry 3). -/
def walkBit (c : Bool) (s : State) : Option State :=
  match nodeAt s.node s.cursor with
  | none => none
  | some e =>
    match nodeAt s.node (childOf e c) with
    | none => none
    | some d => some (arriveAt (childOf e c) d s)

/-- WalkBit for each bit of a list, first bit first. -/
def walkBits : List Bool → State → Option State
  | [], s => some s
  | c :: cs, s =>
    match walkBit c s with
    | none => none
    | some s' => walkBits cs s'

/-- DEC_BYTE in phase DEC_PAYLOAD (R261): the two checks, then the eight bits, most significant first (R263). -/
def payloadByte (b : Byte) (s : State) : Effect :=
  match nodeAt s.node s.root with
  | none => .raise .traversalOnEmptyTree 0
  | some r =>
    if r.internal then
      match walkBits (bitsOfByte b) s with
      | some s' => .done s'
      | none => .stuck .nodeAtNil
    else .raise .malformedContainer subDegeneratePayload

/-- The rule of DEC_BYTE b (R261). -/
def decByteRule (b : Byte) (s : State) : Effect := if s.phase = .decHdr then hdrByte b s else payloadByte b s

/-- DEC_BYTE b (R261). -/
def execDecByte (b : Byte) (s : State) : Host.Outcome State Fault Refusal := dispatch (.decByte b) (decByteRule b) s

/-- The degenerate tree's part of DEC_END (R265): its one symbol is emitted TOTAL times. -/
def regenerate (s : State) : State :=
  match nodeAt s.node s.root with
  | none => s
  | some r =>
    if r.internal then s else { emitAll (List.replicate s.total.toNat r.sym) s with outCount := s.total }

/-- The flags and the phase at the end of DEC_END (R265), from the state after `regenerate`. -/
def closeDecode (s : State) : State :=
  { s with flags := setEndFlags (s.cursor != s.root) (decide (s.outCount < s.total)) s.flags, phase := .decDone }

/-- The rule of DEC_END (R265). -/
def decEndRule (s : State) : Effect :=
  if s.phase = .decHdr then .raise .malformedContainer subTruncatedHeader else .done (closeDecode (regenerate s))

/-- DEC_END (R265). -/
def execDecEnd (s : State) : Host.Outcome State Fault Refusal := dispatch .decEnd decEndRule s

end Sys2Proof.Machine
end

