-- ==== Sys2Proof/Machine/Writer.lean ====
section
/-!
DEFINITION. The bitstream writer: ENCODE and FLUSH (44_bitstream_writer.md).
-/

namespace Sys2Proof.Machine

/-- BITBUF with bit c put in (R240). -/
def shiftIn (c : Bool) (buf : Byte) : Byte := (buf <<< 1) ||| (BitVec.ofBool c).zeroExtend 8

/-- PutBit(c) (R240): at the eighth bit the byte is emitted and the buffer is empty again. -/
def putBit (c : Bool) (s : State) : State :=
  if s.bitCnt.toNat + 1 = 8 then { emit (shiftIn c s.bitBuf) s with bitBuf := 0, bitCnt := 0 }
  else { s with bitBuf := shiftIn c s.bitBuf, bitCnt := BitVec.ofNat 3 (s.bitCnt.toNat + 1) }

/-- PutBit for each bit of a code, first bit first (R241). -/
def putBits (p : List Bool) (s : State) : State := p.foldl (fun s c => putBit c s) s

/-- The rule of ENCODE b (R241): the check comes before the first PutBit. -/
def encodeRule (b : Byte) (s : State) : Effect :=
  if (codeAt s.code b).valid = false then .raise .symbolNotInTree b
  else .done { putBits (codeOf (codeAt s.code b)) s with encCount := satInc s.encCount }

/-- ENCODE b (R241). -/
def execEncode (b : Byte) (s : State) : Host.Outcome State Fault Refusal := dispatch (.encode b) (encodeRule b) s

/-- The last payload byte: the pending bits, then zero bits in the low places (R246). -/
def paddedByte (buf : Byte) (cnt : BitVec 3) : Byte := buf <<< (8 - cnt.toNat)

/-- The padding part of FLUSH (R246): nothing where no bit is pending. -/
def flushBits (s : State) : State :=
  if s.bitCnt = 0 then s else { emit (paddedByte s.bitBuf s.bitCnt) s with bitBuf := 0, bitCnt := 0 }

/-- The rule of FLUSH (R246). -/
def flushRule (s : State) : Effect :=
  .done { flushBits s with flags := setEncMismatch (s.encCount != s.total) s.flags, phase := .encDone }

/-- FLUSH (R246). -/
def execFlush (s : State) : Host.Outcome State Fault Refusal := dispatch .flush flushRule s

end Sys2Proof.Machine
end

