-- ==== Sys2Proof/Machine/Dispatch.lean ====
section
/-!
DEFINITION. One arm per command (30_encoding.md R103), each a direct call of its meaning.
-/

namespace Sys2Proof.Machine

def exec (i : Instr) (s : State) : Host.Outcome State Fault Refusal :=
  match i with
  | .nop => Sys2Proof.Machine.execNop s
  | .clear => Sys2Proof.Machine.execClear s
  | .wrctrl f => Sys2Proof.Machine.execWrctrl f s
  | .abort r => Sys2Proof.Machine.execAbort r s
  | .count b => Sys2Proof.Machine.execCount b s
  | .build => Sys2Proof.Machine.execBuild s
  | .hdrEmit => Sys2Proof.Machine.execHdrEmit s
  | .encode b => Sys2Proof.Machine.execEncode b s
  | .flush => Sys2Proof.Machine.execFlush s
  | .decStart => Sys2Proof.Machine.execDecStart s
  | .decByte b => Sys2Proof.Machine.execDecByte b s
  | .decEnd => Sys2Proof.Machine.execDecEnd s

end Sys2Proof.Machine
end

