-- ==== Sys2Proof/Machine/Step.lean ====
section
/-!
DEFINITION. One step of the block: the next host event (00_scope.md R9; 20_memory.md R76; 30_encoding.md R108).
-/

namespace Sys2Proof.Machine

/-- `Step(w)` for a command word (30_encoding.md R108). -/
def stepWord (w : CmdWord) (s : State) : Host.Outcome State Fault Refusal :=
  match decode w with
  | .legal i => exec i s
  | .illegal _ => .next (illegalWord w s)

/-- One step consumes one host event: a command word (R9, R76), the transfer of an output byte (20_memory.md R75), or
reset (70_reset_and_hazards.md R340). With no event the block holds its state (60_exceptions.md R314). -/
def step (s : State) : Host.Outcome State Fault Refusal :=
  match s.input with
  | [] => .next s
  | .command w :: rest => stepWord w { s with input := rest }
  | .drain :: rest => .next (drainOne { s with input := rest })
  | .reset :: rest => .next (hardReset { s with input := rest })

/-- The host presents the word `w` (numbered as the opcode table numbers its bits) before all its other events, so
that the next step consumes it. -/
def State.withFetchWord (s : State) (nbits w : Nat) : State :=
  { s with input := .command (BitVec.ofNat 16 (w % 2 ^ nbits)) :: s.input }

end Sys2Proof.Machine
end

