-- ==== Sys2Proof/Machine/Pseudo.lean ====
section
/-!
DEFINITION. The pseudo-instructions of 30_encoding.md R111: lists of commands, with no encoding of their own.
-/

namespace Sys2Proof.Machine

/-- `COUNTS s` (R111). -/
def countsOf (s : List Byte) : List Instr := s.map .count

/-- `ENCODES s` (R111). -/
def encodesOf (s : List Byte) : List Instr := s.map .encode

/-- `DEC_BYTES s` (R111). -/
def decBytesOf (s : List Byte) : List Instr := s.map .decByte

/-- `SETCTRL f` (R111). -/
def setCtrlOf (f : Byte) : List Instr := [.wrctrl f, .clear]

/-- `ENCODE_PASS s` (R111). -/
def encodePass (s : List Byte) : List Instr :=
  [.clear] ++ countsOf s ++ [.build, .hdrEmit] ++ encodesOf s ++ [.flush]

/-- `DECODE_PASS s` (R111). -/
def decodePass (s : List Byte) : List Instr := [.decStart] ++ decBytesOf s ++ [.decEnd]

/-- `REPEAT n, C` (R111). -/
def repeatOf (n : Nat) (c : Instr) : List Instr := List.replicate n c

end Sys2Proof.Machine
end

