-- ==== Sys2Proof/Machine/RegisterPort.lean ====
section
/-!
DEFINITION. The register port (20_memory.md R80 to R85) and the port signals that are views of the state (R90).
-/

namespace Sys2Proof.Machine

/-- Word k of a value of up to 96 bits, least significant word at k = 0 (R74). -/
def wordOf (k : Nat) (v : BitVec 96) : Word := v.extractLsb' (32 * k) 32

/-- The 2 bits of HDR_STAGE (10_state.md R35). -/
def HdrStage.bits (h : HdrStage) : BitVec 2 :=
  match h with
  | .count => 0
  | .symbol => 1
  | .frequency => 2
  | .done => 3

/-- BITSTATE (10_state.md R32): BITBUF in bits 7:0, BITCNT in bits 10:8. -/
def bitStateWord (s : State) : Word := 0#21 ++ s.bitCnt ++ s.bitBuf

/-- HDRSTATE (10_state.md R35): HDR_STAGE in bits 1:0, HDR_POS in bits 7:4, HDR_LEFT in bits 24:16. -/
def hdrStateWord (s : State) : Word := 0#7 ++ s.hdrLeft ++ 0#8 ++ s.hdrPos ++ 0#2 ++ s.hdrStage.bits

/-- The registers below 0x0100 (R80); a reserved address reads 0 (R81). -/
def csrWord (s : State) (a : Nat) : Word :=
  match a with
  | 0x00 => Config.idWord
  | 0x01 => s.ctrl.zeroExtend 32
  | 0x02 => s.activeCtrl.zeroExtend 32
  | 0x03 => statusWord s.phase s.flags
  | 0x04 => errInfoWord s.errInfo
  | 0x05 => s.nsym.zeroExtend 32
  | 0x06 => s.root.zeroExtend 32
  | 0x07 => s.cursor.zeroExtend 32
  | 0x08 => bitStateWord s
  | 0x09 => hdrStateWord s
  | 0x0A => s.hdrSym.zeroExtend 32
  | 0x0B => wordOf 0 (s.hdrAcc.zeroExtend 96)
  | 0x0C => wordOf 1 (s.hdrAcc.zeroExtend 96)
  | 0x10 => wordOf 0 (s.total.zeroExtend 96)
  | 0x11 => wordOf 1 (s.total.zeroExtend 96)
  | 0x12 => wordOf 2 (s.total.zeroExtend 96)
  | 0x13 => wordOf 0 (s.encCount.zeroExtend 96)
  | 0x14 => wordOf 1 (s.encCount.zeroExtend 96)
  | 0x15 => wordOf 2 (s.encCount.zeroExtend 96)
  | 0x16 => wordOf 0 (s.outCount.zeroExtend 96)
  | 0x17 => wordOf 1 (s.outCount.zeroExtend 96)
  | 0x18 => wordOf 2 (s.outCount.zeroExtend 96)
  | _ => 0

/-- FREQ[i] at offset 2i + k of its window (10_state.md R36). -/
def freqWord (v : Freq) (k : Nat) : Word := wordOf k (v.zeroExtend 96)

/-- CODE_LEN (10_state.md R39): LEN in bits 8:0, VALID in bit 31. -/
def codeLenWord (e : CodeEntry) : Word := BitVec.ofBool e.valid ++ 0#22 ++ e.len

/-- CODE_BITS word w (10_state.md R39): word 0 holds the first 32 code bits, the first of them in bit 31. -/
def codeBitsWord (e : CodeEntry) (w : Nat) : Word := e.bits.extractLsb' (224 - 32 * w) 32

/-- Word j of a node entry (10_state.md R37); an unused entry reads 0 in every word. -/
def nodeWord (e : NodeEntry) (j : Nat) : Word :=
  if e.used = false then 0
  else
    match j with
    | 0 => BitVec.ofBool e.used ++ BitVec.ofBool e.internal ++ 0#22 ++ e.sym
    | 1 => 0#7 ++ e.right ++ 0#7 ++ e.left
    | 2 => wordOf 0 (e.weight.zeroExtend 96)
    | 3 => wordOf 1 (e.weight.zeroExtend 96)
    | 4 => wordOf 2 (e.weight.zeroExtend 96)
    | _ => 0

/-- NODE[n] word j of the window at 0x1000 (R80). -/
def nodeWindow (t : Vector NodeEntry 511) (n : NodeIndex) (j : Nat) : Word :=
  match nodeAt t n with
  | some e => nodeWord e j
  | none => 0

/-- `MemRead(addr, 4)`: the register-port word at an address, from the state between two command steps (R80 to R84).
It is a function of the state, so a read changes nothing (R79). DESIGN CHOICE (log entry 12): OUT has no address. R80's map
is the whole of the address space and gives it none, although 60_exceptions.md R313 and 10_state.md R42 speak of every
element but the queue; the output port alone shows it. -/
def memRead (s : State) (addr : CsrAddr) : Word :=
  let a := addr.toNat
  if a < 0x0100 then csrWord s a
  else if a < 0x0300 then freqWord (freqAt s.freq (BitVec.ofNat 8 ((a - 0x0100) / 2))) ((a - 0x0100) % 2)
  else if a < 0x0400 then codeLenWord (codeAt s.code (BitVec.ofNat 8 (a - 0x0300)))
  else if a < 0x0C00 then codeBitsWord (codeAt s.code (BitVec.ofNat 8 ((a - 0x0400) / 8))) ((a - 0x0400) % 8)
  else if a < 0x1000 then 0
  else if a < 0x1FF8 then nodeWindow s.node (BitVec.ofNat 9 ((a - 0x1000) / 8)) ((a - 0x1000) % 8)
  else 0

/-- An event that puts a command word into the block's input queue. -/
def HostInput.isCommand (e : HostInput) : Bool :=
  match e with
  | .command _ => true
  | .drain => false
  | .reset => false

/-- The `idle` output (R85, R90): no command word is queued, and between two steps none is executing. -/
def State.idle (s : State) : Bool := !s.input.any HostInput.isCommand

/-- csr_rdata (R85, R90): the word of `memRead` while the block is idle, any value while it is not. `t` names the read
instant, so that two reads need not agree. DESIGN CHOICE (log entry 2): the ID register reads its constant while the block
is busy too, because 10_state.md R28, which speaks of ID alone and says "at every time", is taken before R85 and S1. -/
def portRead (s : State) (t : Nat) (addr : CsrAddr) : Word :=
  if s.idle = true ∨ addr = 0x0000#16 then memRead s addr else Config.busyRead t addr

/-- The `err` output (R90, 60_exceptions.md R308). -/
def State.errPort (s : State) : Bool := s.phase.errBit

/-- The `phase` output (R90). -/
def State.phasePort (s : State) : BitVec 3 := s.phase.bits

/-- The `out_valid` and `out_data` outputs (R90): the front byte of the undrained output. -/
def State.outPort (s : State) : Option Byte := s.pendingOut.head?

end Sys2Proof.Machine
end

