-- ==== Sys2Proof/Safety.lean ====
section
/-!
DEFINITION. What a good state is, in the terms the claims use: the arena invariant of 10_state.md R38, the invariant of
the whole state, and runs of several commands.
-/

namespace Sys2Proof.Machine

/-! ## The arena -/

/-- n is a child of the internal node p. -/
def IsChild (t : Vector NodeEntry 511) (p n : NodeIndex) : Prop :=
  ∃ e, nodeAt t p = some e ∧ e.internal = true ∧ (e.left = n ∨ e.right = n)

/-- The arena invariant for k leaves and a root (10_state.md R38), with the fields of R37. -/
structure ArenaOk (t : Vector NodeEntry 511) (k : Nat) (root : NodeIndex) : Prop where
  /-- the queue and the arena have room for at most 256 leaves -/
  leaves_le : k ≤ 256
  /-- entries 0..k-1 are leaves -/
  leaf : ∀ n : NodeIndex, n.toNat < k → ∃ e, nodeAt t n = some e ∧ e.used = true ∧ e.internal = false ∧
    e.left = Config.nilIndex ∧ e.right = Config.nilIndex
  /-- ... in ascending order of symbol -/
  ascending : ∀ m n : NodeIndex, m < n → n.toNat < k → ∀ d e, nodeAt t m = some d → nodeAt t n = some e → d.sym < e.sym
  /-- entries k..2k-2 are internal nodes, with two different children of smaller index -/
  inner : ∀ n : NodeIndex, k ≤ n.toNat → n.toNat + 1 < 2 * k → ∃ e, nodeAt t n = some e ∧ e.used = true ∧
    e.internal = true ∧ e.sym = 0 ∧ e.left < n ∧ e.right < n ∧ e.left ≠ e.right
  /-- every entry but ROOT is the child of exactly one internal node -/
  parent : ∀ n : NodeIndex, n.toNat + 2 < 2 * k → ∃ p, IsChild t p n ∧ ∀ q, IsChild t q n → q = p
  /-- entries 2k-1..510 are unused; every field is 0 -/
  unused : ∀ n : NodeIndex, 2 * k ≤ n.toNat + 1 → n ≠ Config.nilIndex → nodeAt t n = some NodeEntry.zero
  /-- ROOT = 2k - 2, or NIL when k = 0 -/
  root_eq : root = if k = 0 then Config.nilIndex else BitVec.ofNat 9 (2 * k - 2)

/-- The node a path of edges leads to, left for 0 and right for 1; `none` where it would leave a leaf (42_tree_builder.md
R190). -/
def pathEnd (t : Vector NodeEntry 511) (n : NodeIndex) : List Bool → Option NodeIndex
  | [] => some n
  | c :: cs =>
    match nodeAt t n with
    | none => none
    | some e => if e.internal then pathEnd t (childOf e c) cs else none

/-- How many symbols have a non-zero frequency: the k of 42_tree_builder.md R177. -/
def distinctSymbols (freq : Vector Freq 256) : Nat := allSymbols.countP fun b => freqAt freq b != 0#64

/-- The sum of all frequencies: the total input length (41_frequency_counter.md R152). -/
def freqSum (freq : Vector Freq 256) : Nat := (allSymbols.map fun b => (freqAt freq b).toNat).sum

/-! ## The invariant of the state -/

/-- The tree registers and tables hold what BuildTree makes of FREQ (42_tree_builder.md R177, R192). -/
structure TreeBuilt (s : State) : Prop where
  node : s.node = (buildArena s.freq).node
  root : s.root = arenaRoot (buildArena s.freq)
  code : s.code = assignCodes s.node s.root
  nsym : s.nsym = BitVec.ofNat 9 (addLeaves s.freq).idx
  total : s.total = weightAt s.node s.root
  empty : s.flags.treeEmpty = (s.root == Config.nilIndex)
  degenerate : s.flags.degenerate = rootIsLeaf s.node s.root

/-- No tree has been built in this pass: the values InitPass gives (10_state.md R44). -/
structure TreeClear (s : State) : Prop where
  node : s.node = Vector.replicate 511 NodeEntry.zero
  root : s.root = Config.nilIndex
  code : s.code = Vector.replicate 256 CodeEntry.zero
  nsym : s.nsym = 0
  total : s.total = 0
  empty : s.flags.treeEmpty = false
  degenerate : s.flags.degenerate = false

/-- CURSOR where the walk can go on: an internal node if the root is one, else the root itself (10_state.md R31,
45_decoder.md R264). -/
def CursorOk (s : State) : Prop :=
  s.cursor = s.root ∨
    ((∃ r, nodeAt s.node s.root = some r ∧ r.internal = true) ∧
      ∃ e, nodeAt s.node s.cursor = some e ∧ e.internal = true)

/-- The ranges of the header parser's registers (10_state.md R35). -/
def HeaderOk (s : State) : Prop :=
  match s.hdrStage with
  | .count => s.hdrPos.toNat < 4 ∧ s.hdrLeft = 0
  | .symbol => s.hdrPos = 0 ∧ 0 < s.hdrLeft.toNat ∧ s.hdrLeft.toNat ≤ 256
  | .frequency => s.hdrPos.toNat < 8 ∧ 0 < s.hdrLeft.toNat ∧ s.hdrLeft.toNat ≤ 256
  | .done => s.hdrPos = 0 ∧ s.hdrLeft = 0

/-- What the phase says of the pass (10_state.md R23): whether a tree has been built, and where the header parser is. -/
def PhaseOk (s : State) : Prop :=
  match s.phase with
  | .idle => s.flags.treeValid = false ∧ s.hdrStage = .count
  | .built => s.flags.treeValid = true ∧ s.hdrStage = .count
  | .encoding => s.flags.treeValid = true ∧ s.hdrStage = .count
  | .encDone => s.flags.treeValid = true ∧ s.hdrStage = .count
  | .decHdr => s.flags.treeValid = false ∧ s.hdrStage ≠ .done
  | .decPayload => s.flags.treeValid = true ∧ s.hdrStage = .done
  | .decDone => s.flags.treeValid = true ∧ s.hdrStage = .done
  | .error => s.flags.treeValid = true ∨ s.hdrStage ≠ .done

/-- The invariant every step keeps. -/
structure Inv (s : State) : Prop where
  /-- BITBUF < 2^BITCNT (10_state.md R32) -/
  bitBuf : s.bitBuf.toNat < 2 ^ s.bitCnt.toNat
  /-- the host removes only bytes that were emitted (20_memory.md R75) -/
  drained : s.drained ≤ s.out.length
  /-- ERRINFO is 0 outside ERROR (10_state.md R27; 60_exceptions.md R301, R307) -/
  errNone : s.phase ≠ .error → s.errInfo = ErrInfo.zero
  /-- in ERROR, ERRINFO holds an error and the phase it came from (60_exceptions.md R301) -/
  errSome : s.phase = .error → s.errInfo.code ≠ .none ∧ s.errInfo.phase ≠ .error
  /-- the header parser's registers are in their ranges (10_state.md R35) -/
  header : HeaderOk s
  /-- the phase and the pass agree (10_state.md R23) -/
  phase : PhaseOk s
  /-- a built tree is the tree of FREQ -/
  tree : s.flags.treeValid = true → TreeBuilt s
  /-- before that the tree state is clear -/
  noTree : s.flags.treeValid = false → TreeClear s
  /-- the walker stands where it can go on -/
  cursor : CursorOk s
  /-- with the strict tail no more symbols come out than were counted (10_state.md R24; 45_decoder.md R264) -/
  outCount : compatTail s.activeCtrl = false → s.outCount ≤ s.total

/-! ## The payload as a stream of bits -/

/-- The pending bits of the writer's buffer, earliest first (10_state.md R32). -/
def pendingBits (s : State) : List Bool :=
  (List.range s.bitCnt.toNat).map fun i => s.bitBuf.getLsbD (s.bitCnt.toNat - 1 - i)

/-- The bits of a sequence of bytes in stream order (20_memory.md R73). -/
def bitsOfBytes (bs : List Byte) : List Bool := bs.flatMap bitsOfByte

/-- Every bit of OUT, and then the pending bits (20_memory.md R73, R88). -/
def bitStream (s : State) : List Bool := bitsOfBytes s.out ++ pendingBits s

/-! ## Runs -/

/-- A run of commands, one after the other, as the host presents them (20_memory.md R76). -/
def runInstrs : List Instr → State → Host.Outcome State Fault Refusal
  | [], s => .next s
  | i :: is, s =>
    match exec i s with
    | .next t => runInstrs is t
    | .fault f => .fault f
    | .refused r => .refused r

end Sys2Proof.Machine
end

