-- ==== Sys2Proof/Certificates/Slice0/Obligations.lean ====
section
/-!
DEFINITION. The statements about the model, for the provers. Each docstring names the rule of spec/ it formalises.
-/

open Sys2Proof Sys2Proof.Machine

/-! ## Encoding (30_encoding.md) -/

/-- The decoder and the encoder agree in both directions (R100, R102, R103): no bit of a word is dropped. -/
def Obligations.DecodeEncodeRoundTrip : Prop :=
  (∀ i : Instr, i.WF → decode (encode i) = .legal i) ∧
  (∀ (w : CmdWord) (i : Instr), decode w = .legal i → i.WF ∧ encode i = w)

/-- R103: the word column of the opcode map, row by row, with every operand byte of the rows COUNT, ENCODE and
DEC_BYTE. -/
def Obligations.OpcodeMapWords : Prop :=
  decode 0x0000#16 = .legal .nop ∧ decode 0x0100#16 = .legal .clear ∧
  decode 0x0200#16 = .legal (.wrctrl 0x00#8) ∧ decode 0x0201#16 = .legal (.wrctrl 0x01#8) ∧
  decode 0x0202#16 = .legal (.wrctrl 0x02#8) ∧ decode 0x0203#16 = .legal (.wrctrl 0x03#8) ∧
  decode 0x0301#16 = .legal (.abort 0x01#8) ∧ decode 0x0302#16 = .legal (.abort 0x02#8) ∧
  (∀ b : Byte, decode (0x10#8 ++ b) = .legal (.count b)) ∧
  decode 0x1100#16 = .legal .build ∧ decode 0x1200#16 = .legal .hdrEmit ∧
  (∀ b : Byte, decode (0x13#8 ++ b) = .legal (.encode b)) ∧
  decode 0x1400#16 = .legal .flush ∧ decode 0x2000#16 = .legal .decStart ∧
  (∀ b : Byte, decode (0x21#8 ++ b) = .legal (.decByte b)) ∧
  decode 0x2200#16 = .legal .decEnd

/-- R104: the decoder takes exactly the words the rule's formula admits. -/
def Obligations.LegalWordsAreTheFormula : Prop :=
  ∀ w : CmdWord,
    (∃ i, decode w = .legal i) ↔
      (w.extractLsb' 8 8 = 0x10#8 ∨ w.extractLsb' 8 8 = 0x13#8 ∨ w.extractLsb' 8 8 = 0x21#8) ∨
      (w.extractLsb' 8 8 = 0x02#8 ∧ w.extractLsb' 2 6 = 0#6) ∨
      (w.extractLsb' 8 8 = 0x03#8 ∧ (w.extractLsb' 0 8 = 0x01#8 ∨ w.extractLsb' 0 8 = 0x02#8)) ∨
      ((w.extractLsb' 8 8 = 0x00#8 ∨ w.extractLsb' 8 8 = 0x01#8 ∨ w.extractLsb' 8 8 = 0x11#8 ∨
        w.extractLsb' 8 8 = 0x12#8 ∨ w.extractLsb' 8 8 = 0x14#8 ∨ w.extractLsb' 8 8 = 0x20#8 ∨
        w.extractLsb' 8 8 = 0x22#8) ∧ w.extractLsb' 0 8 = 0x00#8)

/-! ## Dispatch and errors (30_encoding.md R107, R108; 60_exceptions.md) -/

/-- R76, R108: a step whose next event is a command word that decodes to i takes that word off the stream, and is exec
of i on the rest. -/
def Obligations.StepRunsDecodedCommand : Prop :=
  ∀ (s : State) (w : CmdWord) (rest : List HostInput) (i : Instr),
    s.input = .command w :: rest → decode w = .legal i → step s = exec i { s with input := rest }

/-- R105: an illegal word is consumed; outside ERROR it raises ILLEGAL_COMMAND, in ERROR it is discarded. The illegal
words are the four groups of the rule. -/
def Obligations.IllegalWordRaises : Prop :=
  (∀ (s : State) (w : CmdWord) (rest : List HostInput),
    s.input = .command w :: rest → (∀ i, decode w ≠ .legal i) →
      step s = .next (if s.phase = .error then { s with input := rest } else
        { s with input := rest, phase := .error,
                 errInfo := { opcode := w.extractLsb' 8 8, phase := s.phase, sub := 0, code := .illegalCommand } })) ∧
  (∀ w : CmdWord,
    ((w.extractLsb' 8 8).toNat ∉ [0x00, 0x01, 0x02, 0x03, 0x10, 0x11, 0x12, 0x13, 0x14, 0x20, 0x21, 0x22] ∨
      ((w.extractLsb' 8 8).toNat ∈ [0x00, 0x01, 0x11, 0x12, 0x14, 0x20, 0x22] ∧ w.extractLsb' 0 8 ≠ 0#8) ∨
      (w.extractLsb' 8 8 = 0x02#8 ∧ w.extractLsb' 2 6 ≠ 0#6) ∨
      (w.extractLsb' 8 8 = 0x03#8 ∧ w.extractLsb' 0 8 ≠ 0x01#8 ∧ w.extractLsb' 0 8 ≠ 0x02#8)) ↔
    ∀ i, decode w ≠ .legal i)

/-- R107: the legality table. Outside ERROR a well-formed command ends in the SEQUENCE error exactly in the phases its
row does not list. -/
def Obligations.SequenceTable : Prop :=
  ∀ (i : Instr) (s : State), i.WF → s.phase ≠ .error →
    (exec i s = .next { s with phase := .error,
                               errInfo := { opcode := i.opcode, phase := s.phase, sub := 0, code := .sequence } } ↔
      s.phase ∉ (match i with
        | .nop => [.idle, .built, .encoding, .encDone, .decHdr, .decPayload, .decDone]
        | .clear => [.idle, .built, .encoding, .encDone, .decHdr, .decPayload, .decDone]
        | .wrctrl _ => [.idle, .built, .encoding, .encDone, .decHdr, .decPayload, .decDone]
        | .decStart => [.idle, .built, .encoding, .encDone, .decHdr, .decPayload, .decDone]
        | .abort _ => [.idle, .built, .encoding, .encDone, .decHdr, .decPayload, .decDone]
        | .count _ => [.idle]
        | .build => [.idle]
        | .hdrEmit => [.built]
        | .encode _ => [.encoding]
        | .flush => [.encoding]
        | .decByte _ => [.decHdr, .decPayload]
        | .decEnd => [.decHdr, .decPayload] : List Phase))

/-- R305: in ERROR, NOP, CLEAR, WRCTRL and DEC_START execute; every other word, legal or not, is consumed with no effect
on any state or on OUT and no new error. -/
def Obligations.ErrorPhaseDiscards : Prop :=
  (∀ (s : State) (w : CmdWord) (rest : List HostInput),
    s.phase = .error → s.input = .command w :: rest →
      (∀ i, decode w = .legal i → i ≠ .nop ∧ i ≠ .clear ∧ i ≠ .decStart ∧ ∀ f, i ≠ .wrctrl f) →
      step s = .next { s with input := rest }) ∧
  (∀ s : State, s.phase = .error →
    exec .nop s = .next s ∧
    (∀ f : Byte, f.extractLsb' 2 6 = 0#6 → exec (.wrctrl f) s = .next { s with ctrl := f.extractLsb' 0 2 }) ∧
    exec .clear s = .next
      { State.reset with phase := .idle, ctrl := s.ctrl, activeCtrl := s.ctrl, out := s.out, drained := s.drained,
                         input := s.input } ∧
    exec .decStart s = .next
      { State.reset with phase := .decHdr, ctrl := s.ctrl, activeCtrl := s.ctrl, out := s.out, drained := s.drained,
                         input := s.input })

/-- R301, R304: a command word that raises, legal or not, leaves the state exactly as it was but for PHASE and ERRINFO,
emits no byte, and ERRINFO reads as the four fields of the error entry, with the code's number of R302. -/
def Obligations.ErrorsArePrecise : Prop :=
  ∀ (s t : State) (w : CmdWord) (rest : List HostInput), s.input = .command w :: rest → step s = .next t →
    s.phase ≠ .error → t.phase = .error →
    ∃ (code : ErrorCode) (sub : Byte), code ≠ .none ∧
      t = { s with input := rest, phase := .error,
                   errInfo := { opcode := w.extractLsb' 8 8, phase := s.phase, sub := sub, code := code } } ∧
      memRead t 0x0004#16 =
        ((w.extractLsb' 8 8).zeroExtend 32 <<< 24) ||| (s.phase.bits.zeroExtend 32 <<< 16) |||
          (sub.zeroExtend 32 <<< 8) ||| code.bits.zeroExtend 32 ∧
      code.bits = (match code with
        | .none => 0x00#8
        | .illegalCommand => 0x01#8
        | .sequence => 0x02#8
        | .freqOverflow => 0x03#8
        | .symbolNotInTree => 0x04#8
        | .malformedContainer => 0x05#8
        | .traversalOnEmptyTree => 0x06#8
        | .sourceUnavailable => 0x07#8
        | .sinkUnavailable => 0x08#8)

/-- R307 with R340: ERRINFO changes only by an error entry, which happens outside ERROR, or it is cleared by InitPass
(CLEAR and DEC_START) or by reset. -/
def Obligations.FirstErrorWins : Prop :=
  ∀ s t : State, step s = .next t → t.errInfo ≠ s.errInfo →
    (s.phase ≠ .error ∧ t.phase = .error) ∨
    (t.errInfo = ErrInfo.zero ∧
      (s.input.head? = some (.command 0x0100#16) ∨ s.input.head? = some (.command 0x2000#16) ∨
        s.input.head? = some .reset))

/-- R306, R108, outside ERROR: every illegal word reports ILLEGAL_COMMAND, whichever of the other seven phases it is; and
COUNT, ENCODE, DEC_BYTE and DEC_END, the commands with errors of their own, report SEQUENCE out of phase whatever their
operand. -/
def Obligations.CheckOrder : Prop :=
  (∀ (s : State) (w : CmdWord) (rest : List HostInput) (t : State), s.phase ≠ .error →
    s.input = .command w :: rest → (∀ i, decode w ≠ .legal i) → step s = .next t →
      t.errInfo.code = .illegalCommand) ∧
  (∀ (s : State) (b : Byte), s.phase ≠ .error →
    (s.phase ≠ .idle → ∃ t, exec (.count b) s = .next t ∧ t.errInfo.code = .sequence) ∧
    (s.phase ≠ .encoding → ∃ t, exec (.encode b) s = .next t ∧ t.errInfo.code = .sequence) ∧
    (s.phase ≠ .decHdr → s.phase ≠ .decPayload →
      (∃ t, exec (.decByte b) s = .next t ∧ t.errInfo.code = .sequence) ∧
      (∃ t, exec .decEnd s = .next t ∧ t.errInfo.code = .sequence)))

/-! ## Pass control (40_control.md) -/

/-- R131: NOP has no effect in any phase; its words with a non-zero operand are illegal. -/
def Obligations.NopHasNoEffect : Prop :=
  (∀ s : State, exec .nop s = .next s) ∧
  (∀ w : CmdWord, w.extractLsb' 8 8 = 0x00#8 → w.extractLsb' 0 8 ≠ 0x00#8 → ∀ i, decode w ≠ .legal i)

/-- R44, R132, R260: CLEAR and DEC_START, in every phase, set every state element to its reset value; CTRL keeps its
value, ACTIVE_CTRL takes it, OUT is not touched; PHASE is IDLE or DEC_HDR. -/
def Obligations.InitPassOpensAPass : Prop :=
  ∀ s : State,
    exec .clear s = .next
      { State.reset with phase := .idle, ctrl := s.ctrl, activeCtrl := s.ctrl, out := s.out, drained := s.drained,
                         input := s.input } ∧
    exec .decStart s = .next
      { State.reset with phase := .decHdr, ctrl := s.ctrl, activeCtrl := s.ctrl, out := s.out, drained := s.drained,
                         input := s.input }

/-- R134: WRCTRL f writes CTRL bits 1:0 in every phase and nothing else; a later CLEAR or DEC_START puts the value in
force; an operand with one of the bits 7:2 set is illegal. -/
def Obligations.WrctrlWritesCtrl : Prop :=
  (∀ (s : State) (f : Byte), f.extractLsb' 2 6 = 0#6 →
    exec (.wrctrl f) s = .next { s with ctrl := f.extractLsb' 0 2 } ∧
    (∀ t, exec (.wrctrl f) s = .next t → memRead t 0x0001#16 = (f.extractLsb' 0 2).zeroExtend 32 ∧
      (∃ u, exec .clear t = .next u ∧ u.activeCtrl = f.extractLsb' 0 2) ∧
      (∃ u, exec .decStart t = .next u ∧ u.activeCtrl = f.extractLsb' 0 2))) ∧
  (∀ w : CmdWord, w.extractLsb' 8 8 = 0x02#8 → w.extractLsb' 2 6 ≠ 0#6 → ∀ i, decode w ≠ .legal i)

/-- R138: ABORT records SOURCE_UNAVAILABLE or SINK_UNAVAILABLE in every phase but ERROR, where it is discarded; any other
operand is illegal. The error entry is ABORT's own effect. -/
def Obligations.AbortRecordsTheReason : Prop :=
  (∀ s : State, s.phase ≠ .error →
    exec (.abort 0x01#8) s = .next
      { s with phase := .error, errInfo := { opcode := 0x03#8, phase := s.phase, sub := 0, code := .sourceUnavailable } } ∧
    exec (.abort 0x02#8) s = .next
      { s with phase := .error, errInfo := { opcode := 0x03#8, phase := s.phase, sub := 0, code := .sinkUnavailable } }) ∧
  (∀ (s : State) (r : Byte), s.phase = .error → exec (.abort r) s = .next s) ∧
  (∀ w : CmdWord, w.extractLsb' 8 8 = 0x03#8 → w.extractLsb' 0 8 ≠ 0x01#8 → w.extractLsb' 0 8 ≠ 0x02#8 →
    ∀ i, decode w ≠ .legal i)

/-- R24, R25, R362: CTRL changes only by WRCTRL or reset; ACTIVE_CTRL changes only by CLEAR, DEC_START or reset, and what
it takes is the CTRL of before. -/
def Obligations.OnlyTheirWritersChangeControl : Prop :=
  ∀ s t : State, step s = .next t →
    (t.ctrl ≠ s.ctrl → s.input.head? = some .reset ∨
      ∃ f : Byte, s.input.head? = some (.command (0x02#8 ++ f)) ∧ t.ctrl = f.extractLsb' 0 2) ∧
    (t.activeCtrl ≠ s.activeCtrl → s.input.head? = some .reset ∨
      ((s.input.head? = some (.command 0x0100#16) ∨ s.input.head? = some (.command 0x2000#16)) ∧
        t.activeCtrl = s.ctrl))

/-! ## Frequency counter (41_frequency_counter.md) -/

/-- R151: COUNT b in IDLE adds exactly 1 to FREQ[b] and changes nothing else; at 2^64 - 1 it raises FREQ_OVERFLOW with
SUB = b and FREQ[b] is unchanged; outside IDLE and ERROR it raises SEQUENCE. -/
def Obligations.CountAddsOne : Prop :=
  (∀ (s : State) (b : Byte), s.phase = .idle → (freqAt s.freq b).toNat ≠ 2 ^ 64 - 1 →
    ∃ t, exec (.count b) s = .next t ∧ (freqAt t.freq b).toNat = (freqAt s.freq b).toNat + 1 ∧
      (∀ a, a ≠ b → freqAt t.freq a = freqAt s.freq a) ∧ t = { s with freq := t.freq }) ∧
  (∀ (s : State) (b : Byte), s.phase = .idle → (freqAt s.freq b).toNat = 2 ^ 64 - 1 →
    exec (.count b) s = .next
      { s with phase := .error, errInfo := { opcode := 0x10#8, phase := .idle, sub := b, code := .freqOverflow } }) ∧
  (∀ (s : State) (b : Byte), s.phase ≠ .idle → s.phase ≠ .error →
    exec (.count b) s = .next
      { s with phase := .error, errInfo := { opcode := 0x10#8, phase := s.phase, sub := 0, code := .sequence } })

/-- R36, R80, R82 with R151: on the register port a COUNT b that succeeds changes the two words of FREQ[b] and no other
address, and the two words show the new count, low word first. -/
def Obligations.CountThroughTheRegisterPort : Prop :=
  ∀ (s t : State) (b : Byte), s.phase = .idle → (freqAt s.freq b).toNat ≠ 2 ^ 64 - 1 → exec (.count b) s = .next t →
    (∀ a : CsrAddr, a.toNat ≠ 0x0100 + 2 * b.toNat → a.toNat ≠ 0x0101 + 2 * b.toNat → memRead t a = memRead s a) ∧
    memRead t (BitVec.ofNat 16 (0x0101 + 2 * b.toNat)) ++ memRead t (BitVec.ofNat 16 (0x0100 + 2 * b.toNat)) =
      freqAt s.freq b + 1

/-- R150, R152: after a sequence of COUNT commands, each symbol's count has grown by how often it occurs, the sum of the
counts by how many commands there were, and the sum is below 2^72; from the all-zero table of InitPass the counts are
the numbers of occurrences; nothing else changes; and BUILD records the sum as TOTAL. -/
def Obligations.CountsAreOccurrences : Prop :=
  ∀ (S : List Byte) (s : State), s.phase = .idle → (∀ b, (freqAt s.freq b).toNat + S.count b < 2 ^ 64) →
    ∃ t, runInstrs (countsOf S) s = .next t ∧ t = { s with freq := t.freq } ∧
      (∀ b, (freqAt t.freq b).toNat = (freqAt s.freq b).toNat + S.count b) ∧
      freqSum t.freq = freqSum s.freq + S.length ∧ freqSum t.freq < 2 ^ 72 ∧
      ((∀ b, freqAt s.freq b = 0#64) → ∀ b, (freqAt t.freq b).toNat = S.count b) ∧
      ∃ u, exec .build t = .next u ∧ u.total.toNat = freqSum s.freq + S.length

/-- R36: FREQ changes only by COUNT in IDLE, by DEC_BYTE in DEC_HDR, by CLEAR, DEC_START or reset; so once BUILD has run
or the header is complete nothing writes it until the next InitPass. -/
def Obligations.FrequenciesAreImmutable : Prop :=
  ∀ s t : State, step s = .next t → t.freq ≠ s.freq →
    (s.phase = .idle ∧ ∃ b : Byte, s.input.head? = some (.command (0x10#8 ++ b))) ∨
    (s.phase = .decHdr ∧ ∃ b : Byte, s.input.head? = some (.command (0x21#8 ++ b))) ∨
    s.input.head? = some (.command 0x0100#16) ∨ s.input.head? = some (.command 0x2000#16) ∨
    s.input.head? = some .reset

/-! ## Priority queue, tree builder and code assigner (42_tree_builder.md) -/

/-- R175: over any arena, inserts and extractions keep the min-heap property; an insert adds its node, and an extraction
from a queue of distinct nodes removes the node whose key is less than every other's. -/
def Obligations.QueueReturnsTheMinimum : Prop :=
  ∀ (t : Vector NodeEntry 511) (h : List NodeIndex),
    (∀ i, 0 < i → i < h.length → keyLess t (heapAt h i) (heapAt h ((i - 1) / 2)) = false) →
    (∀ n, (pqInsert (keyLess t) h n).Perm (n :: h) ∧
      ∀ i, 0 < i → i < (pqInsert (keyLess t) h n).length →
        keyLess t (heapAt (pqInsert (keyLess t) h n) i) (heapAt (pqInsert (keyLess t) h n) ((i - 1) / 2)) = false) ∧
    (h ≠ [] → ∃ r h', pqExtractMin (keyLess t) h = some (r, h') ∧ h.Perm (r :: h') ∧
      (h.Nodup → ∀ x ∈ h', keyLess t r x = true) ∧
      ∀ i, 0 < i → i < h'.length → keyLess t (heapAt h' i) (heapAt h' ((i - 1) / 2)) = false)

/-- R177, R178: BUILD in IDLE ends in BUILT, with NSYM the number of symbols of non-zero frequency, CURSOR at ROOT,
TREE_VALID set, TREE_EMPTY for the empty tree and DEGENERATE for the one-symbol tree; it emits nothing, and nothing but
NODE, CODE, NSYM, ROOT, CURSOR, TOTAL, STATUS bits 6:4 and PHASE changes. -/
def Obligations.BuildCompletes : Prop :=
  ∀ s : State, s.phase = .idle →
    ∃ t, exec .build s = .next t ∧ t.phase = .built ∧ t.nsym.toNat = distinctSymbols s.freq ∧ t.cursor = t.root ∧
      t.flags = { s.flags with treeValid := true, treeEmpty := decide (distinctSymbols s.freq = 0),
                               degenerate := decide (distinctSymbols s.freq = 1) } ∧
      (t.root = Config.nilIndex ↔ distinctSymbols s.freq = 0) ∧
      t = { s with phase := .built, node := t.node, code := t.code, nsym := t.nsym, root := t.root,
                   cursor := t.cursor, total := t.total, flags := t.flags }

/-- R38: after BuildTree, from any table of frequencies, the arena holds k leaves in ascending order of symbol, then the
internal nodes, each with two different children of smaller index, ROOT last; every entry but ROOT is the child of
exactly one internal node and the entries behind ROOT are unused. -/
def Obligations.BuildTreeArena : Prop :=
  ∀ s : State, ArenaOk (buildTree s).node (distinctSymbols s.freq) (buildTree s).root ∧
    (0 < distinctSymbols s.freq → (buildTree s).root.toNat = 2 * distinctSymbols s.freq - 2) ∧
    (distinctSymbols s.freq = 0 → (buildTree s).root = Config.nilIndex ∧
      ∀ n e, nodeAt (buildTree s).node n = some e → e.used = false)

/-- R171, R176, R177: every merge joins the two nodes of least key, the first one LEFT. For each internal node n, key(LEFT)
is less than key(RIGHT), and every other node made before n that no node made before n has as a child has a greater key
than both. A key is the weight and then the node index. -/
def Obligations.MergesJoinTheLeastNodes : Prop :=
  ∀ (s : State) (n : NodeIndex) (e : NodeEntry), nodeAt (buildTree s).node n = some e → e.internal = true →
    ∃ a b, nodeAt (buildTree s).node e.left = some a ∧ nodeAt (buildTree s).node e.right = some b ∧
      (a.weight.toNat < b.weight.toNat ∨ a.weight = b.weight ∧ e.left.toNat < e.right.toNat) ∧
      ∀ m d, m.toNat < n.toNat → m ≠ e.left → m ≠ e.right → nodeAt (buildTree s).node m = some d →
        (∀ q, q.toNat < n.toNat → ¬IsChild (buildTree s).node q m) →
        b.weight.toNat < d.weight.toNat ∨ b.weight = d.weight ∧ e.right.toNat < m.toNat

/-- R180 with R172, R176: a leaf's weight is its symbol's frequency, an internal node's the exact sum of its children's
weights; TOTAL is the weight of the entry at ROOT (0 for the empty tree) and the sum of all frequencies: in an encode
pass, the number of COUNT commands. -/
def Obligations.WeightsAddUp : Prop :=
  ∀ s : State,
    (∀ n e, nodeAt (buildTree s).node n = some e → e.used = true → e.internal = false →
      e.weight.toNat = (freqAt s.freq e.sym).toNat ∧ freqAt s.freq e.sym ≠ 0#64) ∧
    (∀ n e, nodeAt (buildTree s).node n = some e → e.internal = true →
      ∃ a b, nodeAt (buildTree s).node e.left = some a ∧ nodeAt (buildTree s).node e.right = some b ∧
        e.weight.toNat = a.weight.toNat + b.weight.toNat) ∧
    (∀ e, nodeAt (buildTree s).node (buildTree s).root = some e → e.weight = (buildTree s).total) ∧
    ((buildTree s).root = Config.nilIndex → (buildTree s).total = 0) ∧
    (buildTree s).total.toNat = freqSum s.freq ∧
    (∀ S : List Byte, s.phase = .idle → (∀ b, freqAt s.freq b = 0#64) → (∀ b, S.count b < 2 ^ 64) →
      ∃ t, runInstrs (countsOf S ++ [.build]) s = .next t ∧ t.total.toNat = S.length)

/-- R191: after BuildTree no code is the start of another symbol's code; with k ≥ 2 symbols every code has length
1..k-1, with one symbol length 0; CODE[s].VALID is 1 exactly when FREQ[s] is not 0. -/
def Obligations.CodesArePrefixFree : Prop :=
  ∀ s : State,
    (∀ a b : Byte, a ≠ b → (codeAt (buildTree s).code a).valid = true → (codeAt (buildTree s).code b).valid = true →
      ¬codeOf (codeAt (buildTree s).code a) <+: codeOf (codeAt (buildTree s).code b)) ∧
    (∀ a : Byte, (codeAt (buildTree s).code a).valid = true →
      (2 ≤ distinctSymbols s.freq → 1 ≤ (codeAt (buildTree s).code a).len.toNat ∧
        (codeAt (buildTree s).code a).len.toNat ≤ distinctSymbols s.freq - 1) ∧
      (distinctSymbols s.freq = 1 → (codeAt (buildTree s).code a).len = 0)) ∧
    (∀ a : Byte, (codeAt (buildTree s).code a).valid = true ↔ freqAt s.freq a ≠ 0#64)

/-- R190 with R39: every leaf's code is the path of edges from the root to it, 0 for left and 1 for right, first edge
first; a symbol without a leaf has the all-zero entry; and the code bits at positions j ≥ LEN are 0. -/
def Obligations.CodesAreTreePaths : Prop :=
  ∀ (s : State) (a : Byte),
    ((codeAt (buildTree s).code a).valid = true →
      ∃ n e, pathEnd (buildTree s).node (buildTree s).root (codeOf (codeAt (buildTree s).code a)) = some n ∧
        nodeAt (buildTree s).node n = some e ∧ e.used = true ∧ e.internal = false ∧ e.sym = a) ∧
    ((codeAt (buildTree s).code a).valid = false → codeAt (buildTree s).code a = CodeEntry.zero) ∧
    (∀ j, (codeAt (buildTree s).code a).len.toNat ≤ j → codeBit (codeAt (buildTree s).code a) j = false)

/-- R192: the tree does not depend on the order in which COUNT commands arrive: two orders of one sequence of bytes, then
BUILD, end in the same state. -/
def Obligations.CountOrderDoesNotMatter : Prop :=
  ∀ (S S' : List Byte) (s : State), s.phase = .idle → (∀ b, (freqAt s.freq b).toNat + S.count b < 2 ^ 64) → S.Perm S' →
    ∃ t, runInstrs (countsOf S ++ [.build]) s = .next t ∧ runInstrs (countsOf S' ++ [.build]) s = .next t

/-! ## Container header (43_container_header.md; 20_memory.md R72) -/

/-- R72: EncInt puts v[7:0] first with HDR_BE = 0 and v[8n-1:8n-8] first with HDR_BE = 1; absorbing the n bytes from
acc = 0 gives v again, in either order. -/
def Obligations.FieldBytesAreAbsorbedBack : Prop :=
  ∀ (n : Nat) (v : BitVec 64), n = 4 ∨ n = 8 → v.toNat < 2 ^ (8 * n) →
    (∀ be, (encInt be n v).length = n) ∧
    (∀ i, i < n → (encInt false n v)[i]? = some (v.extractLsb' (8 * i) 8) ∧
      (encInt true n v)[n - 1 - i]? = some (v.extractLsb' (8 * i) 8)) ∧
    (∀ be, (encInt be n v).zipIdx.foldl (fun acc p => accByte be acc p.1 p.2) 0#64 = v)

/-- R211: HDR_EMIT in BUILT emits the count and then, in ascending symbol order, each symbol of non-zero frequency with
its frequency, in the byte order of ACTIVE_CTRL.HDR_BE; PHASE becomes ENCODING and nothing else changes; with NSYM the
number of such symbols these are 4 + 9·NSYM bytes. -/
def Obligations.HdrEmitWritesTheHeader : Prop :=
  ∀ s : State, s.phase = .built →
    exec .hdrEmit s = .next
      { s with
        phase := .encoding
        out := s.out ++ (encInt (s.activeCtrl.getLsbD 0) 4 (s.nsym.zeroExtend 64) ++
          (allSymbols.filter fun b => freqAt s.freq b != 0#64).flatMap fun b =>
            b :: encInt (s.activeCtrl.getLsbD 0) 8 (freqAt s.freq b)) } ∧
    (s.nsym.toNat = distinctSymbols s.freq → ∀ t, exec .hdrEmit s = .next t →
      t.out.length = s.out.length + (4 + 9 * s.nsym.toNat))

/-- R213: DEC_BYTE b in DEC_HDR while the count field is read. The first three bytes are absorbed; the fourth decides by
the int32 count: negative is SUB 1, above 256 is SUB 2, 0 completes the header, 1..256 starts the entries. -/
def Obligations.CountFieldParser : Prop :=
  ∀ (s : State) (b : Byte), s.phase = .decHdr → s.hdrStage = .count →
    (s.hdrPos.toNat + 1 < 4 → ∃ t, exec (.decByte b) s = .next t ∧ t.hdrPos.toNat = s.hdrPos.toNat + 1 ∧
      t.hdrAcc = accByte (s.activeCtrl.getLsbD 0) s.hdrAcc b s.hdrPos.toNat ∧
      t = { s with hdrPos := t.hdrPos, hdrAcc := t.hdrAcc }) ∧
    (4 ≤ s.hdrPos.toNat + 1 → ∀ c : Int,
      c = ((accByte (s.activeCtrl.getLsbD 0) s.hdrAcc b s.hdrPos.toNat).extractLsb' 0 32).toInt →
      (c < 0 → exec (.decByte b) s = .next
        { s with phase := .error,
                 errInfo := { opcode := 0x21#8, phase := .decHdr, sub := 1, code := .malformedContainer } }) ∧
      (256 < c → exec (.decByte b) s = .next
        { s with phase := .error,
                 errInfo := { opcode := 0x21#8, phase := .decHdr, sub := 2, code := .malformedContainer } }) ∧
      (c = 0 → exec (.decByte b) s = .next
        { buildTree { s with hdrStage := .done, hdrLeft := 0, hdrAcc := 0, hdrPos := 0 } with phase := .decPayload }) ∧
      (0 < c → c ≤ 256 → exec (.decByte b) s = .next
        { s with hdrStage := .symbol, hdrLeft := BitVec.ofInt 9 c, hdrAcc := 0, hdrPos := 0 }))

/-- R214: DEC_BYTE b in DEC_HDR while the symbol of an entry is read: a symbol already given is SUB 4, else it is kept
and the frequency field starts. -/
def Obligations.SymbolByteParser : Prop :=
  ∀ (s : State) (b : Byte), s.phase = .decHdr → s.hdrStage = .symbol →
    (freqAt s.freq b ≠ 0#64 → exec (.decByte b) s = .next
      { s with phase := .error,
               errInfo := { opcode := 0x21#8, phase := .decHdr, sub := 4, code := .malformedContainer } }) ∧
    (freqAt s.freq b = 0#64 → exec (.decByte b) s = .next
      { s with hdrSym := b, hdrAcc := 0, hdrPos := 0, hdrStage := .frequency })

/-- R215, R216: DEC_BYTE b in DEC_HDR while the frequency of an entry is read. Seven bytes are absorbed; the eighth raises
SUB 5 for a frequency of zero, else it stores the frequency; the last entry completes the header, which builds the tree
and goes to DEC_PAYLOAD. HDR_LEFT ≥ 1 is the parser's invariant in this stage (`Inv`). -/
def Obligations.FrequencyFieldParser : Prop :=
  ∀ (s : State) (b : Byte), s.phase = .decHdr → s.hdrStage = .frequency → 0 < s.hdrLeft.toNat →
    (s.hdrPos.toNat + 1 < 8 → ∃ t, exec (.decByte b) s = .next t ∧ t.hdrPos.toNat = s.hdrPos.toNat + 1 ∧
      t.hdrAcc = accByte (s.activeCtrl.getLsbD 0) s.hdrAcc b s.hdrPos.toNat ∧
      t = { s with hdrPos := t.hdrPos, hdrAcc := t.hdrAcc }) ∧
    (8 ≤ s.hdrPos.toNat + 1 → ∀ v : BitVec 64, v = accByte (s.activeCtrl.getLsbD 0) s.hdrAcc b s.hdrPos.toNat →
      (v = 0#64 → exec (.decByte b) s = .next
        { s with phase := .error,
                 errInfo := { opcode := 0x21#8, phase := .decHdr, sub := 5, code := .malformedContainer } }) ∧
      (v ≠ 0#64 → s.hdrLeft.toNat = 1 → exec (.decByte b) s = .next
        { buildTree { s with freq := setFreq s.freq s.hdrSym v, hdrStage := .done, hdrLeft := 0, hdrAcc := 0,
                             hdrPos := 0 } with phase := .decPayload }) ∧
      (v ≠ 0#64 → 1 < s.hdrLeft.toNat → ∃ t, exec (.decByte b) s = .next t ∧
        t.hdrLeft.toNat = s.hdrLeft.toNat - 1 ∧
        t = { s with freq := setFreq s.freq s.hdrSym v, hdrStage := .symbol, hdrLeft := t.hdrLeft, hdrAcc := 0,
                     hdrPos := 0 }))

/-- R218 (and R217): the bytes HDR_EMIT writes for a table F, given to a fresh decode pass with the same HDR_BE, raise no
error, and leave FREQ equal to F and the tree BuildTree makes of F; the pass is then in DEC_PAYLOAD. -/
def Obligations.HeaderFidelity : Prop :=
  ∀ (F : Vector Freq 256) (s : State), s.phase = .decHdr → s.hdrStage = .count → s.hdrPos = 0 → s.hdrAcc = 0 →
    (∀ b, freqAt s.freq b = 0#64) →
    ∃ t, runInstrs (decBytesOf (headerBytes (s.activeCtrl.getLsbD 0) (BitVec.ofNat 9 (distinctSymbols F)) F)) s =
        .next t ∧
      t.phase = .decPayload ∧ t.freq = F ∧ t.node = (buildTree { s with freq := F }).node ∧
      t.root = (buildTree { s with freq := F }).root ∧ t.code = (buildTree { s with freq := F }).code ∧
      t.total = (buildTree { s with freq := F }).total ∧ t.out = s.out ∧ t.errInfo = s.errInfo

/-- R219, R217: a header with any entries of distinct symbols and non-zero frequencies, in any order, is accepted on its
last byte, and FREQ holds its entries; two orders of the same entries end in states that differ in HDR_SYM at most. -/
def Obligations.HeaderEntryOrderDoesNotMatter : Prop :=
  ∀ (L L' : List (Byte × Freq)) (s : State), s.phase = .decHdr → s.hdrStage = .count → s.hdrPos = 0 → s.hdrAcc = 0 →
    (∀ b, freqAt s.freq b = 0#64) → (L.map Prod.fst).Nodup → (∀ p ∈ L, p.2 ≠ 0#64) → L.Perm L' →
    ∃ t t', runInstrs (decBytesOf (encInt (s.activeCtrl.getLsbD 0) 4 (BitVec.ofNat 64 L.length) ++
          L.flatMap fun p => p.1 :: encInt (s.activeCtrl.getLsbD 0) 8 p.2)) s = .next t ∧
      t.phase = .decPayload ∧ (∀ b, freqAt t.freq b = (L.lookup b).getD 0) ∧
      runInstrs (decBytesOf (encInt (s.activeCtrl.getLsbD 0) 4 (BitVec.ofNat 64 L'.length) ++
          L'.flatMap fun p => p.1 :: encInt (s.activeCtrl.getLsbD 0) 8 p.2)) s = .next t' ∧
      t' = { t with hdrSym := t'.hdrSym }

/-- R368: a header count of 1..256 written in one byte order and read in the other ends in MALFORMED_CONTAINER on its
fourth byte: SUB 1 for 128 ≤ c ≤ 255, SUB 2 otherwise; the count 0 is read as 0. -/
def Obligations.ByteOrderMismatchIsDetected : Prop :=
  ∀ (c : Nat) (s : State), c ≤ 256 → s.phase = .decHdr → s.hdrStage = .count → s.hdrPos = 0 → s.hdrAcc = 0 →
    ∃ t, runInstrs (decBytesOf (encInt (!s.activeCtrl.getLsbD 0) 4 (BitVec.ofNat 64 c))) s = .next t ∧
      (∃ u, runInstrs (decBytesOf ((encInt (!s.activeCtrl.getLsbD 0) 4 (BitVec.ofNat 64 c)).take 3)) s = .next u ∧
        u.phase = .decHdr) ∧
      (c = 0 → t.phase = .decPayload) ∧
      (1 ≤ c → t.phase = .error ∧ t.errInfo.code = .malformedContainer ∧ t.errInfo.opcode = 0x21#8 ∧
        t.errInfo.sub = if 128 ≤ c ∧ c ≤ 255 then 1 else 2)

/-! ## Bitstream writer (44_bitstream_writer.md) -/

/-- R240: PutBit shifts the bit in at the right; at the eighth bit the byte is emitted and the buffer is empty again;
nothing else changes. Eight bits into an empty buffer make one byte, the first of them its bit 7 and the eighth its
bit 0. -/
def Obligations.PutBitFillsTheBuffer : Prop :=
  (∀ (c : Bool) (s : State),
    (s.bitCnt.toNat < 7 → (putBit c s).bitCnt.toNat = s.bitCnt.toNat + 1 ∧
      (putBit c s).bitBuf.toNat = (2 * s.bitBuf.toNat + c.toNat) % 256 ∧
      putBit c s = { s with bitBuf := (putBit c s).bitBuf, bitCnt := (putBit c s).bitCnt }) ∧
    (s.bitCnt.toNat = 7 → ∃ y : Byte, y.toNat = (2 * s.bitBuf.toNat + c.toNat) % 256 ∧
      putBit c s = { s with out := s.out ++ [y], bitBuf := 0, bitCnt := 0 })) ∧
  (∀ (p : List Bool) (s : State), p.length = 8 → s.bitCnt = 0 →
    ∃ y : Byte, (∀ i, i < 8 → p[i]? = some (y.getLsbD (7 - i))) ∧
      putBits p s = { s with out := s.out ++ [y], bitBuf := 0, bitCnt := 0 })

/-- R241: ENCODE b in ENCODING appends exactly the bits of CODE[b] to the payload and counts one symbol; it emits
⌊(BITCNT + LEN) / 8⌋ bytes; nothing but OUT, BITBUF, BITCNT and ENC_COUNT changes; a symbol without a code raises
SYMBOL_NOT_IN_TREE with SUB = b. -/
def Obligations.EncodeAppendsTheCode : Prop :=
  ∀ (s : State) (b : Byte), s.phase = .encoding →
    ((codeAt s.code b).valid = true → ∃ t bs, exec (.encode b) s = .next t ∧
      bitStream t = bitStream s ++ codeOf (codeAt s.code b) ∧
      t.out = s.out ++ bs ∧ bs.length = (s.bitCnt.toNat + (codeAt s.code b).len.toNat) / 8 ∧
      t.bitCnt.toNat = (s.bitCnt.toNat + (codeAt s.code b).len.toNat) % 8 ∧
      t.encCount.toNat = min (s.encCount.toNat + 1) (2 ^ 72 - 1) ∧
      t = { s with out := t.out, bitBuf := t.bitBuf, bitCnt := t.bitCnt, encCount := t.encCount }) ∧
    ((codeAt s.code b).valid = false → exec (.encode b) s = .next
      { s with phase := .error, errInfo := { opcode := 0x13#8, phase := .encoding, sub := b, code := .symbolNotInTree } })

/-- R246: FLUSH in ENCODING emits the pending bits followed by zero bits to a whole byte, and nothing where none is
pending; the buffer is empty, ENC_MISMATCH says whether ENC_COUNT differs from TOTAL, PHASE is ENC_DONE, and nothing
else changes. -/
def Obligations.FlushPadsTheLastByte : Prop :=
  ∀ s : State, s.phase = .encoding →
    ∃ t bs, exec .flush s = .next t ∧ t.phase = .encDone ∧ t.out = s.out ++ bs ∧ t.bitCnt = 0 ∧
      bitsOfBytes bs = pendingBits s ++ List.replicate ((8 - s.bitCnt.toNat) % 8) false ∧
      (s.bitCnt ≠ 0 → t.bitBuf = 0) ∧
      t.flags = { s.flags with encMismatch := decide (s.encCount ≠ s.total) } ∧
      t = { s with phase := .encDone, out := t.out, bitBuf := t.bitBuf, bitCnt := t.bitCnt, flags := t.flags }

/-- R247: the ENCODE commands of a sequence of symbols with codes, from an empty buffer, and then FLUSH, emit ⌈len(P)/8⌉
bytes whose bits in stream order are the codes one after the other and then (8 − len(P) mod 8) mod 8 zero bits. -/
def Obligations.PayloadIsTheCodes : Prop :=
  ∀ (S : List Byte) (s : State), s.phase = .encoding → s.bitCnt = 0 → (∀ b ∈ S, (codeAt s.code b).valid = true) →
    ∃ t bs, runInstrs (encodesOf S ++ [.flush]) s = .next t ∧ t.out = s.out ++ bs ∧
      bs.length = ((S.flatMap fun b => codeOf (codeAt s.code b)).length + 7) / 8 ∧
      bitsOfBytes bs = (S.flatMap fun b => codeOf (codeAt s.code b)) ++
        List.replicate ((8 - (S.flatMap fun b => codeOf (codeAt s.code b)).length % 8) % 8) false

/-- R34: the counters saturate at 2^72 - 1 and never wrap. -/
def Obligations.CountersSaturate : Prop :=
  ∀ c : Weight, (satInc c).toNat = min (c.toNat + 1) (2 ^ 72 - 1)

/-! ## Decoder (45_decoder.md) -/

/-- R264: one bit of the walk. From an internal node the walker moves left for 0 and right for 1. At an internal child
it stays there. At a leaf it emits the symbol and counts it while OUT_COUNT < TOTAL; after that it sets OVERRUN, and it
emits and counts only with COMPAT_TAIL = 1; CURSOR is ROOT again. -/
def Obligations.WalkBitFollowsTheTree : Prop :=
  ∀ (c : Bool) (s : State) (e d : NodeEntry), nodeAt s.node s.cursor = some e →
    nodeAt s.node (if c then e.right else e.left) = some d →
    (d.internal = true → walkBit c s = some { s with cursor := if c then e.right else e.left }) ∧
    (d.internal = false → s.outCount.toNat < s.total.toNat →
      walkBit c s = some { s with out := s.out ++ [d.sym], outCount := s.outCount + 1, cursor := s.root }) ∧
    (d.internal = false → s.total.toNat ≤ s.outCount.toNat → s.activeCtrl.getLsbD 1 = true →
      ∃ n : Weight, n.toNat = min (s.outCount.toNat + 1) (2 ^ 72 - 1) ∧
        walkBit c s = some { s with out := s.out ++ [d.sym], outCount := n, cursor := s.root,
                                    flags := { s.flags with overrun := true } }) ∧
    (d.internal = false → s.total.toNat ≤ s.outCount.toNat → s.activeCtrl.getLsbD 1 = false →
      walkBit c s = some { s with cursor := s.root, flags := { s.flags with overrun := true } })

/-- R261, R263: DEC_BYTE b in DEC_PAYLOAD. With the empty tree it raises TRAVERSAL_ON_EMPTY_TREE, with a one-symbol tree
MALFORMED_CONTAINER SUB 6, before any bit. With an internal root, in a state that meets the invariant, it completes: the
walk of the bits b[7] to b[0], emitting at most 8 bytes, and nothing but CURSOR, OUT, OUT_COUNT and OVERRUN changes. -/
def Obligations.PayloadByteIsWalked : Prop :=
  ∀ (s : State) (b : Byte), s.phase = .decPayload →
    (s.root = Config.nilIndex → exec (.decByte b) s = .next
      { s with phase := .error,
               errInfo := { opcode := 0x21#8, phase := .decPayload, sub := 0, code := .traversalOnEmptyTree } }) ∧
    (∀ r, nodeAt s.node s.root = some r → r.internal = false → exec (.decByte b) s = .next
      { s with phase := .error,
               errInfo := { opcode := 0x21#8, phase := .decPayload, sub := 6, code := .malformedContainer } }) ∧
    (∀ r, nodeAt s.node s.root = some r → r.internal = true → Inv s →
      ∃ t bs, exec (.decByte b) s = .next t ∧
        walkBits [b.getLsbD 7, b.getLsbD 6, b.getLsbD 5, b.getLsbD 4, b.getLsbD 3, b.getLsbD 2, b.getLsbD 1,
          b.getLsbD 0] s = some t ∧
        t.out = s.out ++ bs ∧ bs.length ≤ 8 ∧
        t = { s with cursor := t.cursor, out := t.out, outCount := t.outCount,
                     flags := { s.flags with overrun := t.flags.overrun } })

/-- R264 with R190: in a state that meets the invariant, with an internal root and CURSOR at ROOT, the code of a symbol
walks to that symbol's leaf and does what R264 says of it, and CURSOR is at ROOT again. -/
def Obligations.CodeWalksToItsSymbol : Prop :=
  ∀ (s : State) (b : Byte) (r : NodeEntry), Inv s → nodeAt s.node s.root = some r → r.internal = true →
    s.cursor = s.root → (codeAt s.code b).valid = true →
    walkBits (codeOf (codeAt s.code b)) s = some { leafReached b s with cursor := s.root }

/-- R265: DEC_END. In DEC_HDR it raises MALFORMED_CONTAINER SUB 3. In DEC_PAYLOAD it completes: a one-symbol tree's symbol
is emitted TOTAL times and OUT_COUNT is TOTAL, any other tree emits nothing; TAIL_PARTIAL says whether CURSOR is not
ROOT, UNDERRUN whether OUT_COUNT < TOTAL; PHASE is DEC_DONE and nothing else changes. -/
def Obligations.DecEndClosesThePass : Prop :=
  ∀ s : State,
    (s.phase = .decHdr → exec .decEnd s = .next
      { s with phase := .error,
               errInfo := { opcode := 0x22#8, phase := .decHdr, sub := 3, code := .malformedContainer } }) ∧
    (s.phase = .decPayload → ∀ r, nodeAt s.node s.root = some r → r.internal = false →
      exec .decEnd s = .next
        { s with phase := .decDone, out := s.out ++ List.replicate s.total.toNat r.sym, outCount := s.total,
                 flags := { s.flags with tailPartial := decide (s.cursor ≠ s.root), underrun := false } }) ∧
    (s.phase = .decPayload → (s.root = Config.nilIndex ∨ ∃ r, nodeAt s.node s.root = some r ∧ r.internal = true) →
      exec .decEnd s = .next
        { s with phase := .decDone,
                 flags := { s.flags with tailPartial := decide (s.cursor ≠ s.root),
                                         underrun := decide (s.outCount.toNat < s.total.toNat) } })

/-! ## Output, phase, flags, register port, reset -/

/-- R75: whatever the next event but reset, the bytes of OUT stay and new bytes come after them; the host's drain takes
the front byte of the undrained output, and every register, table and flag, PHASE and OUT too, keeps its value; no other
event takes a byte. -/
def Obligations.OutputIsAppendOnly : Prop :=
  ∀ s t : State, step s = .next t → s.input.head? ≠ some .reset → s.drained ≤ s.out.length →
    (∃ bs, t.out = s.out ++ bs) ∧
    (s.input.head? = some .drain → t.pendingOut = s.pendingOut.tail ∧
      t = { s with drained := t.drained, input := s.input.tail }) ∧
    (s.input.head? ≠ some .drain → ∃ bs, t.pendingOut = s.pendingOut ++ bs)

/-- R23: PHASE changes only as the column "entered by" says, whatever the next event: each phase is entered only by its
own command word, from the phases that allow it, IDLE by CLEAR or reset, and ERROR by a command word, legal or not, with
its error entry. -/
def Obligations.PhaseIsEnteredOnlyByItsCommand : Prop :=
  ∀ s t : State, step s = .next t → t.phase ≠ s.phase →
    (match t.phase with
      | .idle => s.input.head? = some (.command 0x0100#16) ∨ s.input.head? = some .reset
      | .built => s.input.head? = some (.command 0x1100#16) ∧ s.phase = .idle
      | .encoding => s.input.head? = some (.command 0x1200#16) ∧ s.phase = .built
      | .encDone => s.input.head? = some (.command 0x1400#16) ∧ s.phase = .encoding
      | .decHdr => s.input.head? = some (.command 0x2000#16)
      | .decPayload => (∃ b : Byte, s.input.head? = some (.command (0x21#8 ++ b))) ∧ s.phase = .decHdr
      | .decDone => s.input.head? = some (.command 0x2200#16) ∧ s.phase = .decPayload
      | .error => ∃ w : CmdWord, s.input.head? = some (.command w) ∧ t.errInfo.code ≠ .none ∧
          t.errInfo.opcode = w.extractLsb' 8 8 ∧ t.errInfo.phase = s.phase)

/-- R41: no command reads a STATUS flag to decide what it does, nor to compute another flag. There is a set w of flags the
command writes: with any other flags f in the state it ends in the same state, where each flag of w has the value it
has without the change and each other flag keeps f's. -/
def Obligations.NoCommandReadsAFlag : Prop :=
  ∀ (i : Instr) (s t : State), exec i s = .next t →
    ∃ w : StatusFlags, ∀ f : StatusFlags, exec i { s with flags := f } = .next
      { t with
        flags :=
          { treeValid := if w.treeValid then t.flags.treeValid else f.treeValid
            treeEmpty := if w.treeEmpty then t.flags.treeEmpty else f.treeEmpty
            degenerate := if w.degenerate then t.flags.degenerate else f.degenerate
            overrun := if w.overrun then t.flags.overrun else f.overrun
            underrun := if w.underrun then t.flags.underrun else f.underrun
            tailPartial := if w.tailPartial then t.flags.tailPartial else f.tailPartial
            encMismatch := if w.encMismatch then t.flags.encMismatch else f.encMismatch } }

/-- R26 with R23: STATUS shows PHASE in bits 2:0, by its number 0 to 7, ERR in bit 3 exactly in ERROR, the seven flags in
bits 10:4, and 0 above. -/
def Obligations.StatusRegisterLayout : Prop :=
  ∀ s : State,
    (memRead s 0x0003#16).extractLsb' 0 3 = s.phase.bits ∧
    s.phase.bits = (match s.phase with
      | .idle => 0#3
      | .built => 1#3
      | .encoding => 2#3
      | .encDone => 3#3
      | .decHdr => 4#3
      | .decPayload => 5#3
      | .decDone => 6#3
      | .error => 7#3) ∧
    ((memRead s 0x0003#16).getLsbD 3 = true ↔ s.phase = .error) ∧
    (memRead s 0x0003#16).getLsbD 4 = s.flags.treeValid ∧ (memRead s 0x0003#16).getLsbD 5 = s.flags.treeEmpty ∧
    (memRead s 0x0003#16).getLsbD 6 = s.flags.degenerate ∧ (memRead s 0x0003#16).getLsbD 7 = s.flags.overrun ∧
    (memRead s 0x0003#16).getLsbD 8 = s.flags.underrun ∧ (memRead s 0x0003#16).getLsbD 9 = s.flags.tailPartial ∧
    (memRead s 0x0003#16).getLsbD 10 = s.flags.encMismatch ∧ (memRead s 0x0003#16).extractLsb' 11 21 = 0#21

/-- R24, R25, R27 to R35 with R74: the words of the other registers below 0x0100, in every state, field by field; a bit of
no field reads 0, and a value of several words shows its least significant word at the lowest address. -/
def Obligations.RegisterWordLayout : Prop :=
  ∀ s : State,
    memRead s 0x0000#16 = 0x48430001#32 ∧
    ((memRead s 0x0001#16).extractLsb' 0 2 = s.ctrl ∧ (memRead s 0x0001#16).extractLsb' 2 30 = 0#30) ∧
    ((memRead s 0x0002#16).extractLsb' 0 2 = s.activeCtrl ∧ (memRead s 0x0002#16).extractLsb' 2 30 = 0#30) ∧
    ((memRead s 0x0004#16).extractLsb' 0 8 = s.errInfo.code.bits ∧ (memRead s 0x0004#16).extractLsb' 8 8 = s.errInfo.sub ∧
      (memRead s 0x0004#16).extractLsb' 16 3 = s.errInfo.phase.bits ∧ (memRead s 0x0004#16).extractLsb' 19 5 = 0#5 ∧
      (memRead s 0x0004#16).extractLsb' 24 8 = s.errInfo.opcode) ∧
    ((memRead s 0x0005#16).extractLsb' 0 9 = s.nsym ∧ (memRead s 0x0005#16).extractLsb' 9 23 = 0#23) ∧
    ((memRead s 0x0006#16).extractLsb' 0 9 = s.root ∧ (memRead s 0x0006#16).extractLsb' 9 23 = 0#23) ∧
    ((memRead s 0x0007#16).extractLsb' 0 9 = s.cursor ∧ (memRead s 0x0007#16).extractLsb' 9 23 = 0#23) ∧
    ((memRead s 0x0008#16).extractLsb' 0 8 = s.bitBuf ∧ (memRead s 0x0008#16).extractLsb' 8 3 = s.bitCnt ∧
      (memRead s 0x0008#16).extractLsb' 11 21 = 0#21) ∧
    ((memRead s 0x0009#16).extractLsb' 0 2 = (match s.hdrStage with
        | .count => 0#2
        | .symbol => 1#2
        | .frequency => 2#2
        | .done => 3#2) ∧
      (memRead s 0x0009#16).extractLsb' 2 2 = 0#2 ∧ (memRead s 0x0009#16).extractLsb' 4 4 = s.hdrPos ∧
      (memRead s 0x0009#16).extractLsb' 8 8 = 0#8 ∧ (memRead s 0x0009#16).extractLsb' 16 9 = s.hdrLeft ∧
      (memRead s 0x0009#16).extractLsb' 25 7 = 0#7) ∧
    ((memRead s 0x000A#16).extractLsb' 0 8 = s.hdrSym ∧ (memRead s 0x000A#16).extractLsb' 8 24 = 0#24) ∧
    memRead s 0x000C#16 ++ memRead s 0x000B#16 = s.hdrAcc ∧
    ((memRead s 0x0012#16).extractLsb' 0 8 ++ memRead s 0x0011#16 ++ memRead s 0x0010#16 = s.total ∧
      (memRead s 0x0012#16).extractLsb' 8 24 = 0#24) ∧
    ((memRead s 0x0015#16).extractLsb' 0 8 ++ memRead s 0x0014#16 ++ memRead s 0x0013#16 = s.encCount ∧
      (memRead s 0x0015#16).extractLsb' 8 24 = 0#24) ∧
    ((memRead s 0x0018#16).extractLsb' 0 8 ++ memRead s 0x0017#16 ++ memRead s 0x0016#16 = s.outCount ∧
      (memRead s 0x0018#16).extractLsb' 8 24 = 0#24)

/-- R28, R84, R85: the port's data at any read instant t. While no command word is queued a read gives the word of the
state; ID reads its constant in every state, queued words or not. That R28 is taken before R85 for ID is the model's
choice (log entry 2), and so is the host's event list (log entry 1). -/
def Obligations.PortReads : Prop :=
  ∀ (s : State) (t : Nat),
    ((∀ w, HostInput.command w ∉ s.input) → ∀ a : CsrAddr, portRead s t a = memRead s a) ∧
    portRead s t 0x0000#16 = 0x48430001#32

/-- R81 with the map of R80: a reserved address reads 0 in every state, and so does every word of an unused node.
That no reserved address shows OUT is the model's choice (log entry 12, R80 and R81 taken before R42 and R313). -/
def Obligations.ReservedAddressesReadZero : Prop :=
  (∀ (s : State) (a : CsrAddr),
    ((0x000D ≤ a.toNat ∧ a.toNat ≤ 0x000F) ∨ (0x0019 ≤ a.toNat ∧ a.toNat ≤ 0x00FF) ∨
      (0x0C00 ≤ a.toNat ∧ a.toNat ≤ 0x0FFF) ∨ 0x1FF8 ≤ a.toNat) → memRead s a = 0#32) ∧
  (∀ (s : State) (n : NodeIndex) (e : NodeEntry) (j : Nat), j < 8 → nodeAt s.node n = some e → e.used = false →
    memRead s (BitVec.ofNat 16 (0x1000 + 8 * n.toNat + j)) = 0#32)

/-- R80, R39, R37: the three table windows: FREQ low word first, CODE_LEN with VALID in bit 31, CODE_BITS with code bit j
in word j div 32 at position 31 - (j mod 32), and the eight words of a used node, the last three 0. -/
def Obligations.TableWindows : Prop :=
  ∀ s : State,
    (∀ b : Byte, memRead s (BitVec.ofNat 16 (0x0101 + 2 * b.toNat)) ++ memRead s (BitVec.ofNat 16 (0x0100 + 2 * b.toNat)) =
      freqAt s.freq b) ∧
    (∀ b : Byte, memRead s (BitVec.ofNat 16 (0x0300 + b.toNat)) =
      BitVec.ofBool (codeAt s.code b).valid ++ 0#22 ++ (codeAt s.code b).len) ∧
    (∀ (b : Byte) (j : Nat), j < 256 →
      (memRead s (BitVec.ofNat 16 (0x0400 + 8 * b.toNat + j / 32))).getLsbD (31 - j % 32) =
        codeBit (codeAt s.code b) j) ∧
    (∀ (n : NodeIndex) (e : NodeEntry), nodeAt s.node n = some e → e.used = true →
      memRead s (BitVec.ofNat 16 (0x1000 + 8 * n.toNat)) = 1#1 ++ BitVec.ofBool e.internal ++ 0#22 ++ e.sym ∧
      memRead s (BitVec.ofNat 16 (0x1001 + 8 * n.toNat)) = 0#7 ++ e.right ++ 0#7 ++ e.left ∧
      (memRead s (BitVec.ofNat 16 (0x1004 + 8 * n.toNat))).extractLsb' 0 8 ++
          memRead s (BitVec.ofNat 16 (0x1003 + 8 * n.toNat)) ++ memRead s (BitVec.ofNat 16 (0x1002 + 8 * n.toNat)) =
        e.weight ∧
      (memRead s (BitVec.ofNat 16 (0x1004 + 8 * n.toNat))).extractLsb' 8 24 = 0#24 ∧
      memRead s (BitVec.ofNat 16 (0x1005 + 8 * n.toNat)) = 0#32 ∧
      memRead s (BitVec.ofNat 16 (0x1006 + 8 * n.toNat)) = 0#32 ∧
      memRead s (BitVec.ofNat 16 (0x1007 + 8 * n.toNat)) = 0#32)

/-- R43, R340, R81: a reset event leads from every state to the reset state, keeping only the words not yet accepted; there
the register port reads the ID, NIL in ROOT and CURSOR, and 0 at every other address, every field of every node is 0, and OUT is empty.
That no address shows OUT is the model's choice (log entry 12). -/
def Obligations.ResetState : Prop :=
  (∀ (s : State) (rest : List HostInput), s.input = .reset :: rest →
    step s = .next { State.reset with input := rest }) ∧
  (∀ a : CsrAddr, memRead State.reset a =
    if a = 0x0000#16 then 0x48430001#32 else if a = 0x0006#16 ∨ a = 0x0007#16 then 0x1FF#32 else 0#32) ∧
  (∀ n e, nodeAt State.reset.node n = some e → e = NodeEntry.zero) ∧
  State.reset.out = [] ∧ State.reset.phase = .idle

/-! ## Invariant and headline results -/

/-- The invariant holds after reset. -/
def Obligations.ResetMeetsTheInvariant : Prop := Inv State.reset

/-- Every step from a state that meets the invariant ends in one that meets it: the bit buffer fits its count (R32), the
header parser's registers are in range (R35), the tree, code and total are those of FREQ (R177, R192), CURSOR stands
where the walk can go on (R31, R38), ERRINFO and PHASE agree (R301, R307), and strict mode emits at most TOTAL (R24). -/
def Obligations.StepKeepsTheInvariant : Prop :=
  ∀ s t : State, Inv s → step s = .next t → Inv t

/-- R10: no command word makes the engine hang: from a state that meets the invariant every step, whatever the host
sends, ends in a next state; so the walk never reaches NIL (R264). -/
def Obligations.NoWordStopsTheEngine : Prop :=
  ∀ s : State, Inv s → ∃ t, step s = .next t

/-- R267 with R264: in a state that meets the invariant, with an internal root, CURSOR at ROOT and every counted symbol
out, there is a symbol whose code is z ≥ 1 zero bits, and no other code is all zeros; p zero bits of padding leave CURSOR
at ROOT exactly when z divides p, set OVERRUN exactly when p reaches z, and emit that symbol ⌊p / z⌋ times with
COMPAT_TAIL = 1 and nothing with COMPAT_TAIL = 0. -/
def Obligations.PaddingTracesTheLeftmostLeaf : Prop :=
  ∀ (s : State) (r : NodeEntry), Inv s → nodeAt s.node s.root = some r → r.internal = true → s.cursor = s.root →
    s.total.toNat ≤ s.outCount.toNat →
    ∃ (b : Byte) (z : Nat), 0 < z ∧ (codeAt s.code b).valid = true ∧
      codeOf (codeAt s.code b) = List.replicate z false ∧
      (∀ (a : Byte) (n : Nat), (codeAt s.code a).valid = true → codeOf (codeAt s.code a) = List.replicate n false →
        a = b) ∧
      ∀ p, p ≤ 7 → ∃ t, walkBits (List.replicate p false) s = some t ∧
        (t.cursor = t.root ↔ p % z = 0) ∧
        t.flags = { s.flags with overrun := s.flags.overrun || decide (z ≤ p) } ∧
        t.out = s.out ++ (if s.activeCtrl.getLsbD 1 then List.replicate (p / z) b else [])

/-- R266: an encode pass of any byte string with fewer than 2^64 copies of any byte, from any state with
CTRL.HDR_BE = h, and then a decode pass of the container C it emitted, from any state with CTRL.HDR_BE = h and
CTRL.COMPAT_TAIL = 0, raise no error; the decode pass emits exactly the string and ends in DEC_DONE with UNDERRUN = 0.
TAIL_PARTIAL is 1 exactly when p mod z is not 0, p the padding bits of the payload and z the length of the all-zero code
(R267); without such a code (one symbol or none) it is 0. -/
def Obligations.RoundTrip : Prop :=
  ∀ (S : List Byte) (s u : State), (∀ b, S.count b < 2 ^ 64) → u.ctrl.getLsbD 0 = s.ctrl.getLsbD 0 →
    u.ctrl.getLsbD 1 = false →
    ∃ t C v, runInstrs (encodePass S) s = .next t ∧ t.out = s.out ++ C ∧ t.phase = .encDone ∧
      t.flags.encMismatch = false ∧ t.errInfo = ErrInfo.zero ∧
      runInstrs (decodePass C) u = .next v ∧ v.out = u.out ++ S ∧ v.phase = .decDone ∧ v.flags.underrun = false ∧
      v.errInfo = ErrInfo.zero ∧
      (∀ (b : Byte) (z : Nat), 0 < z → b ∈ S → codeOf (codeAt t.code b) = List.replicate z false →
        (v.flags.tailPartial = true ↔
          ((8 - (S.flatMap fun a => codeOf (codeAt t.code a)).length % 8) % 8) % z ≠ 0)) ∧
      ((∀ a b, a ∈ S → b ∈ S → a = b) → v.flags.tailPartial = false)

/-- R267: the same two passes with either tail mode. With two symbols or more there is exactly one symbol b whose code
is all zeros, of length z ≥ 1; with p padding bits and m = ⌊p / z⌋, the decode pass emits the string and then, with
COMPAT_TAIL = 1, b another m times; OVERRUN is 1 exactly when m ≥ 1 and TAIL_PARTIAL exactly when p mod z is not 0. With
one symbol or none nothing is added and both flags are 0. -/
def Obligations.CompatibleTailRoundTrip : Prop :=
  ∀ (S : List Byte) (s u : State), (∀ b, S.count b < 2 ^ 64) → u.ctrl.getLsbD 0 = s.ctrl.getLsbD 0 →
    ∃ t C v, runInstrs (encodePass S) s = .next t ∧ t.out = s.out ++ C ∧
      runInstrs (decodePass C) u = .next v ∧ v.phase = .decDone ∧ v.errInfo = ErrInfo.zero ∧
      ((∃ a b, a ∈ S ∧ b ∈ S ∧ a ≠ b) →
        ∃ (b : Byte) (z p : Nat), 0 < z ∧ b ∈ S ∧ codeOf (codeAt t.code b) = List.replicate z false ∧
          (∀ (a : Byte) (n : Nat), a ∈ S → codeOf (codeAt t.code a) = List.replicate n false → a = b) ∧
          p = (8 - (S.flatMap fun a => codeOf (codeAt t.code a)).length % 8) % 8 ∧ p / z ≤ 7 ∧
          v.out = u.out ++ S ++ (if u.ctrl.getLsbD 1 then List.replicate (p / z) b else []) ∧
          (v.flags.overrun = true ↔ 1 ≤ p / z) ∧ (v.flags.tailPartial = true ↔ p % z ≠ 0)) ∧
      ((∀ a b, a ∈ S → b ∈ S → a = b) →
        v.out = u.out ++ S ∧ v.flags.overrun = false ∧ v.flags.tailPartial = false)
end

