-- ==== Sys2Proof/Laws/Heap.lean ====
section
/-!
SUPPORT. The priority queue holds the same nodes before and after: its operations only move them (42_tree_builder.md
R173, R174).
-/

namespace Sys2Proof.Machine

theorem heapAt_eq_getElem (h : List NodeIndex) (i : Nat) (hi : i < h.length) : heapAt h i = h[i] := by
  simp [heapAt, hi]

theorem heapSwap_perm (h : List NodeIndex) (i j : Nat) (hi : i < h.length) (hj : j < h.length) :
    (heapSwap h i j).Perm h := by
  unfold heapSwap
  rw [heapAt_eq_getElem h i hi, heapAt_eq_getElem h j hj]
  exact List.set_set_perm hi hj

theorem siftUp_perm (less : NodeIndex → NodeIndex → Bool) (fuel i : Nat) (h : List NodeIndex) (hi : i < h.length) :
    (siftUp less fuel i h).Perm h := by
  induction fuel generalizing i h with
  | zero => exact .refl _
  | succ fuel ih =>
    unfold siftUp
    split
    · have hj : (i - 1) / 2 < h.length := by omega
      have hs := heapSwap_perm h i ((i - 1) / 2) hi hj
      exact (ih _ _ (by rw [hs.length_eq]; exact hj)).trans hs
    · exact .refl _

/-- PQ_Insert(n) puts n into the queue and takes nothing out (R173). -/
theorem pqInsert_perm (less : NodeIndex → NodeIndex → Bool) (h : List NodeIndex) (n : NodeIndex) :
    (pqInsert less h n).Perm (n :: h) :=
  (siftUp_perm less h.length h.length (h ++ [n]) (by simp)).trans (List.perm_append_singleton n h)

theorem smallerOf_lt (less : NodeIndex → NodeIndex → Bool) (h : List NodeIndex) (j m : Nat) (hm : m < h.length) :
    smallerOf less h j m < h.length := by
  unfold smallerOf
  split
  · omega
  · exact hm

theorem leastOf_lt (less : NodeIndex → NodeIndex → Bool) (h : List NodeIndex) (i : Nat) (hi : i < h.length) :
    leastOf less h i < h.length :=
  smallerOf_lt less h _ _ (smallerOf_lt less h _ _ hi)

theorem siftDown_perm (less : NodeIndex → NodeIndex → Bool) (fuel i : Nat) (h : List NodeIndex) (hi : i < h.length) :
    (siftDown less fuel i h).Perm h := by
  induction fuel generalizing i h with
  | zero => exact .refl _
  | succ fuel ih =>
    unfold siftDown
    split
    · exact .refl _
    · have hj := leastOf_lt less h i hi
      have hs := heapSwap_perm h i (leastOf less h i) hi hj
      exact (ih _ _ (by rw [hs.length_eq]; exact hj)).trans hs

/-- PQ_ExtractMin() takes the front of the queue and leaves the other nodes in it (R174). -/
theorem pqExtractMin_perm (less : NodeIndex → NodeIndex → Bool) (h h' : List NodeIndex) (r : NodeIndex)
    (hx : pqExtractMin less h = some (r, h')) : h.Perm (r :: h') := by
  cases h with
  | nil => simp [pqExtractMin] at hx
  | cons a rest =>
    simp only [pqExtractMin] at hx
    split at hx
    · next hl =>
      simp only [Option.some.injEq, Prod.mk.injEq] at hx
      rw [List.getLast?_eq_none_iff.mp hl, hx.1, hx.2.symm]
    · next l hl =>
      simp only [Option.some.injEq, Prod.mk.injEq] at hx
      obtain ⟨ys, hys⟩ := List.getLast?_eq_some_iff.mp hl
      rw [← hx.1, ← hx.2, hys]
      refine List.Perm.cons _ ?_
      have hp := siftDown_perm less (ys ++ [l]).length 0 (l :: (ys ++ [l]).dropLast) (by simp)
      simp only [List.dropLast_concat] at hp ⊢
      exact (List.perm_append_singleton l ys).trans hp.symm

/-- PQ_ExtractMin() answers `none` only on an empty queue (R174). -/
theorem pqExtractMin_none_iff (less : NodeIndex → NodeIndex → Bool) (h : List NodeIndex) :
    pqExtractMin less h = none ↔ h = [] := by
  cases h with
  | nil => simp [pqExtractMin]
  | cons a rest =>
    simp only [pqExtractMin]
    split <;> simp

/-- A queue that is not empty gives a node and a queue that is shorter by one (R174). -/
theorem pqExtractMin_length (less : NodeIndex → NodeIndex → Bool) (h h' : List NodeIndex) (r : NodeIndex)
    (hx : pqExtractMin less h = some (r, h')) : h.length = h'.length + 1 :=
  (pqExtractMin_perm less h h' r hx).length_eq

end Sys2Proof.Machine
end

