-- ==== Sys2Proof/Laws/Tables.lean ====
section
/-!
SUPPORT. Read after write for the three tables, and the list of all symbols.
-/

namespace Sys2Proof.Machine

theorem symbolIndex_inj (a b : Byte) : (symbolIndex a).val = (symbolIndex b).val ↔ a = b := by
  simp [symbolIndex, BitVec.toNat_inj]

@[simp] theorem freqAt_setFreq_self (t : Vector Freq 256) (b : Byte) (v : Freq) : freqAt (setFreq t b v) b = v := by
  simp [freqAt, setFreq, Vector.get_eq_getElem]

theorem freqAt_setFreq_ne (t : Vector Freq 256) (a b : Byte) (v : Freq) (h : a ≠ b) :
    freqAt (setFreq t b v) a = freqAt t a := by
  have hi : (symbolIndex b).val ≠ (symbolIndex a).val := fun e => h ((symbolIndex_inj a b).mp e.symm)
  simp only [freqAt, setFreq, Vector.get_eq_getElem]
  rw [Vector.getElem_set_ne _ _ hi]

theorem freqAt_setFreq (t : Vector Freq 256) (a b : Byte) (v : Freq) :
    freqAt (setFreq t b v) a = if a = b then v else freqAt t a := by
  split
  · next h => rw [h, freqAt_setFreq_self]
  · next h => exact freqAt_setFreq_ne t a b v h

@[simp] theorem freqAt_replicate (b : Byte) (v : Freq) : freqAt (Vector.replicate 256 v) b = v := by
  simp [freqAt, Vector.get_eq_getElem]

/-- Two frequency tables that agree on every symbol are equal. -/
theorem freq_ext (t u : Vector Freq 256) (h : ∀ b, freqAt t b = freqAt u b) : t = u := by
  apply Vector.ext
  intro i hi
  have := h (BitVec.ofNat 8 i)
  simp only [freqAt, symbolIndex, Vector.get_eq_getElem, BitVec.toNat_ofNat] at this
  have hm : i % 2 ^ 8 = i := Nat.mod_eq_of_lt hi
  simpa only [hm] using this

@[simp] theorem codeAt_setCode_self (t : Vector CodeEntry 256) (b : Byte) (e : CodeEntry) :
    codeAt (setCode t b e) b = e := by
  simp [codeAt, setCode, Vector.get_eq_getElem]

theorem codeAt_setCode_ne (t : Vector CodeEntry 256) (a b : Byte) (e : CodeEntry) (h : a ≠ b) :
    codeAt (setCode t b e) a = codeAt t a := by
  have hi : (symbolIndex b).val ≠ (symbolIndex a).val := fun e => h ((symbolIndex_inj a b).mp e.symm)
  simp only [codeAt, setCode, Vector.get_eq_getElem]
  rw [Vector.getElem_set_ne _ _ hi]

@[simp] theorem codeAt_replicate (b : Byte) (e : CodeEntry) : codeAt (Vector.replicate 256 e) b = e := by
  simp [codeAt, Vector.get_eq_getElem]

/-- NIL is the one index without an entry (00_scope.md R7, 10_state.md R37). -/
theorem nodeAt_eq_none_iff (t : Vector NodeEntry 511) (n : NodeIndex) : nodeAt t n = none ↔ n = Config.nilIndex := by
  unfold nodeAt Config.nilIndex
  rw [Vector.getElem?_eq_none_iff]
  constructor
  · intro h
    apply BitVec.eq_of_toNat_eq
    have := n.isLt
    simp only [BitVec.toNat_ofNat]
    omega
  · rintro rfl
    decide

theorem toNat_lt_of_ne_nil (n : NodeIndex) (h : n ≠ Config.nilIndex) : n.toNat < 511 := by
  have := n.isLt
  by_contra hn
  apply h
  apply BitVec.eq_of_toNat_eq
  simp only [Config.nilIndex, BitVec.toNat_ofNat]
  omega

theorem ne_nil_of_toNat_lt (n : NodeIndex) (h : n.toNat < 511) : n ≠ Config.nilIndex := by
  rintro rfl
  simp [Config.nilIndex] at h

theorem nodeAt_setNode (t : Vector NodeEntry 511) (n m : NodeIndex) (e : NodeEntry) (hn : n ≠ Config.nilIndex) :
    nodeAt (setNode t n e) m = if n = m then some e else nodeAt t m := by
  have hl := toNat_lt_of_ne_nil n hn
  simp only [nodeAt, setNode, Vector.getElem?_setIfInBounds, hl, if_true, BitVec.toNat_inj]

theorem nodeAt_replicate_zero (n : NodeIndex) (h : n ≠ Config.nilIndex) :
    nodeAt (Vector.replicate 511 NodeEntry.zero) n = some NodeEntry.zero := by
  have hl := toNat_lt_of_ne_nil n h
  simp [nodeAt, hl]

theorem mem_allSymbols (b : Byte) : b ∈ allSymbols :=
  List.mem_map.mpr ⟨b.toNat, List.mem_range.mpr b.isLt, by simp⟩

/-- `for s in 0..255` goes up (00_scope.md R15). -/
theorem allSymbols_ascending : allSymbols.Pairwise (· < ·) := by
  unfold allSymbols
  rw [List.pairwise_map]
  refine List.Pairwise.imp_of_mem ?_ (List.pairwise_lt_range (n := 256))
  intro a b ha hb hab
  rw [List.mem_range] at ha hb
  rw [BitVec.lt_def, BitVec.toNat_ofNat, BitVec.toNat_ofNat]
  omega

@[simp] theorem allSymbols_length : allSymbols.length = 256 := by simp [allSymbols]

end Sys2Proof.Machine
end

