-- ==== Sys2Proof/Laws/Arena.lean ====
section
/-!
SUPPORT. What BuildTree makes of the arena (42_tree_builder.md R177): the invariant of its two loops, and from it the
arena invariant of 10_state.md R38 at its end.
-/

namespace Sys2Proof.Machine

/-- The invariant of BuildTree's loops with k leaves made so far; during the merges k stays. -/
structure BuildOk (b : TreeBuild) (k : Nat) : Prop where
  leaves_le : k ≤ 256
  leaves_le_idx : k ≤ b.idx
  size : b.heap.length + b.idx = 2 * k
  queued : 0 < k → 0 < b.heap.length
  nodup : b.heap.Nodup
  heap_lt : ∀ n ∈ b.heap, n.toNat < b.idx
  leaf : ∀ n : NodeIndex, n.toNat < k → ∃ e, nodeAt b.node n = some e ∧ e.used = true ∧ e.internal = false ∧
    e.left = Config.nilIndex ∧ e.right = Config.nilIndex
  ascending : ∀ m n : NodeIndex, m < n → n.toNat < k → ∀ d e, nodeAt b.node m = some d → nodeAt b.node n = some e →
    d.sym < e.sym
  inner : ∀ n : NodeIndex, k ≤ n.toNat → n.toNat < b.idx → ∃ e, nodeAt b.node n = some e ∧ e.used = true ∧
    e.internal = true ∧ e.sym = 0 ∧ e.left < n ∧ e.right < n ∧ e.left ≠ e.right
  orphan : ∀ n ∈ b.heap, ∀ q, ¬IsChild b.node q n
  parent : ∀ n : NodeIndex, n.toNat < b.idx → n ∉ b.heap → ∃ p, IsChild b.node p n ∧ ∀ q, IsChild b.node q n → q = p
  unused : ∀ n : NodeIndex, b.idx ≤ n.toNat → n ≠ Config.nilIndex → nodeAt b.node n = some NodeEntry.zero

theorem BuildOk.idx_le {b : TreeBuild} {k : Nat} (h : BuildOk b k) : b.idx ≤ 511 := by
  have h1 := h.size
  have h2 := h.queued
  have h3 := h.leaves_le
  omega

/-- A child's index is below its parent's, and the parent is one of the nodes made so far. -/
theorem BuildOk.child_lt {b : TreeBuild} {k : Nat} (h : BuildOk b k) {q n : NodeIndex} (hc : IsChild b.node q n) :
    n < q ∧ q.toNat < b.idx := by
  obtain ⟨e, he, hi, hlr⟩ := hc
  have hq : q.toNat < b.idx := by
    by_contra hge
    have hz := h.unused q (by omega) (fun hn => by rw [(nodeAt_eq_none_iff _ _).mpr hn] at he; cases he)
    rw [hz] at he
    cases he
    cases hi
  have hk : k ≤ q.toNat := by
    by_contra hlt
    obtain ⟨d, hd, -, hd', -⟩ := h.leaf q (by omega)
    rw [hd] at he
    cases he
    rw [hd'] at hi
    cases hi
  obtain ⟨d, hd, -, -, -, hl, hr, -⟩ := h.inner q hk hq
  rw [hd] at he
  cases he
  rcases hlr with rfl | rfl
  · exact ⟨hl, hq⟩
  · exact ⟨hr, hq⟩

/-- The index BuildTree writes next, as a node index. -/
theorem idx_toNat (i : Nat) (hi : i < 511) : (BitVec.ofNat 9 i).toNat = i := by
  rw [BitVec.toNat_ofNat]
  exact Nat.mod_eq_of_lt (by omega)

theorem push_nodeAt (b : TreeBuild) (e : NodeEntry) (rest : List NodeIndex) (m : NodeIndex) (hb : b.idx < 511) :
    nodeAt (b.push e rest).node m = if m.toNat = b.idx then some e else nodeAt b.node m := by
  have hn : BitVec.ofNat 9 b.idx ≠ Config.nilIndex := ne_nil_of_toNat_lt _ (by rw [idx_toNat _ hb]; exact hb)
  simp only [TreeBuild.push]
  rw [nodeAt_setNode _ _ _ _ hn]
  have hiff : (BitVec.ofNat 9 b.idx = m) ↔ m.toNat = b.idx := by
    rw [← BitVec.toNat_inj, idx_toNat _ hb]
    exact eq_comm
  simp only [hiff]

theorem push_heap_perm (b : TreeBuild) (e : NodeEntry) (rest : List NodeIndex) :
    (b.push e rest).heap.Perm (BitVec.ofNat 9 b.idx :: rest) :=
  pqInsert_perm _ _ _

@[simp] theorem push_idx (b : TreeBuild) (e : NodeEntry) (rest : List NodeIndex) : (b.push e rest).idx = b.idx + 1 := rfl

theorem push_isChild_leaf (b : TreeBuild) (e : NodeEntry) (rest : List NodeIndex) (hb : b.idx < 511)
    (he : e.internal = false) (q n : NodeIndex) (hc : IsChild (b.push e rest).node q n) : IsChild b.node q n := by
  obtain ⟨d, hd, hi, hlr⟩ := hc
  rw [push_nodeAt b e rest q hb] at hd
  split at hd
  · cases hd
    rw [he] at hi
    cases hi
  · exact ⟨d, hd, hi, hlr⟩

theorem isChild_push (b : TreeBuild) (e : NodeEntry) (rest : List NodeIndex) (hb : b.idx < 511) (q n : NodeIndex)
    (hq : q.toNat ≠ b.idx) (hc : IsChild b.node q n) : IsChild (b.push e rest).node q n := by
  obtain ⟨d, hd, hi, hlr⟩ := hc
  exact ⟨d, by rw [push_nodeAt b e rest q hb, if_neg hq]; exact hd, hi, hlr⟩

/-- The start of BuildTree: no leaf yet. -/
theorem buildOk_start : BuildOk TreeBuild.start 0 := by
  constructor <;> simp [TreeBuild.start]
  · intro n hn
    exact nodeAt_replicate_zero n hn

/-- A leaf keeps the invariant, if its symbol is above those of the leaves made so far (R172, R177). -/
theorem buildOk_push_leaf {b : TreeBuild} {k : Nat} (h : BuildOk b k) (hidx : b.idx = k) (hk : k < 256) (s : Byte)
    (w : Freq) (hs : ∀ n : NodeIndex, n.toNat < k → ∀ d, nodeAt b.node n = some d → d.sym < s) :
    BuildOk (b.push (leafEntry s w) b.heap) (k + 1) := by
  have hb : b.idx < 511 := by omega
  have hN : (BitVec.ofNat 9 b.idx).toNat = b.idx := idx_toNat _ hb
  have hperm := push_heap_perm b (leafEntry s w) b.heap
  have hnode := fun m => push_nodeAt b (leafEntry s w) b.heap m hb
  have hleaf : (leafEntry s w).internal = false := rfl
  have hnot : BitVec.ofNat 9 b.idx ∉ b.heap := fun hm => by
    have := h.heap_lt _ hm
    omega
  refine
    { leaves_le := by omega
      leaves_le_idx := by simp only [push_idx]; omega
      size := by
        have := hperm.length_eq
        have := h.size
        simp only [List.length_cons, push_idx] at *
        omega
      queued := fun _ => by
        rw [hperm.length_eq]
        simp
      nodup := hperm.nodup_iff.mpr (List.nodup_cons.mpr ⟨hnot, h.nodup⟩)
      heap_lt := fun n hn => by
        have hm := hperm.mem_iff.mp hn
        rcases List.mem_cons.mp hm with rfl | hm
        · simp only [hN, push_idx]
          omega
        · have := h.heap_lt n hm
          simp only [push_idx]
          omega
      leaf := fun n hn => by
        rw [hnode]
        split
        · exact ⟨_, rfl, rfl, rfl, rfl, rfl⟩
        · exact h.leaf n (by omega)
      ascending := fun m n hmn hn d e hd he => by
        rw [hnode] at hd he
        rw [BitVec.lt_def] at hmn
        rw [if_neg (by omega)] at hd
        split at he
        · cases he
          exact hs m (by omega) d hd
        · exact h.ascending m n (BitVec.lt_def.mpr hmn) (by omega) d e hd he
      inner := fun n h1 h2 => by
        simp only [push_idx] at h2
        omega
      orphan := fun n hn q hc => by
        have hc' := push_isChild_leaf b _ b.heap hb hleaf q n hc
        have hm := hperm.mem_iff.mp hn
        rcases List.mem_cons.mp hm with rfl | hm
        · have := h.child_lt hc'
          rw [BitVec.lt_def, hN] at this
          omega
        · exact h.orphan n hm q hc'
      parent := fun n hn hnm => by
        have hm : n ∉ BitVec.ofNat 9 b.idx :: b.heap := fun x => hnm (hperm.mem_iff.mpr x)
        rw [List.mem_cons, not_or] at hm
        have hne : n.toNat ≠ b.idx := fun x => hm.1 (by rw [← BitVec.toNat_inj, hN]; exact x)
        simp only [push_idx] at hn
        obtain ⟨p, hp, hu⟩ := h.parent n (by omega) hm.2
        have hpl := (h.child_lt hp).2
        exact ⟨p, isChild_push b _ b.heap hb p n (by omega) hp,
          fun q hq => hu q (push_isChild_leaf b _ b.heap hb hleaf q n hq)⟩
      unused := fun n hn hnil => by
        simp only [push_idx] at hn
        rw [hnode, if_neg (by omega)]
        exact h.unused n (by omega) hnil }

/-- A merge keeps the invariant (R176, R177). -/
theorem buildOk_push_internal {b : TreeBuild} {k : Nat} (h : BuildOk b k) (x y : NodeIndex) (rest : List NodeIndex)
    (hxy : b.heap.Perm (x :: y :: rest)) : BuildOk (b.push (internalEntry b.node x y) rest) k := by
  have hlen := hxy.length_eq
  have hsize := h.size
  have hk := h.leaves_le
  simp only [List.length_cons] at hlen
  have hb : b.idx < 511 := by omega
  have hN : (BitVec.ofNat 9 b.idx).toNat = b.idx := idx_toNat _ hb
  have hperm := push_heap_perm b (internalEntry b.node x y) rest
  have hnode := fun m => push_nodeAt b (internalEntry b.node x y) rest m hb
  have hnd := hxy.nodup_iff.mp h.nodup
  rw [List.nodup_cons, List.nodup_cons, List.mem_cons, not_or] at hnd
  obtain ⟨⟨hxney, hxr⟩, hyr, hrnd⟩ := hnd
  have hxm : x ∈ b.heap := hxy.mem_iff.mpr (by simp)
  have hym : y ∈ b.heap := hxy.mem_iff.mpr (by simp)
  have hrm : ∀ n ∈ rest, n ∈ b.heap := fun n hn => hxy.mem_iff.mpr (by simp [hn])
  have hx := h.heap_lt x hxm
  have hy := h.heap_lt y hym
  have hnot : BitVec.ofNat 9 b.idx ∉ rest := fun hm => by
    have := h.heap_lt _ (hrm _ hm)
    omega
  have hchild : ∀ q n, IsChild (b.push (internalEntry b.node x y) rest).node q n →
      (q.toNat = b.idx ∧ (x = n ∨ y = n)) ∨ (q.toNat ≠ b.idx ∧ IsChild b.node q n) := fun q n hc => by
    obtain ⟨d, hd, hi, hlr⟩ := hc
    rw [hnode] at hd
    split at hd
    · next hq =>
      cases hd
      exact .inl ⟨hq, hlr⟩
    · next hq => exact .inr ⟨hq, d, hd, hi, hlr⟩
  have hnew : ∀ n, x = n ∨ y = n → IsChild (b.push (internalEntry b.node x y) rest).node (BitVec.ofNat 9 b.idx) n :=
    fun n hn => ⟨internalEntry b.node x y, by rw [hnode, if_pos hN], rfl, hn⟩
  refine
    { leaves_le := hk
      leaves_le_idx := by
        have := h.leaves_le_idx
        simp only [push_idx]
        omega
      size := by
        have := hperm.length_eq
        simp only [List.length_cons, push_idx] at *
        omega
      queued := fun _ => by
        rw [hperm.length_eq]
        simp
      nodup := hperm.nodup_iff.mpr (List.nodup_cons.mpr ⟨hnot, hrnd⟩)
      heap_lt := fun n hn => by
        have hm := hperm.mem_iff.mp hn
        rcases List.mem_cons.mp hm with rfl | hm
        · simp only [hN, push_idx]
          omega
        · have := h.heap_lt n (hrm n hm)
          simp only [push_idx]
          omega
      leaf := fun n hn => by
        have := h.leaves_le_idx
        rw [hnode, if_neg (by omega)]
        exact h.leaf n hn
      ascending := fun m n hmn hn d e hd he => by
        have := h.leaves_le_idx
        have hmn' := BitVec.lt_def.mp hmn
        rw [hnode, if_neg (by omega)] at hd he
        exact h.ascending m n hmn hn d e hd he
      inner := fun n h1 h2 => by
        simp only [push_idx] at h2
        rw [hnode]
        split
        · next hn =>
          refine ⟨_, rfl, rfl, rfl, rfl, ?_, ?_, hxney⟩
          · rw [BitVec.lt_def]
            simp only [internalEntry]
            omega
          · rw [BitVec.lt_def]
            simp only [internalEntry]
            omega
        · exact h.inner n h1 (by omega)
      orphan := fun n hn q hc => by
        have hm := hperm.mem_iff.mp hn
        rcases hchild q n hc with ⟨-, hor⟩ | ⟨-, hold⟩
        · rcases List.mem_cons.mp hm with rfl | hm
          · rcases hor with rfl | rfl <;> omega
          · rcases hor with rfl | rfl
            · exact hxr hm
            · exact hyr hm
        · rcases List.mem_cons.mp hm with rfl | hm
          · have := h.child_lt hold
            rw [BitVec.lt_def, hN] at this
            omega
          · exact h.orphan n (hrm n hm) q hold
      parent := fun n hn hnm => by
        have hm : n ∉ BitVec.ofNat 9 b.idx :: rest := fun z => hnm (hperm.mem_iff.mpr z)
        rw [List.mem_cons, not_or] at hm
        have hne : n.toNat ≠ b.idx := fun z => hm.1 (by rw [← BitVec.toNat_inj, hN]; exact z)
        simp only [push_idx] at hn
        by_cases hxyn : x = n ∨ y = n
        · refine ⟨_, hnew n hxyn, fun q hq => ?_⟩
          rcases hchild q n hq with ⟨hqi, -⟩ | ⟨-, hold⟩
          · rw [← BitVec.toNat_inj, hN]
            exact hqi
          · exfalso
            rcases hxyn with rfl | rfl
            · exact h.orphan _ hxm q hold
            · exact h.orphan _ hym q hold
        · have hnh : n ∉ b.heap := fun z => by
            have := hxy.mem_iff.mp z
            simp only [List.mem_cons] at this
            rcases this with rfl | rfl | hr
            · exact hxyn (.inl rfl)
            · exact hxyn (.inr rfl)
            · exact hm.2 hr
          obtain ⟨p, hp, hu⟩ := h.parent n (by omega) hnh
          have hpl := (h.child_lt hp).2
          refine ⟨p, isChild_push b _ rest hb p n (by omega) hp, fun q hq => ?_⟩
          rcases hchild q n hq with ⟨-, hor⟩ | ⟨-, hold⟩
          · exact absurd hor hxyn
          · exact hu q hold
      unused := fun n hn hnil => by
        simp only [push_idx] at hn
        rw [hnode, if_neg (by omega)]
        exact h.unused n (by omega) hnil }

/-! ## The two loops -/

/-- What one merge does: it takes the two least nodes out of the queue and pushes their parent. -/
theorem mergeOnce_cases {b b' : TreeBuild} (hm : mergeOnce b = some b') :
    ∃ x y rest, b.heap.Perm (x :: y :: rest) ∧ b' = b.push (internalEntry b.node x y) rest := by
  unfold mergeOnce at hm
  split at hm
  · cases hm
  · next x h1 hx =>
    split at hm
    · cases hm
    · next y h2 hy =>
      cases hm
      exact ⟨x, y, h2, (pqExtractMin_perm _ _ _ _ hx).trans ((pqExtractMin_perm _ _ _ _ hy).cons x), rfl⟩

/-- No merge happens exactly when fewer than two nodes are in the queue. -/
theorem mergeOnce_none {b : TreeBuild} (hm : mergeOnce b = none) : b.heap.length < 2 := by
  unfold mergeOnce at hm
  split at hm
  · next hx =>
    rw [(pqExtractMin_none_iff _ _).mp hx]
    simp
  · next x h1 hx =>
    have := pqExtractMin_length _ _ _ _ hx
    split at hm
    · next hy =>
      rw [(pqExtractMin_none_iff _ _).mp hy] at this
      simp at this
      omega
    · cases hm

theorem mergeOnce_length {b b' : TreeBuild} (hm : mergeOnce b = some b') : b.heap.length = b'.heap.length + 1 := by
  obtain ⟨x, y, rest, hp, rfl⟩ := mergeOnce_cases hm
  rw [hp.length_eq, (push_heap_perm b _ rest).length_eq]
  simp

/-- The merges keep the invariant and leave at most one node in the queue. -/
theorem mergeAll_ok (fuel : Nat) (b : TreeBuild) (k : Nat) (h : BuildOk b k) (hf : b.heap.length ≤ fuel) :
    BuildOk (mergeAll fuel b) k ∧ (mergeAll fuel b).heap.length < 2 := by
  induction fuel generalizing b with
  | zero => exact ⟨h, by simp only [mergeAll]; omega⟩
  | succ fuel ih =>
    unfold mergeAll
    split
    · next hm => exact ⟨h, mergeOnce_none hm⟩
    · next b' hm =>
      have hl := mergeOnce_length hm
      obtain ⟨x, y, rest, hp, rfl⟩ := mergeOnce_cases hm
      exact ih _ (buildOk_push_internal h x y rest hp) (by omega)

/-- The leaf loop over a list of ascending symbols: one leaf more for each symbol of non-zero frequency. -/
theorem foldl_addLeaf_ok (freq : Vector Freq 256) (l : List Byte) (b : TreeBuild) (k : Nat) (h : BuildOk b k)
    (hidx : b.idx = k) (hasc : l.Pairwise (· < ·)) (hroom : k + l.countP (fun s => freqAt freq s != 0#64) ≤ 256)
    (hs : ∀ n : NodeIndex, n.toNat < k → ∀ d, nodeAt b.node n = some d → ∀ s ∈ l, d.sym < s) :
    BuildOk (l.foldl (addLeaf freq) b) (k + l.countP (fun s => freqAt freq s != 0#64)) ∧
      (l.foldl (addLeaf freq) b).idx = k + l.countP (fun s => freqAt freq s != 0#64) := by
  induction l generalizing b k with
  | nil => exact ⟨h, hidx⟩
  | cons s l ih =>
    rw [List.pairwise_cons] at hasc
    rw [List.foldl_cons]
    by_cases hz : freqAt freq s = 0#64
    · have hb : addLeaf freq b s = b := by simp [addLeaf, hz]
      rw [List.countP_cons_of_neg (by simp [hz])] at hroom ⊢
      rw [hb]
      exact ih b k h hidx hasc.2 hroom fun n hn d hd s' hs' => hs n hn d hd s' (by simp [hs'])
    · have hb : addLeaf freq b s = b.push (leafEntry s (freqAt freq s)) b.heap := by simp [addLeaf, hz]
      rw [List.countP_cons_of_pos (by simp [hz])] at hroom ⊢
      rw [hb]
      have hpush := buildOk_push_leaf h hidx (by omega) s (freqAt freq s)
        (fun n hn d hd => hs n hn d hd s (by simp))
      have := ih _ (k + 1) hpush (by simp [hidx]) hasc.2 (by omega) (fun n hn d hd s' hs' => by
        rw [push_nodeAt b _ b.heap n (by omega)] at hd
        split at hd
        · cases hd
          exact hasc.1 s' hs'
        · exact hs n (by omega) d hd s' (by simp [hs']))
      rw [Nat.add_assoc, Nat.add_comm 1] at this
      exact this

theorem distinctSymbols_le (freq : Vector Freq 256) : distinctSymbols freq ≤ 256 := by
  have := List.countP_le_length (p := fun b => freqAt freq b != 0#64) (l := allSymbols)
  rwa [allSymbols_length] at this

theorem addLeaves_ok (freq : Vector Freq 256) :
    BuildOk (addLeaves freq) (distinctSymbols freq) ∧ (addLeaves freq).idx = distinctSymbols freq := by
  have := foldl_addLeaf_ok freq allSymbols TreeBuild.start 0 buildOk_start rfl allSymbols_ascending
    (by rw [Nat.zero_add]; exact distinctSymbols_le freq) (fun n hn => absurd hn (Nat.not_lt_zero _))
  rw [Nat.zero_add] at this
  exact this

/-- NSYM is the number of symbols with non-zero frequency (R177). -/
theorem addLeaves_idx (freq : Vector Freq 256) : (addLeaves freq).idx = distinctSymbols freq := (addLeaves_ok freq).2

theorem buildArena_buildOk (freq : Vector Freq 256) :
    BuildOk (buildArena freq) (distinctSymbols freq) ∧ (buildArena freq).heap.length < 2 :=
  mergeAll_ok _ _ _ (addLeaves_ok freq).1 (Nat.le_refl _)

/-- The root is the one node left in the queue, or NIL when the queue is empty (R177). -/
theorem arenaRoot_cases (b : TreeBuild) (hl : b.heap.length < 2) :
    (b.heap = [] ∧ arenaRoot b = Config.nilIndex) ∨ ∃ r, b.heap = [r] ∧ arenaRoot b = r := by
  unfold arenaRoot
  match hh : b.heap, hl with
  | [], _ => exact .inl ⟨rfl, rfl⟩
  | [r], _ => exact .inr ⟨r, rfl, rfl⟩

/-- BuildTree leaves the arena as 10_state.md R38 says. -/
theorem buildArena_ok (freq : Vector Freq 256) :
    ArenaOk (buildArena freq).node (distinctSymbols freq) (arenaRoot (buildArena freq)) := by
  obtain ⟨h, hl⟩ := buildArena_buildOk freq
  have hsize := h.size
  have hq := h.queued
  have hle := h.leaves_le
  refine
    { leaves_le := hle
      leaf := h.leaf
      ascending := h.ascending
      inner := fun n h1 h2 => h.inner n h1 (by omega)
      parent := fun n hn => ?_
      unused := fun n hn hnil => h.unused n (by omega) hnil
      root_eq := ?_ }
  · refine h.parent n (by omega) fun hm => ?_
    obtain ⟨hnil, -⟩ | ⟨r, hr, -⟩ := arenaRoot_cases _ hl
    · rw [hnil] at hm
      cases hm
    · have hidx : (buildArena freq).idx = 2 * distinctSymbols freq - 1 := by
        rw [hr] at hsize
        simp at hsize
        omega
      have hlast : (BitVec.ofNat 9 (2 * distinctSymbols freq - 2)).toNat = 2 * distinctSymbols freq - 2 :=
        idx_toNat _ (by omega)
      by_cases hk : distinctSymbols freq = 1
      · omega
      · have hmr : n = r := by
          rw [hr] at hm
          simpa using hm
        have hnotmem : BitVec.ofNat 9 (2 * distinctSymbols freq - 2) ∉ (buildArena freq).heap := by
          rw [hr, List.mem_singleton, ← hmr, ← BitVec.toNat_inj, hlast]
          omega
        obtain ⟨p, hp, -⟩ := h.parent _ (by rw [hlast]; omega) hnotmem
        have := h.child_lt hp
        rw [BitVec.lt_def, hlast] at this
        omega
  · obtain ⟨hnil, hroot⟩ | ⟨r, hr, hroot⟩ := arenaRoot_cases _ hl
    · rw [hnil] at hq
      simp only [List.length_nil, Nat.lt_irrefl, imp_false, Nat.not_lt] at hq
      rw [if_pos (by omega), hroot]
    · have hidx : (buildArena freq).idx = 2 * distinctSymbols freq - 1 := by
        rw [hr] at hsize
        simp at hsize
        omega
      have hlt := h.heap_lt r (by rw [hr]; simp)
      have hk : distinctSymbols freq ≠ 0 := by omega
      have hlast : (BitVec.ofNat 9 (2 * distinctSymbols freq - 2)).toNat = 2 * distinctSymbols freq - 2 :=
        idx_toNat _ (by omega)
      rw [if_neg hk, hroot]
      by_contra hne
      have hnotmem : BitVec.ofNat 9 (2 * distinctSymbols freq - 2) ∉ (buildArena freq).heap := by
        rw [hr, List.mem_singleton]
        exact fun z => hne z.symm
      obtain ⟨p, hp, -⟩ := h.parent _ (by rw [hlast]; omega) hnotmem
      have := h.child_lt hp
      rw [BitVec.lt_def, hlast] at this
      omega

end Sys2Proof.Machine
end

