-- ==== Sys2Proof/Laws/Weights.lean ====
section
/-!
SUPPORT. The leaves of the arena carry their symbols' frequencies, every internal node the sum of its children's weights,
and the root the sum of all frequencies (42_tree_builder.md R172, R176, R180).
-/

namespace Sys2Proof.Machine

/-- The weights in a queue, added up. -/
def heapWeight (t : Vector NodeEntry 511) (h : List NodeIndex) : Nat := (h.map fun n => (weightAt t n).toNat).sum

theorem heapWeight_perm (t : Vector NodeEntry 511) (h h' : List NodeIndex) (hp : h.Perm h') :
    heapWeight t h = heapWeight t h' :=
  (hp.map _).sum_eq

theorem heapWeight_congr (t u : Vector NodeEntry 511) (h : List NodeIndex)
    (hc : ∀ n ∈ h, nodeAt u n = nodeAt t n) : heapWeight u h = heapWeight t h := by
  unfold heapWeight weightAt
  congr 1
  exact List.map_congr_left fun n hn => by rw [hc n hn]

theorem push_weightAt_self (b : TreeBuild) (e : NodeEntry) (rest : List NodeIndex) (hb : b.idx < 511) :
    weightAt (b.push e rest).node (BitVec.ofNat 9 b.idx) = e.weight := by
  unfold weightAt
  rw [push_nodeAt b e rest _ hb, if_pos (idx_toNat _ hb)]

theorem push_weightAt_lt (b : TreeBuild) (e : NodeEntry) (rest : List NodeIndex) (hb : b.idx < 511) (n : NodeIndex)
    (hn : n.toNat < b.idx) : weightAt (b.push e rest).node n = weightAt b.node n := by
  unfold weightAt
  rw [push_nodeAt b e rest _ hb, if_neg (by omega)]

theorem leafEntry_weight (s : Byte) (w : Freq) : (leafEntry s w).weight.toNat = w.toNat := by
  have := w.isLt
  simp only [leafEntry, BitVec.truncate_eq_setWidth, BitVec.toNat_setWidth]
  exact Nat.mod_eq_of_lt (by omega)

/-- The queue after a push weighs as much more as the new node does. -/
theorem push_heapWeight {b : TreeBuild} {k : Nat} (h : BuildOk b k) (e : NodeEntry) (rest : List NodeIndex)
    (hb : b.idx < 511) (hr : ∀ n ∈ rest, n ∈ b.heap) :
    heapWeight (b.push e rest).node (b.push e rest).heap = e.weight.toNat + heapWeight b.node rest := by
  rw [heapWeight_perm _ _ _ (push_heap_perm b e rest)]
  unfold heapWeight
  rw [List.map_cons, List.sum_cons, push_weightAt_self b e rest hb]
  congr 2
  exact List.map_congr_left fun n hn => by
    have hlt := h.heap_lt n (hr n hn)
    rw [push_weightAt_lt b e rest hb n hlt]

/-! ## The leaf loop -/

theorem foldl_addLeaf_spec (freq : Vector Freq 256) (l : List Byte) (b : TreeBuild) (k : Nat) (h : BuildOk b k)
    (hidx : b.idx = k) (hasc : l.Pairwise (· < ·)) (hroom : k + l.countP (fun s => freqAt freq s != 0#64) ≤ 256)
    (hs : ∀ n : NodeIndex, n.toNat < k → ∀ d, nodeAt b.node n = some d → ∀ s ∈ l, d.sym < s) :
    (∀ n : NodeIndex, n.toNat < k → nodeAt (l.foldl (addLeaf freq) b).node n = nodeAt b.node n) ∧
    (∀ n : NodeIndex, k ≤ n.toNat → n.toNat < (l.foldl (addLeaf freq) b).idx →
      ∃ s ∈ l, freqAt freq s ≠ 0#64 ∧
        nodeAt (l.foldl (addLeaf freq) b).node n = some (leafEntry s (freqAt freq s))) ∧
    (∀ s ∈ l, freqAt freq s ≠ 0#64 → ∃ n : NodeIndex, k ≤ n.toNat ∧ n.toNat < (l.foldl (addLeaf freq) b).idx ∧
        nodeAt (l.foldl (addLeaf freq) b).node n = some (leafEntry s (freqAt freq s))) ∧
    heapWeight (l.foldl (addLeaf freq) b).node (l.foldl (addLeaf freq) b).heap =
      heapWeight b.node b.heap + (l.map fun s => (freqAt freq s).toNat).sum := by
  induction l generalizing b k with
  | nil =>
    simp only [List.foldl_nil]
    exact ⟨fun n _ => trivial, fun n h1 h2 => by omega, fun s hs => absurd hs (by simp), by simp⟩
  | cons s l ih =>
    rw [List.pairwise_cons] at hasc
    rw [List.foldl_cons, List.map_cons, List.sum_cons]
    by_cases hz : freqAt freq s = 0#64
    · have hb : addLeaf freq b s = b := by simp [addLeaf, hz]
      rw [List.countP_cons_of_neg (by simp [hz])] at hroom
      rw [hb]
      obtain ⟨h1, h2, h3, h4⟩ :=
        ih b k h hidx hasc.2 hroom fun n hn d hd s' hs' => hs n hn d hd s' (by simp [hs'])
      refine ⟨h1, fun n ha hb => ?_, fun s' hs' hne => ?_, by rw [h4, hz]; simp⟩
      · obtain ⟨s', hm, hr⟩ := h2 n ha hb
        exact ⟨s', by simp [hm], hr⟩
      · rcases List.mem_cons.mp hs' with rfl | hm
        · exact absurd hz hne
        · exact h3 s' hm hne
    · have hb : addLeaf freq b s = b.push (leafEntry s (freqAt freq s)) b.heap := by simp [addLeaf, hz]
      rw [List.countP_cons_of_pos (by simp [hz])] at hroom
      rw [hb]
      have hlt : b.idx < 511 := by omega
      have hpush := buildOk_push_leaf h hidx (by omega) s (freqAt freq s)
        (fun n hn d hd => hs n hn d hd s (by simp))
      have hn' := fun m => push_nodeAt b (leafEntry s (freqAt freq s)) b.heap m hlt
      have hs2 : ∀ n : NodeIndex, n.toNat < k + 1 → ∀ d,
          nodeAt (b.push (leafEntry s (freqAt freq s)) b.heap).node n = some d → ∀ s' ∈ l, d.sym < s' :=
        fun n hn d hd s' hs' => by
          rw [hn'] at hd
          split at hd
          · cases hd
            exact hasc.1 s' hs'
          · exact hs n (by omega) d hd s' (by simp [hs'])
      have hmono := (foldl_addLeaf_ok freq l _ (k + 1) hpush (by simp [hidx]) hasc.2 (by omega) hs2).2
      obtain ⟨h1, h2, h3, h4⟩ := ih _ (k + 1) hpush (by simp [hidx]) hasc.2 (by omega) hs2
      have hself : nodeAt (l.foldl (addLeaf freq) (b.push (leafEntry s (freqAt freq s)) b.heap)).node
          (BitVec.ofNat 9 b.idx) = some (leafEntry s (freqAt freq s)) := by
        rw [h1 _ (by rw [idx_toNat _ hlt]; omega), hn', if_pos (idx_toNat _ hlt)]
      refine ⟨fun n hn => ?_, fun n ha hb' => ?_, fun s' hs' hne => ?_, ?_⟩
      · rw [h1 n (by omega), hn', if_neg (by omega)]
      · by_cases hk : n.toNat = k
        · have hnk : n = BitVec.ofNat 9 b.idx := by
            rw [← BitVec.toNat_inj, idx_toNat _ hlt]
            omega
          exact ⟨s, by simp, hz, by rw [hnk]; exact hself⟩
        · obtain ⟨s', hm, hr⟩ := h2 n (by omega) hb'
          exact ⟨s', by simp [hm], hr⟩
      · rcases List.mem_cons.mp hs' with rfl | hm
        · exact ⟨BitVec.ofNat 9 b.idx, by rw [idx_toNat _ hlt]; omega, by rw [idx_toNat _ hlt, hmono]; omega, hself⟩
        · obtain ⟨n, ha, hb', hr⟩ := h3 s' hm hne
          exact ⟨n, by omega, hb', hr⟩
      · rw [h4, push_heapWeight h _ _ hlt (fun _ hn => hn), leafEntry_weight]
        omega

/-! ## The merges -/

theorem mergeOnce_nodeAt {b b' : TreeBuild} {k : Nat} (h : BuildOk b k) (hm : mergeOnce b = some b') (n : NodeIndex)
    (hn : n.toNat < b.idx) : nodeAt b'.node n = nodeAt b.node n := by
  obtain ⟨x, y, rest, hp, rfl⟩ := mergeOnce_cases hm
  have := hp.length_eq
  have := h.size
  have := h.leaves_le
  simp only [List.length_cons] at *
  rw [push_nodeAt b _ rest n (by omega), if_neg (by omega)]

/-- The merges change none of the nodes made before. -/
theorem mergeAll_nodeAt (fuel : Nat) (b : TreeBuild) (k : Nat) (h : BuildOk b k) (n : NodeIndex)
    (hn : n.toNat < b.idx) : nodeAt (mergeAll fuel b).node n = nodeAt b.node n := by
  induction fuel generalizing b with
  | zero => rfl
  | succ fuel ih =>
    unfold mergeAll
    split
    · rfl
    · next b' hm =>
      have h1 := mergeOnce_nodeAt h hm n hn
      obtain ⟨x, y, rest, hp, rfl⟩ := mergeOnce_cases hm
      rw [ih _ (buildOk_push_internal h x y rest hp) (by simp only [push_idx]; omega), h1]

/-- Every internal node weighs as much as its two children together. -/
def WeightsAdd (b : TreeBuild) (k : Nat) : Prop :=
  ∀ n : NodeIndex, k ≤ n.toNat → n.toNat < b.idx → ∀ e, nodeAt b.node n = some e →
    e.weight.toNat = (weightAt b.node e.left).toNat + (weightAt b.node e.right).toNat

theorem push_internal_weights {b : TreeBuild} {k : Nat} (h : BuildOk b k) (hw : WeightsAdd b k)
    (hsum : heapWeight b.node b.heap < 2 ^ 72) (x y : NodeIndex) (rest : List NodeIndex)
    (hp : b.heap.Perm (x :: y :: rest)) :
    WeightsAdd (b.push (internalEntry b.node x y) rest) k ∧
      heapWeight (b.push (internalEntry b.node x y) rest).node (b.push (internalEntry b.node x y) rest).heap =
        heapWeight b.node b.heap := by
  have hlen := hp.length_eq
  have hsize := h.size
  have hk := h.leaves_le
  simp only [List.length_cons] at hlen
  have hb : b.idx < 511 := by omega
  have hx := h.heap_lt x (hp.mem_iff.mpr (by simp))
  have hy := h.heap_lt y (hp.mem_iff.mpr (by simp))
  have hsplit : heapWeight b.node b.heap =
      (weightAt b.node x).toNat + ((weightAt b.node y).toNat + heapWeight b.node rest) := by
    rw [heapWeight_perm _ _ _ hp]
    simp [heapWeight]
  have hadd : (internalEntry b.node x y).weight.toNat = (weightAt b.node x).toNat + (weightAt b.node y).toNat := by
    simp only [internalEntry, BitVec.toNat_add]
    exact Nat.mod_eq_of_lt (by omega)
  refine ⟨fun n h1 h2 e he => ?_, ?_⟩
  · rw [push_nodeAt b _ rest n hb] at he
    split at he
    · cases he
      rw [hadd]
      simp only [internalEntry]
      rw [push_weightAt_lt b _ rest hb x hx, push_weightAt_lt b _ rest hb y hy]
    · simp only [push_idx] at h2
      have hn : n.toNat < b.idx := by omega
      obtain ⟨d, hd, -, -, -, hl, hr, -⟩ := h.inner n h1 hn
      obtain rfl : d = e := Option.some.inj (hd.symm.trans he)
      rw [BitVec.lt_def] at hl hr
      rw [push_weightAt_lt b _ rest hb _ (by omega), push_weightAt_lt b _ rest hb _ (by omega)]
      exact hw n h1 hn d hd
  · rw [push_heapWeight h _ rest hb (fun n hn => hp.mem_iff.mpr (by simp [hn])), hadd, hsplit]
    omega

theorem mergeAll_weights (fuel : Nat) (b : TreeBuild) (k : Nat) (h : BuildOk b k) (hw : WeightsAdd b k)
    (hsum : heapWeight b.node b.heap < 2 ^ 72) :
    WeightsAdd (mergeAll fuel b) k ∧
      heapWeight (mergeAll fuel b).node (mergeAll fuel b).heap = heapWeight b.node b.heap := by
  induction fuel generalizing b with
  | zero => exact ⟨hw, rfl⟩
  | succ fuel ih =>
    unfold mergeAll
    split
    · exact ⟨hw, rfl⟩
    · next b' hm =>
      obtain ⟨x, y, rest, hp, rfl⟩ := mergeOnce_cases hm
      obtain ⟨h1, h2⟩ := push_internal_weights h hw hsum x y rest hp
      obtain ⟨h3, h4⟩ := ih _ (buildOk_push_internal h x y rest hp) h1 (by omega)
      exact ⟨h3, by omega⟩

/-! ## The arena of BuildTree -/

theorem freqSum_lt (freq : Vector Freq 256) : freqSum freq < 2 ^ 72 := by
  have : freqSum freq ≤ (allSymbols.map fun b => (freqAt freq b).toNat).length • (2 ^ 64 - 1) :=
    List.sum_le_card_nsmul _ _ fun n hn => by
      obtain ⟨b, -, rfl⟩ := List.mem_map.mp hn
      have := (freqAt freq b).isLt
      omega
  rw [List.length_map, allSymbols_length] at this
  simp only [smul_eq_mul] at this
  omega

theorem addLeaves_spec (freq : Vector Freq 256) :
    (∀ n : NodeIndex, n.toNat < distinctSymbols freq → ∃ s, freqAt freq s ≠ 0#64 ∧
        nodeAt (addLeaves freq).node n = some (leafEntry s (freqAt freq s))) ∧
    (∀ s, freqAt freq s ≠ 0#64 → ∃ n : NodeIndex, n.toNat < distinctSymbols freq ∧
        nodeAt (addLeaves freq).node n = some (leafEntry s (freqAt freq s))) ∧
    heapWeight (addLeaves freq).node (addLeaves freq).heap = freqSum freq := by
  obtain ⟨-, h2, h3, h4⟩ := foldl_addLeaf_spec freq allSymbols TreeBuild.start 0 buildOk_start rfl allSymbols_ascending
    (by rw [Nat.zero_add]; exact distinctSymbols_le freq) (fun n hn => absurd hn (Nat.not_lt_zero _))
  have hidx := addLeaves_idx freq
  refine ⟨fun n hn => ?_, fun s hs => ?_, ?_⟩
  · obtain ⟨s, -, hr⟩ := h2 n (Nat.zero_le _) (by rw [← hidx] at hn; exact hn)
    exact ⟨s, hr⟩
  · obtain ⟨n, -, hn, hr⟩ := h3 s (mem_allSymbols s) hs
    exact ⟨n, by rw [← hidx]; exact hn, hr⟩
  · have hz : heapWeight TreeBuild.start.node TreeBuild.start.heap = 0 := rfl
    rw [hz, Nat.zero_add] at h4
    exact h4

/-- Every leaf of the arena is a symbol of non-zero frequency with that frequency as its weight (R172). -/
theorem buildArena_leaf (freq : Vector Freq 256) (n : NodeIndex) (hn : n.toNat < distinctSymbols freq) :
    ∃ s, freqAt freq s ≠ 0#64 ∧ nodeAt (buildArena freq).node n = some (leafEntry s (freqAt freq s)) := by
  obtain ⟨s, hs, hr⟩ := (addLeaves_spec freq).1 n hn
  refine ⟨s, hs, ?_⟩
  unfold buildArena
  rw [mergeAll_nodeAt _ _ _ (addLeaves_ok freq).1 n (by rw [addLeaves_idx]; exact hn), hr]

/-- Every symbol of non-zero frequency is a leaf of the arena (R177). -/
theorem buildArena_cover (freq : Vector Freq 256) (s : Byte) (hs : freqAt freq s ≠ 0#64) :
    ∃ n : NodeIndex, n.toNat < distinctSymbols freq ∧
      nodeAt (buildArena freq).node n = some (leafEntry s (freqAt freq s)) := by
  obtain ⟨n, hn, hr⟩ := (addLeaves_spec freq).2.1 s hs
  refine ⟨n, hn, ?_⟩
  unfold buildArena
  rw [mergeAll_nodeAt _ _ _ (addLeaves_ok freq).1 n (by rw [addLeaves_idx]; exact hn), hr]

theorem buildArena_weights (freq : Vector Freq 256) :
    WeightsAdd (buildArena freq) (distinctSymbols freq) ∧
      heapWeight (buildArena freq).node (buildArena freq).heap = freqSum freq := by
  have h3 := (addLeaves_spec freq).2.2
  have hlt := freqSum_lt freq
  obtain ⟨h1, h2⟩ := mergeAll_weights (addLeaves freq).heap.length (addLeaves freq) _ (addLeaves_ok freq).1
    (fun n ha hb => by rw [addLeaves_idx] at hb; omega) (by omega)
  exact ⟨h1, by unfold buildArena; omega⟩

/-- The root's weight is the sum of all frequencies (R180); 0 for the empty tree (10_state.md R33). -/
theorem buildArena_total (freq : Vector Freq 256) :
    (weightAt (buildArena freq).node (arenaRoot (buildArena freq))).toNat = freqSum freq := by
  rw [← (buildArena_weights freq).2]
  obtain ⟨hnil, hroot⟩ | ⟨r, hr, hroot⟩ := arenaRoot_cases _ (buildArena_buildOk freq).2
  · rw [hroot, hnil]
    simp [weightAt, (nodeAt_eq_none_iff _ _).mpr, heapWeight]
  · rw [hroot, hr]
    simp [heapWeight]

end Sys2Proof.Machine
end

