-- ==== Sys2Proof/Laws/Codes.lean ====
section
/-!
SUPPORT. The code assigner: a stored code gives back the path it was made from, and the valid codes are the paths from
the root to the leaves (42_tree_builder.md R190, R191; 10_state.md R39).
-/

namespace Sys2Proof.Machine

/-! ## Stored codes -/

theorem packBits_getMsbD (p : List Bool) (j : Nat) (hj : j < 256) : (packBits p).getMsbD j = p.getD j false := by
  induction p generalizing j with
  | nil => simp [packBits]
  | cons c cs ih =>
    rw [packBits, BitVec.getMsbD_or, BitVec.getMsbD_ushiftRight]
    cases j with
    | zero => cases c <;> simp [BitVec.getMsbD]
    | succ j =>
      have h1 : (if c then 1#256 <<< 255 else 0#256).getMsbD (j + 1) = false := by
        cases c
        · simp
        · rw [if_pos rfl, BitVec.getMsbD_shiftLeft, BitVec.getMsbD_of_ge _ _ (by omega)]
      have h2 : (if c then 1#256 <<< 255 else 0).getMsbD (j + 1) = false := h1
      rw [h2, Nat.add_sub_cancel, ih j (by omega)]
      simp [hj]

/-- The code bits of a stored path are the path, if it fits LEN and BITS (R39). -/
theorem codeOf_codeEntry (p : List Bool) (hp : p.length ≤ 256) : codeOf (codeEntry p) = p := by
  have hl : (codeEntry p).len.toNat = p.length := by
    simp only [codeEntry, BitVec.toNat_ofNat]
    exact Nat.mod_eq_of_lt (by omega)
  unfold codeOf
  rw [hl]
  apply List.ext_getElem
  · simp
  · intro i h1 h2
    simp only [List.length_map, List.length_range] at h1
    simp only [List.getElem_map, List.getElem_range, codeBit, codeEntry]
    rw [packBits_getMsbD p i (by omega), List.getD_eq_getElem _ _ h1]

/-! ## Paths -/

theorem pathEnd_append (t : Vector NodeEntry 511) (n m : NodeIndex) (p q : List Bool) (hp : pathEnd t n p = some m) :
    pathEnd t n (p ++ q) = pathEnd t m q := by
  induction p generalizing n with
  | nil =>
    cases hp
    rfl
  | cons c cs ih =>
    simp only [pathEnd] at hp
    simp only [List.cons_append, pathEnd]
    split at hp
    · cases hp
    · next e he =>
      split at hp
      · next hi => simp only [hi, if_true, ih _ hp]
      · cases hp

/-- No edge leaves a leaf. -/
theorem pathEnd_leaf (t : Vector NodeEntry 511) (n m : NodeIndex) (e : NodeEntry) (q : List Bool)
    (he : nodeAt t n = some e) (hl : e.internal = false) (hq : pathEnd t n q = some m) : q = [] ∧ m = n := by
  cases q with
  | nil =>
    cases hq
    exact ⟨rfl, rfl⟩
  | cons c cs => simp [pathEnd, he, hl] at hq

/-- The node a path ends at, when a longer path ends at a leaf, decides: two paths from one node, one the start of the
other, that both end at leaves, are the same path (R191). -/
theorem path_unique (t : Vector NodeEntry 511) (n m m' : NodeIndex) (e : NodeEntry) (p q : List Bool)
    (hp : pathEnd t n p = some m) (he : nodeAt t m = some e) (hl : e.internal = false)
    (hq : pathEnd t n (p ++ q) = some m') : q = [] ∧ m' = m := by
  rw [pathEnd_append t n m p q hp] at hq
  exact pathEnd_leaf t m m' e q he hl hq

/-! ## Visit -/

/-- Visit writes nothing but paths to leaves: each symbol's entry is the old one, or the path to a leaf with it (R190). -/
theorem visit_sound (t : Vector NodeEntry 511) (fuel : Nat) (n : NodeIndex) (p : List Bool)
    (c : Vector CodeEntry 256) (s : Byte) :
    codeAt (visit t fuel n p c) s = codeAt c s ∨
      ∃ q m e, pathEnd t n q = some m ∧ nodeAt t m = some e ∧ e.internal = false ∧ e.sym = s ∧
        codeAt (visit t fuel n p c) s = codeEntry (p ++ q) := by
  induction fuel generalizing n p c with
  | zero => exact .inl rfl
  | succ fuel ih =>
    unfold visit
    split
    · exact .inl rfl
    · next e he =>
      split
      · next hi =>
        have step : ∀ (b : Bool) (q : List Bool), pathEnd t n (b :: q) = pathEnd t (childOf e b) q :=
          fun b q => by simp [pathEnd, he, hi]
        rcases ih e.right (p ++ [true]) (visit t fuel e.left (p ++ [false]) c) with hr | ⟨q, m, d, h1, h2, h3, h4, h5⟩
        · rcases ih e.left (p ++ [false]) c with hl | ⟨q, m, d, h1, h2, h3, h4, h5⟩
          · exact .inl (hr.trans hl)
          · refine .inr ⟨false :: q, m, d, by rw [step]; exact h1, h2, h3, h4, ?_⟩
            rw [hr, h5]
            simp
        · refine .inr ⟨true :: q, m, d, by rw [step]; exact h1, h2, h3, h4, ?_⟩
          rw [h5]
          simp
      · next hi =>
        by_cases hs : s = e.sym
        · subst hs
          refine .inr ⟨[], n, e, rfl, he, by simpa using hi, rfl, ?_⟩
          rw [codeAt_setCode_self, List.append_nil]
        · exact .inl (codeAt_setCode_ne _ _ _ _ hs)

theorem visit_keeps_valid (t : Vector NodeEntry 511) (fuel : Nat) (n : NodeIndex) (p : List Bool)
    (c : Vector CodeEntry 256) (s : Byte) (h : (codeAt c s).valid = true) :
    (codeAt (visit t fuel n p c) s).valid = true := by
  rcases visit_sound t fuel n p c s with he | ⟨q, m, e, -, -, -, -, he⟩
  · rw [he]
    exact h
  · rw [he]
    rfl

/-- Visit gives every leaf below its node a code, if the bound on its depth is large enough (R190). -/
theorem visit_complete (t : Vector NodeEntry 511) (fuel : Nat) (n m : NodeIndex) (p q : List Bool)
    (c : Vector CodeEntry 256) (e : NodeEntry) (hf : q.length < fuel) (hq : pathEnd t n q = some m)
    (he : nodeAt t m = some e) (hl : e.internal = false) :
    (codeAt (visit t fuel n p c) e.sym).valid = true := by
  induction fuel generalizing n p q c with
  | zero => omega
  | succ fuel ih =>
    unfold visit
    cases q with
    | nil =>
      cases hq
      simp [he, hl, codeEntry]
    | cons b q =>
      simp only [pathEnd] at hq
      split at hq
      · cases hq
      · next d hd =>
        split at hq
        · next hi =>
          simp only [List.length_cons] at hf
          simp only [hd, hi, if_true]
          cases b
          · exact visit_keeps_valid _ _ _ _ _ _ (ih _ _ q c (by omega) hq)
          · exact ih _ _ q _ (by omega) hq
        · cases hq

/-! ## The tree of a frequency table -/

/-- A path inside the arena is no longer than the internal nodes it can meet (R191). -/
theorem path_length (t : Vector NodeEntry 511) (k : Nat) (root : NodeIndex) (h : ArenaOk t k root) (n m : NodeIndex)
    (q : List Bool) (hn : n.toNat + 1 < 2 * k) (hq : pathEnd t n q = some m) :
    m.toNat + 1 < 2 * k ∧ (q ≠ [] → k ≤ n.toNat ∧ q.length + k ≤ n.toNat + 1) := by
  induction q generalizing n with
  | nil =>
    cases hq
    exact ⟨hn, fun hne => absurd rfl hne⟩
  | cons b q ih =>
    simp only [pathEnd] at hq
    split at hq
    · cases hq
    · next d hd =>
      split at hq
      · next hi =>
        have hk : k ≤ n.toNat := by
          by_contra hlt
          obtain ⟨e, he, -, hl, -⟩ := h.leaf n (by omega)
          rw [hd] at he
          cases he
          rw [hi] at hl
          cases hl
        obtain ⟨e, he, -, -, -, hl, hr, -⟩ := h.inner n hk hn
        obtain rfl : d = e := Option.some.inj (hd.symm.trans he)
        rw [BitVec.lt_def] at hl hr
        have hc : (childOf d b).toNat < n.toNat := by cases b <;> assumption
        obtain ⟨h1, h2⟩ := ih _ (by omega) hq
        refine ⟨h1, fun _ => ⟨hk, ?_⟩⟩
        cases q with
        | nil => simp; omega
        | cons b' q =>
          have := (h2 (by simp)).2
          simp only [List.length_cons] at *
          omega
      · cases hq

/-- Every node of the arena lies on a path from the root (10_state.md R38). -/
theorem path_exists (t : Vector NodeEntry 511) (k : Nat) (root : NodeIndex) (h : ArenaOk t k root) (n : NodeIndex)
    (hn : n.toNat + 1 < 2 * k) : ∃ q, pathEnd t root q = some n := by
  have hle := h.leaves_le
  have hroot : root.toNat = 2 * k - 2 := by
    rw [h.root_eq, if_neg (by omega)]
    exact idx_toNat _ (by omega)
  generalize hd : 2 * k - n.toNat = d
  induction d using Nat.strongRecOn generalizing n with
  | ind d ih =>
    by_cases hr : n.toNat + 2 < 2 * k
    · obtain ⟨p, hp, -⟩ := h.parent n hr
      obtain ⟨e, he, hi, hlr⟩ := hp
      have hpk : p.toNat + 1 < 2 * k := by
        by_contra hge
        have hz := h.unused p (by omega) (fun hnil => by rw [(nodeAt_eq_none_iff _ _).mpr hnil] at he; cases he)
        rw [hz] at he
        cases he
        cases hi
      have hk : k ≤ p.toNat := by
        by_contra hlt
        obtain ⟨d', hd', -, hl, -⟩ := h.leaf p (by omega)
        rw [hd'] at he
        cases he
        rw [hi] at hl
        cases hl
      obtain ⟨e', he', -, -, -, hl, hr', -⟩ := h.inner p hk hpk
      obtain rfl : e = e' := Option.some.inj (he.symm.trans he')
      rw [BitVec.lt_def] at hl hr'
      have hlt : n.toNat < p.toNat := by rcases hlr with rfl | rfl <;> assumption
      obtain ⟨q, hq⟩ := ih (2 * k - p.toNat) (by omega) p hpk rfl
      rcases hlr with rfl | rfl
      · exact ⟨q ++ [false], by rw [pathEnd_append _ _ _ _ _ hq]; simp [pathEnd, he, hi, childOf]⟩
      · exact ⟨q ++ [true], by rw [pathEnd_append _ _ _ _ _ hq]; simp [pathEnd, he, hi, childOf]⟩
    · refine ⟨[], ?_⟩
      rw [pathEnd, Option.some.injEq, ← BitVec.toNat_inj, hroot]
      omega

/-- The code table of a frequency table (R177, R190). -/
def codesOf (freq : Vector Freq 256) : Vector CodeEntry 256 :=
  assignCodes (buildArena freq).node (arenaRoot (buildArena freq))

/-- A valid code is the path to a leaf with its symbol; it has at most 255 bits, and it is stored whole (R190, R191). -/
theorem codesOf_valid (freq : Vector Freq 256) (s : Byte) (hv : (codeAt (codesOf freq) s).valid = true) :
    ∃ m e, pathEnd (buildArena freq).node (arenaRoot (buildArena freq)) (codeOf (codeAt (codesOf freq) s)) = some m ∧
      nodeAt (buildArena freq).node m = some e ∧ e.internal = false ∧ e.sym = s ∧
      (codeAt (codesOf freq) s).len.toNat = (codeOf (codeAt (codesOf freq) s)).length ∧
      (codeOf (codeAt (codesOf freq) s)).length + 1 ≤ distinctSymbols freq := by
  have h := buildArena_ok freq
  rcases visit_sound (buildArena freq).node Config.maxNodes (arenaRoot (buildArena freq)) []
    (Vector.replicate 256 CodeEntry.zero) s with hz | ⟨q, m, e, h1, h2, h3, h4, h5⟩
  · have : codeAt (codesOf freq) s = CodeEntry.zero := by
      unfold codesOf assignCodes
      rw [hz, codeAt_replicate]
    rw [this] at hv
    cases hv
  · have hc : codeAt (codesOf freq) s = codeEntry q := h5
    have hk : distinctSymbols freq ≠ 0 := fun hk => by
      have hnil := h.root_eq
      rw [if_pos hk] at hnil
      cases q with
      | nil =>
        cases h1
        rw [(nodeAt_eq_none_iff _ _).mpr hnil] at h2
        cases h2
      | cons b q => simp [pathEnd, (nodeAt_eq_none_iff _ _).mpr hnil] at h1
    have hle := h.leaves_le
    have hroot : (arenaRoot (buildArena freq)).toNat = 2 * distinctSymbols freq - 2 := by
      rw [h.root_eq, if_neg hk]
      exact idx_toNat _ (by omega)
    have hlen : q.length + 1 ≤ distinctSymbols freq := by
      have := (path_length _ _ _ h _ _ q (by omega) h1).2
      by_cases hq : q = []
      · subst hq
        simp
        omega
      · have := (this hq).2
        omega
    have hco : codeOf (codeEntry q) = q := codeOf_codeEntry q (by omega)
    rw [hc, hco]
    refine ⟨m, e, h1, h2, h3, h4, ?_, hlen⟩
    simp only [codeEntry, BitVec.toNat_ofNat]
    exact Nat.mod_eq_of_lt (by omega)

/-- Every symbol of non-zero frequency has a code (R191). -/
theorem codesOf_complete (freq : Vector Freq 256) (s : Byte) (hs : freqAt freq s ≠ 0#64) :
    (codeAt (codesOf freq) s).valid = true := by
  have h := buildArena_ok freq
  have hle := h.leaves_le
  obtain ⟨n, hn, he⟩ := buildArena_cover freq s hs
  obtain ⟨q, hq⟩ := path_exists _ _ _ h n (by omega)
  have hroot : (arenaRoot (buildArena freq)).toNat = 2 * distinctSymbols freq - 2 := by
    rw [h.root_eq, if_neg (by omega)]
    exact idx_toNat _ (by omega)
  have hlen : q.length < Config.maxNodes := by
    have := (path_length _ _ _ h _ _ q (by omega) hq).2
    by_cases hq : q = []
    · subst hq
      decide
    · have := (this hq).2
      show q.length < 511
      omega
  have hv := visit_complete (buildArena freq).node Config.maxNodes (arenaRoot (buildArena freq)) n [] q
    (Vector.replicate 256 CodeEntry.zero) (leafEntry s (freqAt freq s)) hlen hq he rfl
  unfold codesOf assignCodes
  exact hv

/-- CODE[s].VALID = 1 exactly when FREQ[s] is not 0 (R191). -/
theorem codesOf_valid_iff (freq : Vector Freq 256) (s : Byte) :
    (codeAt (codesOf freq) s).valid = true ↔ freqAt freq s ≠ 0#64 := by
  refine ⟨fun hv => ?_, codesOf_complete freq s⟩
  have h := buildArena_ok freq
  have hle := h.leaves_le
  obtain ⟨m, e, hp, he, hl, hsym, -, hlen⟩ := codesOf_valid freq s hv
  have hroot : (arenaRoot (buildArena freq)).toNat = 2 * distinctSymbols freq - 2 := by
    rw [h.root_eq, if_neg (by omega)]
    exact idx_toNat _ (by omega)
  have hm := (path_length _ _ _ h _ _ _ (by omega) hp).1
  have hmk : m.toNat < distinctSymbols freq := by
    by_contra hge
    obtain ⟨d, hd, -, hi, -⟩ := h.inner m (by omega) hm
    rw [he] at hd
    cases hd
    rw [hl] at hi
    cases hi
  obtain ⟨s', hs', hd⟩ := buildArena_leaf freq m hmk
  rw [he] at hd
  cases hd
  have hss : s' = s := hsym
  rw [← hss]
  exact hs'

end Sys2Proof.Machine
end

