-- ==== Sys2Proof/Laws/State.lean ====
section
/-!
SUPPORT. One lemma per field per update, so that no proof unfolds a record update.
-/

namespace Sys2Proof.Machine

/-! ## Emit (20_memory.md R75) -/

@[simp] theorem emitAll_phase (bs : List Byte) (s : State) : (emitAll bs s).phase = s.phase := rfl
@[simp] theorem emitAll_ctrl (bs : List Byte) (s : State) : (emitAll bs s).ctrl = s.ctrl := rfl
@[simp] theorem emitAll_activeCtrl (bs : List Byte) (s : State) : (emitAll bs s).activeCtrl = s.activeCtrl := rfl
@[simp] theorem emitAll_flags (bs : List Byte) (s : State) : (emitAll bs s).flags = s.flags := rfl
@[simp] theorem emitAll_errInfo (bs : List Byte) (s : State) : (emitAll bs s).errInfo = s.errInfo := rfl
@[simp] theorem emitAll_nsym (bs : List Byte) (s : State) : (emitAll bs s).nsym = s.nsym := rfl
@[simp] theorem emitAll_root (bs : List Byte) (s : State) : (emitAll bs s).root = s.root := rfl
@[simp] theorem emitAll_cursor (bs : List Byte) (s : State) : (emitAll bs s).cursor = s.cursor := rfl
@[simp] theorem emitAll_bitBuf (bs : List Byte) (s : State) : (emitAll bs s).bitBuf = s.bitBuf := rfl
@[simp] theorem emitAll_bitCnt (bs : List Byte) (s : State) : (emitAll bs s).bitCnt = s.bitCnt := rfl
@[simp] theorem emitAll_hdrStage (bs : List Byte) (s : State) : (emitAll bs s).hdrStage = s.hdrStage := rfl
@[simp] theorem emitAll_hdrPos (bs : List Byte) (s : State) : (emitAll bs s).hdrPos = s.hdrPos := rfl
@[simp] theorem emitAll_hdrLeft (bs : List Byte) (s : State) : (emitAll bs s).hdrLeft = s.hdrLeft := rfl
@[simp] theorem emitAll_hdrSym (bs : List Byte) (s : State) : (emitAll bs s).hdrSym = s.hdrSym := rfl
@[simp] theorem emitAll_hdrAcc (bs : List Byte) (s : State) : (emitAll bs s).hdrAcc = s.hdrAcc := rfl
@[simp] theorem emitAll_total (bs : List Byte) (s : State) : (emitAll bs s).total = s.total := rfl
@[simp] theorem emitAll_encCount (bs : List Byte) (s : State) : (emitAll bs s).encCount = s.encCount := rfl
@[simp] theorem emitAll_outCount (bs : List Byte) (s : State) : (emitAll bs s).outCount = s.outCount := rfl
@[simp] theorem emitAll_freq (bs : List Byte) (s : State) : (emitAll bs s).freq = s.freq := rfl
@[simp] theorem emitAll_node (bs : List Byte) (s : State) : (emitAll bs s).node = s.node := rfl
@[simp] theorem emitAll_code (bs : List Byte) (s : State) : (emitAll bs s).code = s.code := rfl
@[simp] theorem emitAll_out (bs : List Byte) (s : State) : (emitAll bs s).out = s.out ++ bs := rfl
@[simp] theorem emitAll_drained (bs : List Byte) (s : State) : (emitAll bs s).drained = s.drained := rfl
@[simp] theorem emitAll_input (bs : List Byte) (s : State) : (emitAll bs s).input = s.input := rfl

/-! ## Error entry (60_exceptions.md R301) -/

@[simp] theorem errorEntry_phase (op : Byte) (c : ErrorCode) (sub : Byte) (s : State) : (errorEntry op c sub s).phase = .error := rfl
@[simp] theorem errorEntry_ctrl (op : Byte) (c : ErrorCode) (sub : Byte) (s : State) : (errorEntry op c sub s).ctrl = s.ctrl := rfl
@[simp] theorem errorEntry_activeCtrl (op : Byte) (c : ErrorCode) (sub : Byte) (s : State) : (errorEntry op c sub s).activeCtrl = s.activeCtrl := rfl
@[simp] theorem errorEntry_flags (op : Byte) (c : ErrorCode) (sub : Byte) (s : State) : (errorEntry op c sub s).flags = s.flags := rfl
@[simp] theorem errorEntry_errInfo (op : Byte) (c : ErrorCode) (sub : Byte) (s : State) : (errorEntry op c sub s).errInfo = { opcode := op, phase := s.phase, sub := sub, code := c } := rfl
@[simp] theorem errorEntry_nsym (op : Byte) (c : ErrorCode) (sub : Byte) (s : State) : (errorEntry op c sub s).nsym = s.nsym := rfl
@[simp] theorem errorEntry_root (op : Byte) (c : ErrorCode) (sub : Byte) (s : State) : (errorEntry op c sub s).root = s.root := rfl
@[simp] theorem errorEntry_cursor (op : Byte) (c : ErrorCode) (sub : Byte) (s : State) : (errorEntry op c sub s).cursor = s.cursor := rfl
@[simp] theorem errorEntry_bitBuf (op : Byte) (c : ErrorCode) (sub : Byte) (s : State) : (errorEntry op c sub s).bitBuf = s.bitBuf := rfl
@[simp] theorem errorEntry_bitCnt (op : Byte) (c : ErrorCode) (sub : Byte) (s : State) : (errorEntry op c sub s).bitCnt = s.bitCnt := rfl
@[simp] theorem errorEntry_hdrStage (op : Byte) (c : ErrorCode) (sub : Byte) (s : State) : (errorEntry op c sub s).hdrStage = s.hdrStage := rfl
@[simp] theorem errorEntry_hdrPos (op : Byte) (c : ErrorCode) (sub : Byte) (s : State) : (errorEntry op c sub s).hdrPos = s.hdrPos := rfl
@[simp] theorem errorEntry_hdrLeft (op : Byte) (c : ErrorCode) (sub : Byte) (s : State) : (errorEntry op c sub s).hdrLeft = s.hdrLeft := rfl
@[simp] theorem errorEntry_hdrSym (op : Byte) (c : ErrorCode) (sub : Byte) (s : State) : (errorEntry op c sub s).hdrSym = s.hdrSym := rfl
@[simp] theorem errorEntry_hdrAcc (op : Byte) (c : ErrorCode) (sub : Byte) (s : State) : (errorEntry op c sub s).hdrAcc = s.hdrAcc := rfl
@[simp] theorem errorEntry_total (op : Byte) (c : ErrorCode) (sub : Byte) (s : State) : (errorEntry op c sub s).total = s.total := rfl
@[simp] theorem errorEntry_encCount (op : Byte) (c : ErrorCode) (sub : Byte) (s : State) : (errorEntry op c sub s).encCount = s.encCount := rfl
@[simp] theorem errorEntry_outCount (op : Byte) (c : ErrorCode) (sub : Byte) (s : State) : (errorEntry op c sub s).outCount = s.outCount := rfl
@[simp] theorem errorEntry_freq (op : Byte) (c : ErrorCode) (sub : Byte) (s : State) : (errorEntry op c sub s).freq = s.freq := rfl
@[simp] theorem errorEntry_node (op : Byte) (c : ErrorCode) (sub : Byte) (s : State) : (errorEntry op c sub s).node = s.node := rfl
@[simp] theorem errorEntry_code (op : Byte) (c : ErrorCode) (sub : Byte) (s : State) : (errorEntry op c sub s).code = s.code := rfl
@[simp] theorem errorEntry_out (op : Byte) (c : ErrorCode) (sub : Byte) (s : State) : (errorEntry op c sub s).out = s.out := rfl
@[simp] theorem errorEntry_drained (op : Byte) (c : ErrorCode) (sub : Byte) (s : State) : (errorEntry op c sub s).drained = s.drained := rfl
@[simp] theorem errorEntry_input (op : Byte) (c : ErrorCode) (sub : Byte) (s : State) : (errorEntry op c sub s).input = s.input := rfl

/-! ## InitPass (10_state.md R44) -/

@[simp] theorem initPass_phase (s : State) : (initPass s).phase = s.phase := rfl
@[simp] theorem initPass_ctrl (s : State) : (initPass s).ctrl = s.ctrl := rfl
@[simp] theorem initPass_activeCtrl (s : State) : (initPass s).activeCtrl = s.ctrl := rfl
@[simp] theorem initPass_flags (s : State) : (initPass s).flags = StatusFlags.zero := rfl
@[simp] theorem initPass_errInfo (s : State) : (initPass s).errInfo = ErrInfo.zero := rfl
@[simp] theorem initPass_nsym (s : State) : (initPass s).nsym = 0 := rfl
@[simp] theorem initPass_root (s : State) : (initPass s).root = Config.nilIndex := rfl
@[simp] theorem initPass_cursor (s : State) : (initPass s).cursor = Config.nilIndex := rfl
@[simp] theorem initPass_bitBuf (s : State) : (initPass s).bitBuf = 0 := rfl
@[simp] theorem initPass_bitCnt (s : State) : (initPass s).bitCnt = 0 := rfl
@[simp] theorem initPass_hdrStage (s : State) : (initPass s).hdrStage = .count := rfl
@[simp] theorem initPass_hdrPos (s : State) : (initPass s).hdrPos = 0 := rfl
@[simp] theorem initPass_hdrLeft (s : State) : (initPass s).hdrLeft = 0 := rfl
@[simp] theorem initPass_hdrSym (s : State) : (initPass s).hdrSym = 0 := rfl
@[simp] theorem initPass_hdrAcc (s : State) : (initPass s).hdrAcc = 0 := rfl
@[simp] theorem initPass_total (s : State) : (initPass s).total = 0 := rfl
@[simp] theorem initPass_encCount (s : State) : (initPass s).encCount = 0 := rfl
@[simp] theorem initPass_outCount (s : State) : (initPass s).outCount = 0 := rfl
@[simp] theorem initPass_freq (s : State) : (initPass s).freq = Vector.replicate 256 0 := rfl
@[simp] theorem initPass_node (s : State) : (initPass s).node = Vector.replicate 511 NodeEntry.zero := rfl
@[simp] theorem initPass_code (s : State) : (initPass s).code = Vector.replicate 256 CodeEntry.zero := rfl
@[simp] theorem initPass_out (s : State) : (initPass s).out = s.out := rfl
@[simp] theorem initPass_drained (s : State) : (initPass s).drained = s.drained := rfl
@[simp] theorem initPass_input (s : State) : (initPass s).input = s.input := rfl

/-! ## BuildTree (42_tree_builder.md R177) -/

@[simp] theorem buildTree_phase (s : State) : (buildTree s).phase = s.phase := rfl
@[simp] theorem buildTree_ctrl (s : State) : (buildTree s).ctrl = s.ctrl := rfl
@[simp] theorem buildTree_activeCtrl (s : State) : (buildTree s).activeCtrl = s.activeCtrl := rfl
@[simp] theorem buildTree_flags (s : State) : (buildTree s).flags = setTreeFlags (arenaRoot (buildArena s.freq) == Config.nilIndex) (rootIsLeaf (buildArena s.freq).node (arenaRoot (buildArena s.freq))) s.flags := rfl
@[simp] theorem buildTree_errInfo (s : State) : (buildTree s).errInfo = s.errInfo := rfl
@[simp] theorem buildTree_nsym (s : State) : (buildTree s).nsym = BitVec.ofNat 9 (addLeaves s.freq).idx := rfl
@[simp] theorem buildTree_root (s : State) : (buildTree s).root = arenaRoot (buildArena s.freq) := rfl
@[simp] theorem buildTree_cursor (s : State) : (buildTree s).cursor = arenaRoot (buildArena s.freq) := rfl
@[simp] theorem buildTree_bitBuf (s : State) : (buildTree s).bitBuf = s.bitBuf := rfl
@[simp] theorem buildTree_bitCnt (s : State) : (buildTree s).bitCnt = s.bitCnt := rfl
@[simp] theorem buildTree_hdrStage (s : State) : (buildTree s).hdrStage = s.hdrStage := rfl
@[simp] theorem buildTree_hdrPos (s : State) : (buildTree s).hdrPos = s.hdrPos := rfl
@[simp] theorem buildTree_hdrLeft (s : State) : (buildTree s).hdrLeft = s.hdrLeft := rfl
@[simp] theorem buildTree_hdrSym (s : State) : (buildTree s).hdrSym = s.hdrSym := rfl
@[simp] theorem buildTree_hdrAcc (s : State) : (buildTree s).hdrAcc = s.hdrAcc := rfl
@[simp] theorem buildTree_total (s : State) : (buildTree s).total = weightAt (buildArena s.freq).node (arenaRoot (buildArena s.freq)) := rfl
@[simp] theorem buildTree_encCount (s : State) : (buildTree s).encCount = s.encCount := rfl
@[simp] theorem buildTree_outCount (s : State) : (buildTree s).outCount = s.outCount := rfl
@[simp] theorem buildTree_freq (s : State) : (buildTree s).freq = s.freq := rfl
@[simp] theorem buildTree_node (s : State) : (buildTree s).node = (buildArena s.freq).node := rfl
@[simp] theorem buildTree_code (s : State) : (buildTree s).code = assignCodes (buildArena s.freq).node (arenaRoot (buildArena s.freq)) := rfl
@[simp] theorem buildTree_out (s : State) : (buildTree s).out = s.out := rfl
@[simp] theorem buildTree_drained (s : State) : (buildTree s).drained = s.drained := rfl
@[simp] theorem buildTree_input (s : State) : (buildTree s).input = s.input := rfl

/-! ## HeaderComplete (43_container_header.md R216) -/

@[simp] theorem headerComplete_phase (s : State) : (headerComplete s).phase = .decPayload := rfl
@[simp] theorem headerComplete_ctrl (s : State) : (headerComplete s).ctrl = s.ctrl := rfl
@[simp] theorem headerComplete_activeCtrl (s : State) : (headerComplete s).activeCtrl = s.activeCtrl := rfl
@[simp] theorem headerComplete_flags (s : State) : (headerComplete s).flags = setTreeFlags (arenaRoot (buildArena s.freq) == Config.nilIndex) (rootIsLeaf (buildArena s.freq).node (arenaRoot (buildArena s.freq))) s.flags := rfl
@[simp] theorem headerComplete_errInfo (s : State) : (headerComplete s).errInfo = s.errInfo := rfl
@[simp] theorem headerComplete_nsym (s : State) : (headerComplete s).nsym = BitVec.ofNat 9 (addLeaves s.freq).idx := rfl
@[simp] theorem headerComplete_root (s : State) : (headerComplete s).root = arenaRoot (buildArena s.freq) := rfl
@[simp] theorem headerComplete_cursor (s : State) : (headerComplete s).cursor = arenaRoot (buildArena s.freq) := rfl
@[simp] theorem headerComplete_bitBuf (s : State) : (headerComplete s).bitBuf = s.bitBuf := rfl
@[simp] theorem headerComplete_bitCnt (s : State) : (headerComplete s).bitCnt = s.bitCnt := rfl
@[simp] theorem headerComplete_hdrStage (s : State) : (headerComplete s).hdrStage = .done := rfl
@[simp] theorem headerComplete_hdrPos (s : State) : (headerComplete s).hdrPos = s.hdrPos := rfl
@[simp] theorem headerComplete_hdrLeft (s : State) : (headerComplete s).hdrLeft = s.hdrLeft := rfl
@[simp] theorem headerComplete_hdrSym (s : State) : (headerComplete s).hdrSym = s.hdrSym := rfl
@[simp] theorem headerComplete_hdrAcc (s : State) : (headerComplete s).hdrAcc = s.hdrAcc := rfl
@[simp] theorem headerComplete_total (s : State) : (headerComplete s).total = weightAt (buildArena s.freq).node (arenaRoot (buildArena s.freq)) := rfl
@[simp] theorem headerComplete_encCount (s : State) : (headerComplete s).encCount = s.encCount := rfl
@[simp] theorem headerComplete_outCount (s : State) : (headerComplete s).outCount = s.outCount := rfl
@[simp] theorem headerComplete_freq (s : State) : (headerComplete s).freq = s.freq := rfl
@[simp] theorem headerComplete_node (s : State) : (headerComplete s).node = (buildArena s.freq).node := rfl
@[simp] theorem headerComplete_code (s : State) : (headerComplete s).code = assignCodes (buildArena s.freq).node (arenaRoot (buildArena s.freq)) := by
  unfold headerComplete
  simp only [buildTree_code]
@[simp] theorem headerComplete_out (s : State) : (headerComplete s).out = s.out := rfl
@[simp] theorem headerComplete_drained (s : State) : (headerComplete s).drained = s.drained := rfl
@[simp] theorem headerComplete_input (s : State) : (headerComplete s).input = s.input := rfl

/-! ## A byte inside a header field (43_container_header.md R213, R215) -/

@[simp] theorem absorb_phase (b : Byte) (s : State) : (absorb b s).phase = s.phase := rfl
@[simp] theorem absorb_ctrl (b : Byte) (s : State) : (absorb b s).ctrl = s.ctrl := rfl
@[simp] theorem absorb_activeCtrl (b : Byte) (s : State) : (absorb b s).activeCtrl = s.activeCtrl := rfl
@[simp] theorem absorb_flags (b : Byte) (s : State) : (absorb b s).flags = s.flags := rfl
@[simp] theorem absorb_errInfo (b : Byte) (s : State) : (absorb b s).errInfo = s.errInfo := rfl
@[simp] theorem absorb_nsym (b : Byte) (s : State) : (absorb b s).nsym = s.nsym := rfl
@[simp] theorem absorb_root (b : Byte) (s : State) : (absorb b s).root = s.root := rfl
@[simp] theorem absorb_cursor (b : Byte) (s : State) : (absorb b s).cursor = s.cursor := rfl
@[simp] theorem absorb_bitBuf (b : Byte) (s : State) : (absorb b s).bitBuf = s.bitBuf := rfl
@[simp] theorem absorb_bitCnt (b : Byte) (s : State) : (absorb b s).bitCnt = s.bitCnt := rfl
@[simp] theorem absorb_hdrStage (b : Byte) (s : State) : (absorb b s).hdrStage = s.hdrStage := rfl
@[simp] theorem absorb_hdrPos (b : Byte) (s : State) : (absorb b s).hdrPos = BitVec.ofNat 4 (s.hdrPos.toNat + 1) := rfl
@[simp] theorem absorb_hdrLeft (b : Byte) (s : State) : (absorb b s).hdrLeft = s.hdrLeft := rfl
@[simp] theorem absorb_hdrSym (b : Byte) (s : State) : (absorb b s).hdrSym = s.hdrSym := rfl
@[simp] theorem absorb_hdrAcc (b : Byte) (s : State) : (absorb b s).hdrAcc = nextAcc b s := rfl
@[simp] theorem absorb_total (b : Byte) (s : State) : (absorb b s).total = s.total := rfl
@[simp] theorem absorb_encCount (b : Byte) (s : State) : (absorb b s).encCount = s.encCount := rfl
@[simp] theorem absorb_outCount (b : Byte) (s : State) : (absorb b s).outCount = s.outCount := rfl
@[simp] theorem absorb_freq (b : Byte) (s : State) : (absorb b s).freq = s.freq := rfl
@[simp] theorem absorb_node (b : Byte) (s : State) : (absorb b s).node = s.node := rfl
@[simp] theorem absorb_code (b : Byte) (s : State) : (absorb b s).code = s.code := rfl
@[simp] theorem absorb_out (b : Byte) (s : State) : (absorb b s).out = s.out := rfl
@[simp] theorem absorb_drained (b : Byte) (s : State) : (absorb b s).drained = s.drained := rfl
@[simp] theorem absorb_input (b : Byte) (s : State) : (absorb b s).input = s.input := rfl

/-! ## The end of DEC_END (45_decoder.md R265) -/

@[simp] theorem closeDecode_phase (s : State) : (closeDecode s).phase = .decDone := rfl
@[simp] theorem closeDecode_ctrl (s : State) : (closeDecode s).ctrl = s.ctrl := rfl
@[simp] theorem closeDecode_activeCtrl (s : State) : (closeDecode s).activeCtrl = s.activeCtrl := rfl
@[simp] theorem closeDecode_flags (s : State) : (closeDecode s).flags = setEndFlags (s.cursor != s.root) (decide (s.outCount < s.total)) s.flags := rfl
@[simp] theorem closeDecode_errInfo (s : State) : (closeDecode s).errInfo = s.errInfo := rfl
@[simp] theorem closeDecode_nsym (s : State) : (closeDecode s).nsym = s.nsym := rfl
@[simp] theorem closeDecode_root (s : State) : (closeDecode s).root = s.root := rfl
@[simp] theorem closeDecode_cursor (s : State) : (closeDecode s).cursor = s.cursor := rfl
@[simp] theorem closeDecode_bitBuf (s : State) : (closeDecode s).bitBuf = s.bitBuf := rfl
@[simp] theorem closeDecode_bitCnt (s : State) : (closeDecode s).bitCnt = s.bitCnt := rfl
@[simp] theorem closeDecode_hdrStage (s : State) : (closeDecode s).hdrStage = s.hdrStage := rfl
@[simp] theorem closeDecode_hdrPos (s : State) : (closeDecode s).hdrPos = s.hdrPos := rfl
@[simp] theorem closeDecode_hdrLeft (s : State) : (closeDecode s).hdrLeft = s.hdrLeft := rfl
@[simp] theorem closeDecode_hdrSym (s : State) : (closeDecode s).hdrSym = s.hdrSym := rfl
@[simp] theorem closeDecode_hdrAcc (s : State) : (closeDecode s).hdrAcc = s.hdrAcc := rfl
@[simp] theorem closeDecode_total (s : State) : (closeDecode s).total = s.total := rfl
@[simp] theorem closeDecode_encCount (s : State) : (closeDecode s).encCount = s.encCount := rfl
@[simp] theorem closeDecode_outCount (s : State) : (closeDecode s).outCount = s.outCount := rfl
@[simp] theorem closeDecode_freq (s : State) : (closeDecode s).freq = s.freq := rfl
@[simp] theorem closeDecode_node (s : State) : (closeDecode s).node = s.node := rfl
@[simp] theorem closeDecode_code (s : State) : (closeDecode s).code = s.code := rfl
@[simp] theorem closeDecode_out (s : State) : (closeDecode s).out = s.out := rfl
@[simp] theorem closeDecode_drained (s : State) : (closeDecode s).drained = s.drained := rfl
@[simp] theorem closeDecode_input (s : State) : (closeDecode s).input = s.input := rfl

/-! ## Status flags (10_state.md R26) -/

@[simp] theorem setTreeFlags_treeValid (e d : Bool) (f : StatusFlags) : (setTreeFlags e d f).treeValid = true := rfl
@[simp] theorem setTreeFlags_treeEmpty (e d : Bool) (f : StatusFlags) : (setTreeFlags e d f).treeEmpty = e := rfl
@[simp] theorem setTreeFlags_degenerate (e d : Bool) (f : StatusFlags) : (setTreeFlags e d f).degenerate = d := rfl
@[simp] theorem setTreeFlags_overrun (e d : Bool) (f : StatusFlags) : (setTreeFlags e d f).overrun = f.overrun := rfl
@[simp] theorem setTreeFlags_underrun (e d : Bool) (f : StatusFlags) : (setTreeFlags e d f).underrun = f.underrun := rfl
@[simp] theorem setTreeFlags_tailPartial (e d : Bool) (f : StatusFlags) : (setTreeFlags e d f).tailPartial = f.tailPartial := rfl
@[simp] theorem setTreeFlags_encMismatch (e d : Bool) (f : StatusFlags) : (setTreeFlags e d f).encMismatch = f.encMismatch := rfl
@[simp] theorem setOverrun_treeValid (f : StatusFlags) : (setOverrun f).treeValid = f.treeValid := rfl
@[simp] theorem setOverrun_treeEmpty (f : StatusFlags) : (setOverrun f).treeEmpty = f.treeEmpty := rfl
@[simp] theorem setOverrun_degenerate (f : StatusFlags) : (setOverrun f).degenerate = f.degenerate := rfl
@[simp] theorem setOverrun_overrun (f : StatusFlags) : (setOverrun f).overrun = true := rfl
@[simp] theorem setOverrun_underrun (f : StatusFlags) : (setOverrun f).underrun = f.underrun := rfl
@[simp] theorem setOverrun_tailPartial (f : StatusFlags) : (setOverrun f).tailPartial = f.tailPartial := rfl
@[simp] theorem setOverrun_encMismatch (f : StatusFlags) : (setOverrun f).encMismatch = f.encMismatch := rfl
@[simp] theorem setEndFlags_treeValid (t u : Bool) (f : StatusFlags) : (setEndFlags t u f).treeValid = f.treeValid := rfl
@[simp] theorem setEndFlags_treeEmpty (t u : Bool) (f : StatusFlags) : (setEndFlags t u f).treeEmpty = f.treeEmpty := rfl
@[simp] theorem setEndFlags_degenerate (t u : Bool) (f : StatusFlags) : (setEndFlags t u f).degenerate = f.degenerate := rfl
@[simp] theorem setEndFlags_overrun (t u : Bool) (f : StatusFlags) : (setEndFlags t u f).overrun = f.overrun := rfl
@[simp] theorem setEndFlags_underrun (t u : Bool) (f : StatusFlags) : (setEndFlags t u f).underrun = u := rfl
@[simp] theorem setEndFlags_tailPartial (t u : Bool) (f : StatusFlags) : (setEndFlags t u f).tailPartial = t := rfl
@[simp] theorem setEndFlags_encMismatch (t u : Bool) (f : StatusFlags) : (setEndFlags t u f).encMismatch = f.encMismatch := rfl
@[simp] theorem setEncMismatch_treeValid (m : Bool) (f : StatusFlags) : (setEncMismatch m f).treeValid = f.treeValid := rfl
@[simp] theorem setEncMismatch_treeEmpty (m : Bool) (f : StatusFlags) : (setEncMismatch m f).treeEmpty = f.treeEmpty := rfl
@[simp] theorem setEncMismatch_degenerate (m : Bool) (f : StatusFlags) : (setEncMismatch m f).degenerate = f.degenerate := rfl
@[simp] theorem setEncMismatch_overrun (m : Bool) (f : StatusFlags) : (setEncMismatch m f).overrun = f.overrun := rfl
@[simp] theorem setEncMismatch_underrun (m : Bool) (f : StatusFlags) : (setEncMismatch m f).underrun = f.underrun := rfl
@[simp] theorem setEncMismatch_tailPartial (m : Bool) (f : StatusFlags) : (setEncMismatch m f).tailPartial = f.tailPartial := rfl
@[simp] theorem setEncMismatch_encMismatch (m : Bool) (f : StatusFlags) : (setEncMismatch m f).encMismatch = m := rfl

/-! ## Operations with two cases: the fields they leave alone -/

@[simp] theorem drainOne_phase (s : State) : (drainOne s).phase = s.phase := by unfold drainOne; split <;> rfl
@[simp] theorem drainOne_ctrl (s : State) : (drainOne s).ctrl = s.ctrl := by unfold drainOne; split <;> rfl
@[simp] theorem drainOne_activeCtrl (s : State) : (drainOne s).activeCtrl = s.activeCtrl := by unfold drainOne; split <;> rfl
@[simp] theorem drainOne_flags (s : State) : (drainOne s).flags = s.flags := by unfold drainOne; split <;> rfl
@[simp] theorem drainOne_errInfo (s : State) : (drainOne s).errInfo = s.errInfo := by unfold drainOne; split <;> rfl
@[simp] theorem drainOne_nsym (s : State) : (drainOne s).nsym = s.nsym := by unfold drainOne; split <;> rfl
@[simp] theorem drainOne_root (s : State) : (drainOne s).root = s.root := by unfold drainOne; split <;> rfl
@[simp] theorem drainOne_cursor (s : State) : (drainOne s).cursor = s.cursor := by unfold drainOne; split <;> rfl
@[simp] theorem drainOne_bitBuf (s : State) : (drainOne s).bitBuf = s.bitBuf := by unfold drainOne; split <;> rfl
@[simp] theorem drainOne_bitCnt (s : State) : (drainOne s).bitCnt = s.bitCnt := by unfold drainOne; split <;> rfl
@[simp] theorem drainOne_hdrStage (s : State) : (drainOne s).hdrStage = s.hdrStage := by unfold drainOne; split <;> rfl
@[simp] theorem drainOne_hdrPos (s : State) : (drainOne s).hdrPos = s.hdrPos := by unfold drainOne; split <;> rfl
@[simp] theorem drainOne_hdrLeft (s : State) : (drainOne s).hdrLeft = s.hdrLeft := by unfold drainOne; split <;> rfl
@[simp] theorem drainOne_hdrSym (s : State) : (drainOne s).hdrSym = s.hdrSym := by unfold drainOne; split <;> rfl
@[simp] theorem drainOne_hdrAcc (s : State) : (drainOne s).hdrAcc = s.hdrAcc := by unfold drainOne; split <;> rfl
@[simp] theorem drainOne_total (s : State) : (drainOne s).total = s.total := by unfold drainOne; split <;> rfl
@[simp] theorem drainOne_encCount (s : State) : (drainOne s).encCount = s.encCount := by unfold drainOne; split <;> rfl
@[simp] theorem drainOne_outCount (s : State) : (drainOne s).outCount = s.outCount := by unfold drainOne; split <;> rfl
@[simp] theorem drainOne_freq (s : State) : (drainOne s).freq = s.freq := by unfold drainOne; split <;> rfl
@[simp] theorem drainOne_node (s : State) : (drainOne s).node = s.node := by unfold drainOne; split <;> rfl
@[simp] theorem drainOne_code (s : State) : (drainOne s).code = s.code := by unfold drainOne; split <;> rfl
@[simp] theorem drainOne_out (s : State) : (drainOne s).out = s.out := by unfold drainOne; split <;> rfl
@[simp] theorem drainOne_input (s : State) : (drainOne s).input = s.input := by unfold drainOne; split <;> rfl

@[simp] theorem flushBits_phase (s : State) : (flushBits s).phase = s.phase := by unfold flushBits; split <;> rfl
@[simp] theorem flushBits_ctrl (s : State) : (flushBits s).ctrl = s.ctrl := by unfold flushBits; split <;> rfl
@[simp] theorem flushBits_activeCtrl (s : State) : (flushBits s).activeCtrl = s.activeCtrl := by unfold flushBits; split <;> rfl
@[simp] theorem flushBits_flags (s : State) : (flushBits s).flags = s.flags := by unfold flushBits; split <;> rfl
@[simp] theorem flushBits_errInfo (s : State) : (flushBits s).errInfo = s.errInfo := by unfold flushBits; split <;> rfl
@[simp] theorem flushBits_nsym (s : State) : (flushBits s).nsym = s.nsym := by unfold flushBits; split <;> rfl
@[simp] theorem flushBits_root (s : State) : (flushBits s).root = s.root := by unfold flushBits; split <;> rfl
@[simp] theorem flushBits_cursor (s : State) : (flushBits s).cursor = s.cursor := by unfold flushBits; split <;> rfl
@[simp] theorem flushBits_hdrStage (s : State) : (flushBits s).hdrStage = s.hdrStage := by unfold flushBits; split <;> rfl
@[simp] theorem flushBits_hdrPos (s : State) : (flushBits s).hdrPos = s.hdrPos := by unfold flushBits; split <;> rfl
@[simp] theorem flushBits_hdrLeft (s : State) : (flushBits s).hdrLeft = s.hdrLeft := by unfold flushBits; split <;> rfl
@[simp] theorem flushBits_hdrSym (s : State) : (flushBits s).hdrSym = s.hdrSym := by unfold flushBits; split <;> rfl
@[simp] theorem flushBits_hdrAcc (s : State) : (flushBits s).hdrAcc = s.hdrAcc := by unfold flushBits; split <;> rfl
@[simp] theorem flushBits_total (s : State) : (flushBits s).total = s.total := by unfold flushBits; split <;> rfl
@[simp] theorem flushBits_encCount (s : State) : (flushBits s).encCount = s.encCount := by unfold flushBits; split <;> rfl
@[simp] theorem flushBits_outCount (s : State) : (flushBits s).outCount = s.outCount := by unfold flushBits; split <;> rfl
@[simp] theorem flushBits_freq (s : State) : (flushBits s).freq = s.freq := by unfold flushBits; split <;> rfl
@[simp] theorem flushBits_node (s : State) : (flushBits s).node = s.node := by unfold flushBits; split <;> rfl
@[simp] theorem flushBits_code (s : State) : (flushBits s).code = s.code := by unfold flushBits; split <;> rfl
@[simp] theorem flushBits_drained (s : State) : (flushBits s).drained = s.drained := by unfold flushBits; split <;> rfl
@[simp] theorem flushBits_input (s : State) : (flushBits s).input = s.input := by unfold flushBits; split <;> rfl

@[simp] theorem regenerate_phase (s : State) : (regenerate s).phase = s.phase := by unfold regenerate; split <;> [rfl; (split <;> rfl)]
@[simp] theorem regenerate_ctrl (s : State) : (regenerate s).ctrl = s.ctrl := by unfold regenerate; split <;> [rfl; (split <;> rfl)]
@[simp] theorem regenerate_activeCtrl (s : State) : (regenerate s).activeCtrl = s.activeCtrl := by unfold regenerate; split <;> [rfl; (split <;> rfl)]
@[simp] theorem regenerate_flags (s : State) : (regenerate s).flags = s.flags := by unfold regenerate; split <;> [rfl; (split <;> rfl)]
@[simp] theorem regenerate_errInfo (s : State) : (regenerate s).errInfo = s.errInfo := by unfold regenerate; split <;> [rfl; (split <;> rfl)]
@[simp] theorem regenerate_nsym (s : State) : (regenerate s).nsym = s.nsym := by unfold regenerate; split <;> [rfl; (split <;> rfl)]
@[simp] theorem regenerate_root (s : State) : (regenerate s).root = s.root := by unfold regenerate; split <;> [rfl; (split <;> rfl)]
@[simp] theorem regenerate_cursor (s : State) : (regenerate s).cursor = s.cursor := by unfold regenerate; split <;> [rfl; (split <;> rfl)]
@[simp] theorem regenerate_bitBuf (s : State) : (regenerate s).bitBuf = s.bitBuf := by unfold regenerate; split <;> [rfl; (split <;> rfl)]
@[simp] theorem regenerate_bitCnt (s : State) : (regenerate s).bitCnt = s.bitCnt := by unfold regenerate; split <;> [rfl; (split <;> rfl)]
@[simp] theorem regenerate_hdrStage (s : State) : (regenerate s).hdrStage = s.hdrStage := by unfold regenerate; split <;> [rfl; (split <;> rfl)]
@[simp] theorem regenerate_hdrPos (s : State) : (regenerate s).hdrPos = s.hdrPos := by unfold regenerate; split <;> [rfl; (split <;> rfl)]
@[simp] theorem regenerate_hdrLeft (s : State) : (regenerate s).hdrLeft = s.hdrLeft := by unfold regenerate; split <;> [rfl; (split <;> rfl)]
@[simp] theorem regenerate_hdrSym (s : State) : (regenerate s).hdrSym = s.hdrSym := by unfold regenerate; split <;> [rfl; (split <;> rfl)]
@[simp] theorem regenerate_hdrAcc (s : State) : (regenerate s).hdrAcc = s.hdrAcc := by unfold regenerate; split <;> [rfl; (split <;> rfl)]
@[simp] theorem regenerate_total (s : State) : (regenerate s).total = s.total := by unfold regenerate; split <;> [rfl; (split <;> rfl)]
@[simp] theorem regenerate_encCount (s : State) : (regenerate s).encCount = s.encCount := by unfold regenerate; split <;> [rfl; (split <;> rfl)]
@[simp] theorem regenerate_freq (s : State) : (regenerate s).freq = s.freq := by unfold regenerate; split <;> [rfl; (split <;> rfl)]
@[simp] theorem regenerate_node (s : State) : (regenerate s).node = s.node := by unfold regenerate; split <;> [rfl; (split <;> rfl)]
@[simp] theorem regenerate_code (s : State) : (regenerate s).code = s.code := by unfold regenerate; split <;> [rfl; (split <;> rfl)]
@[simp] theorem regenerate_drained (s : State) : (regenerate s).drained = s.drained := by unfold regenerate; split <;> [rfl; (split <;> rfl)]
@[simp] theorem regenerate_input (s : State) : (regenerate s).input = s.input := by unfold regenerate; split <;> [rfl; (split <;> rfl)]

/-! ## WalkBit at a leaf (45_decoder.md R264) -/

@[simp] theorem leafReached_phase (y : Byte) (s : State) : (leafReached y s).phase = s.phase := by unfold leafReached; split <;> [rfl; (split <;> rfl)]
@[simp] theorem leafReached_ctrl (y : Byte) (s : State) : (leafReached y s).ctrl = s.ctrl := by unfold leafReached; split <;> [rfl; (split <;> rfl)]
@[simp] theorem leafReached_activeCtrl (y : Byte) (s : State) : (leafReached y s).activeCtrl = s.activeCtrl := by unfold leafReached; split <;> [rfl; (split <;> rfl)]
@[simp] theorem leafReached_errInfo (y : Byte) (s : State) : (leafReached y s).errInfo = s.errInfo := by unfold leafReached; split <;> [rfl; (split <;> rfl)]
@[simp] theorem leafReached_nsym (y : Byte) (s : State) : (leafReached y s).nsym = s.nsym := by unfold leafReached; split <;> [rfl; (split <;> rfl)]
@[simp] theorem leafReached_root (y : Byte) (s : State) : (leafReached y s).root = s.root := by unfold leafReached; split <;> [rfl; (split <;> rfl)]
@[simp] theorem leafReached_cursor (y : Byte) (s : State) : (leafReached y s).cursor = s.cursor := by unfold leafReached; split <;> [rfl; (split <;> rfl)]
@[simp] theorem leafReached_bitBuf (y : Byte) (s : State) : (leafReached y s).bitBuf = s.bitBuf := by unfold leafReached; split <;> [rfl; (split <;> rfl)]
@[simp] theorem leafReached_bitCnt (y : Byte) (s : State) : (leafReached y s).bitCnt = s.bitCnt := by unfold leafReached; split <;> [rfl; (split <;> rfl)]
@[simp] theorem leafReached_hdrStage (y : Byte) (s : State) : (leafReached y s).hdrStage = s.hdrStage := by unfold leafReached; split <;> [rfl; (split <;> rfl)]
@[simp] theorem leafReached_hdrPos (y : Byte) (s : State) : (leafReached y s).hdrPos = s.hdrPos := by unfold leafReached; split <;> [rfl; (split <;> rfl)]
@[simp] theorem leafReached_hdrLeft (y : Byte) (s : State) : (leafReached y s).hdrLeft = s.hdrLeft := by unfold leafReached; split <;> [rfl; (split <;> rfl)]
@[simp] theorem leafReached_hdrSym (y : Byte) (s : State) : (leafReached y s).hdrSym = s.hdrSym := by unfold leafReached; split <;> [rfl; (split <;> rfl)]
@[simp] theorem leafReached_hdrAcc (y : Byte) (s : State) : (leafReached y s).hdrAcc = s.hdrAcc := by unfold leafReached; split <;> [rfl; (split <;> rfl)]
@[simp] theorem leafReached_total (y : Byte) (s : State) : (leafReached y s).total = s.total := by unfold leafReached; split <;> [rfl; (split <;> rfl)]
@[simp] theorem leafReached_encCount (y : Byte) (s : State) : (leafReached y s).encCount = s.encCount := by unfold leafReached; split <;> [rfl; (split <;> rfl)]
@[simp] theorem leafReached_freq (y : Byte) (s : State) : (leafReached y s).freq = s.freq := by unfold leafReached; split <;> [rfl; (split <;> rfl)]
@[simp] theorem leafReached_node (y : Byte) (s : State) : (leafReached y s).node = s.node := by unfold leafReached; split <;> [rfl; (split <;> rfl)]
@[simp] theorem leafReached_code (y : Byte) (s : State) : (leafReached y s).code = s.code := by unfold leafReached; split <;> [rfl; (split <;> rfl)]
@[simp] theorem leafReached_drained (y : Byte) (s : State) : (leafReached y s).drained = s.drained := by unfold leafReached; split <;> [rfl; (split <;> rfl)]
@[simp] theorem leafReached_input (y : Byte) (s : State) : (leafReached y s).input = s.input := by unfold leafReached; split <;> [rfl; (split <;> rfl)]

end Sys2Proof.Machine
end

