-- ==== Sys2Proof/Laws/Decoder.lean ====
section
/-!
SUPPORT. The tree walker (45_decoder.md R264): what one bit can do, and that the bits of a path walk down to its leaf.
-/

namespace Sys2Proof.Machine

/-- What one bit does, when the walk does not meet NIL (R264). -/
theorem walkBit_cases {c : Bool} {s t : State} (h : walkBit c s = some t) :
    ∃ e d, nodeAt s.node s.cursor = some e ∧ nodeAt s.node (childOf e c) = some d ∧
      ((d.internal = true ∧ t = { s with cursor := childOf e c }) ∨
        (d.internal = false ∧ t = { leafReached d.sym s with cursor := s.root })) := by
  unfold walkBit at h
  split at h
  · cases h
  · next e he =>
    split at h
    · cases h
    · next d hd =>
      refine ⟨e, d, he, hd, ?_⟩
      have ht := (Option.some.inj h).symm
      unfold arriveAt at ht
      cases hi : d.internal
      · rw [hi, if_neg (by simp)] at ht
        exact .inr ⟨rfl, ht⟩
      · rw [hi, if_pos rfl] at ht
        exact .inl ⟨rfl, ht⟩

/-- What reaching a leaf does to the output and the counter (R264). -/
theorem leafReached_cases (y : Byte) (s : State) :
    (s.outCount < s.total ∧ leafReached y s = { s with out := s.out ++ [y], outCount := s.outCount + 1 }) ∨
    (¬s.outCount < s.total ∧ compatTail s.activeCtrl = true ∧
      leafReached y s =
        { s with out := s.out ++ [y], flags := setOverrun s.flags, outCount := satInc s.outCount }) ∨
    (¬s.outCount < s.total ∧ compatTail s.activeCtrl = false ∧
      leafReached y s = { s with flags := setOverrun s.flags }) := by
  unfold leafReached
  split
  · next h => exact .inl ⟨h, rfl⟩
  · next h =>
    split
    · next hc => exact .inr (.inl ⟨h, hc, rfl⟩)
    · next hc => exact .inr (.inr ⟨h, by simpa using hc, rfl⟩)

/-- What reaching a leaf does has nothing to do with CURSOR. -/
theorem leafReached_withCursor (y : Byte) (n : NodeIndex) (s : State) :
    leafReached y { s with cursor := n } = { leafReached y s with cursor := n } := by
  unfold leafReached
  split
  · rfl
  · split <;> rfl

theorem walkBits_append (p q : List Bool) (s : State) :
    walkBits (p ++ q) s = (walkBits p s).bind (walkBits q) := by
  induction p generalizing s with
  | nil => rfl
  | cons c cs ih =>
    simp only [List.cons_append, walkBits]
    split
    · rfl
    · exact ih _

/-- The bits of a path from CURSOR to a leaf end in that leaf's effect, with CURSOR at ROOT again (R264). -/
theorem walkBits_path (s : State) (q : List Bool) (n m : NodeIndex) (e : NodeEntry) (hn : s.cursor = n) (hq : q ≠ [])
    (hp : pathEnd s.node n q = some m) (he : nodeAt s.node m = some e) (hl : e.internal = false) :
    walkBits q s = some { leafReached e.sym s with cursor := s.root } := by
  induction q generalizing s n with
  | nil => exact absurd rfl hq
  | cons c cs ih =>
    simp only [pathEnd] at hp
    split at hp
    · cases hp
    · next d hd =>
      split at hp
      · next hi =>
        cases cs with
        | nil =>
          cases hp
          simp only [walkBits, walkBit, hn, hd, he, arriveAt, hl]
          rfl
        | cons c' cs =>
          have hp' := hp
          simp only [pathEnd] at hp'
          split at hp'
          · cases hp'
          · next f hf =>
            split at hp'
            · next hfi =>
              have hw : walkBit c s = some { s with cursor := childOf d c } := by
                simp only [walkBit, hn, hd, hf, arriveAt, hfi, if_true]
              rw [walkBits, hw]
              have hi := ih { s with cursor := childOf d c } _ rfl (by simp) hp he
              rw [leafReached_withCursor] at hi
              exact hi
            · cases hp'
      · cases hp

end Sys2Proof.Machine
end

