-- ==== Sys2Proof/Laws/Dispatch.lean ====
section
/-!
SUPPORT. What dispatch can do (30_encoding.md R108), said once for every command.
-/

namespace Sys2Proof.Machine

/-- The rule each command's meaning hands to dispatch. -/
def ruleOf (i : Instr) : State → Effect :=
  match i with
  | .nop => nopRule
  | .clear => clearRule
  | .wrctrl f => wrctrlRule f
  | .abort r => abortRule r
  | .count b => countRule b
  | .build => buildRule
  | .hdrEmit => hdrEmitRule
  | .encode b => encodeRule b
  | .flush => flushRule
  | .decStart => decStartRule
  | .decByte b => decByteRule b
  | .decEnd => decEndRule

theorem exec_eq_dispatch (i : Instr) (s : State) : exec i s = dispatch i (ruleOf i) s := by
  cases i <;> rfl

/-- A well-formed command in a phase that allows it runs its own rule. -/
theorem dispatch_runs (i : Instr) (body : State → Effect) (s : State) (hw : i.WF)
    (he : s.phase ≠ .error ∨ recovers i = true) (ha : allowed i s.phase = true) :
    dispatch i body s = settle i.opcode s (body s) := by
  unfold dispatch
  rw [if_neg, if_neg (by simpa using hw), if_neg (by simpa using ha)]
  rintro ⟨h1, h2⟩
  rcases he with he | he
  · exact he h1
  · exact h2 ⟨hw, he⟩

/-- In ERROR a command that does not recover is discarded (60_exceptions.md R305). -/
theorem dispatch_discards (i : Instr) (body : State → Effect) (s : State) (h : s.phase = .error)
    (hr : recovers i = false) : dispatch i body s = .next s := by
  unfold dispatch
  rw [if_pos ⟨h, fun hw => by rw [hr] at hw; exact absurd hw.2 (by simp)⟩]

/-- Outside ERROR, a well-formed command its phase does not allow raises SEQUENCE (30_encoding.md R107). -/
theorem dispatch_sequence (i : Instr) (body : State → Effect) (s : State) (hw : i.WF) (h : s.phase ≠ .error)
    (ha : allowed i s.phase = false) : dispatch i body s = .next (errorEntry i.opcode .sequence 0 s) := by
  unfold dispatch
  rw [if_neg (fun hh => h hh.1), if_neg (by simpa using hw), if_pos (by simp [ha])]

/-- The four ways a command ends in a next state: discarded, an error of dispatch, an error of its own rule, or its own
rule's state. -/
theorem dispatch_next_cases {i : Instr} {body : State → Effect} {s t : State} (h : dispatch i body s = .next t) :
    (s.phase = .error ∧ ¬(i.WF ∧ recovers i = true) ∧ t = s) ∨
    (s.phase ≠ .error ∧ ((¬i.WF ∧ t = errorEntry i.opcode .illegalCommand 0 s) ∨
      (i.WF ∧ allowed i s.phase = false ∧ t = errorEntry i.opcode .sequence 0 s))) ∨
    (i.WF ∧ (s.phase ≠ .error ∨ recovers i = true) ∧ allowed i s.phase = true ∧
      ((∃ c sub, body s = .raise c sub ∧ t = errorEntry i.opcode c sub s) ∨ body s = .done t)) := by
  unfold dispatch at h
  by_cases h1 : s.phase = .error ∧ ¬(i.WF ∧ recovers i = true)
  · rw [if_pos h1] at h
    cases h
    exact .inl ⟨h1.1, h1.2, rfl⟩
  · rw [if_neg h1] at h
    have h1' : s.phase ≠ .error ∨ (i.WF ∧ recovers i = true) := by tauto
    by_cases h2 : i.WF
    · rw [if_neg (by simpa using h2)] at h
      by_cases h3 : allowed i s.phase = true
      · rw [if_neg (by simpa using h3)] at h
        refine .inr (.inr ⟨h2, h1'.imp id And.right, h3, ?_⟩)
        unfold settle at h
        split at h
        · next he =>
          cases h
          exact .inr he
        · next c sub he =>
          cases h
          exact .inl ⟨c, sub, he, rfl⟩
        · cases h
      · rw [if_pos h3] at h
        cases h
        have hne : s.phase ≠ .error := by
          rcases h1' with h1' | ⟨-, hr⟩
          · exact h1'
          · exfalso
            apply h3
            cases i <;> first | rfl | cases hr
        exact .inr (.inl ⟨hne, .inr ⟨h2, by simpa using h3, rfl⟩⟩)
    · rw [if_pos h2] at h
      cases h
      have hne : s.phase ≠ .error := by
        rcases h1' with h1' | ⟨hw, -⟩
        · exact h1'
        · exact absurd hw h2
      exact .inr (.inl ⟨hne, .inl ⟨h2, rfl⟩⟩)

/-- The step that consumes a command word. -/
theorem step_command (s : State) (w : CmdWord) (rest : List HostInput) (h : s.input = .command w :: rest) :
    step s = stepWord w { s with input := rest } := by
  unfold step
  rw [h]

end Sys2Proof.Machine
end

