-- ==== Sys2Proof/Laws/Encoding.lean ====
section
/-!
SUPPORT. The two fields of a command word (30_encoding.md R100).
-/

namespace Sys2Proof

theorem opcodeOf_append (op a : Byte) : opcodeOf (op ++ a) = op := by
  apply BitVec.eq_of_getLsbD_eq
  intro i hi
  simp only [opcodeOf, BitVec.getLsbD_extractLsb', BitVec.getLsbD_append, hi, decide_true, Bool.true_and]
  rw [if_neg (by omega), Nat.add_sub_cancel_left]

theorem operandOf_append (op a : Byte) : operandOf (op ++ a) = a := by
  apply BitVec.eq_of_getLsbD_eq
  intro i hi
  simp only [operandOf, BitVec.getLsbD_extractLsb', BitVec.getLsbD_append, hi, decide_true, Bool.true_and,
    Nat.zero_add, if_true]

/-- OPCODE of a command's word (R103). -/
@[simp] theorem opcodeOf_encode (i : Instr) : opcodeOf (encode i) = i.opcode := opcodeOf_append i.opcode i.operand

/-- OPERAND of a command's word (R102). -/
@[simp] theorem operandOf_encode (i : Instr) : operandOf (encode i) = i.operand := operandOf_append i.opcode i.operand

/-- A word is its two fields (R100). -/
theorem word_eq_append (w : CmdWord) : opcodeOf w ++ operandOf w = w := by
  apply BitVec.eq_of_getLsbD_eq
  intro i hi
  rw [BitVec.getLsbD_append]
  split
  · next h => simp [operandOf, h]
  · next h =>
    simp only [opcodeOf, BitVec.getLsbD_extractLsb']
    rw [show 8 + (i - 8) = i by omega, decide_eq_true (by omega), Bool.true_and]

end Sys2Proof
end

