-- ==== Sys2Proof/Laws/Header.lean ====
section
/-!
SUPPORT. What the header parser can do with one byte (43_container_header.md R212 to R216).
-/

namespace Sys2Proof.Machine

/-- A byte the parser takes: it is absorbed, or it completes its field (R213 to R215). -/
theorem hdrByte_done_cases {b : Byte} {s t : State} (h : hdrByte b s = .done t) :
    (s.hdrStage = .count ∧ s.hdrPos.toNat + 1 < 4 ∧ t = absorb b s) ∨
    (s.hdrStage = .count ∧ ¬s.hdrPos.toNat + 1 < 4 ∧ 0 ≤ headerCount (nextAcc b s) ∧
      headerCount (nextAcc b s) ≤ 256 ∧ t = takeCount (headerCount (nextAcc b s)).toNat s) ∨
    (s.hdrStage = .symbol ∧ freqAt s.freq b = 0#64 ∧
      t = { s with hdrSym := b, hdrAcc := 0, hdrPos := 0, hdrStage := .frequency }) ∨
    (s.hdrStage = .frequency ∧ s.hdrPos.toNat + 1 < 8 ∧ t = absorb b s) ∨
    (s.hdrStage = .frequency ∧ ¬s.hdrPos.toNat + 1 < 8 ∧ nextAcc b s ≠ 0#64 ∧ t = takeFrequency (nextAcc b s) s) ∨
    (s.hdrStage = .done ∧ t = s) := by
  unfold hdrByte at h
  split at h
  · next hst =>
    unfold countByte at h
    by_cases h1 : s.hdrPos.toNat + 1 < 4
    · rw [if_pos h1] at h
      exact .inl ⟨hst, h1, (Effect.done.inj h).symm⟩
    · rw [if_neg h1] at h
      split at h
      · cases h
      · next h2 =>
        split at h
        · cases h
        · next h3 => exact .inr (.inl ⟨hst, h1, by omega, by omega, (Effect.done.inj h).symm⟩)
  · next hst =>
    unfold symbolByte at h
    split at h
    · cases h
    · next h1 => exact .inr (.inr (.inl ⟨hst, by simpa using h1, (Effect.done.inj h).symm⟩))
  · next hst =>
    unfold frequencyByte at h
    by_cases h1 : s.hdrPos.toNat + 1 < 8
    · rw [if_pos h1] at h
      exact .inr (.inr (.inr (.inl ⟨hst, h1, (Effect.done.inj h).symm⟩)))
    · rw [if_neg h1] at h
      split at h
      · cases h
      · next h2 => exact .inr (.inr (.inr (.inr (.inl ⟨hst, h1, h2, (Effect.done.inj h).symm⟩))))
  · next hst => exact .inr (.inr (.inr (.inr (.inr ⟨hst, (Effect.done.inj h).symm⟩))))

/-- The header parser raises MALFORMED_CONTAINER and nothing else, and it never stops the machine (R212). -/
theorem hdrByte_raise_or_done (b : Byte) (s : State) :
    (∃ t, hdrByte b s = .done t) ∨ ∃ sub, hdrByte b s = .raise .malformedContainer sub := by
  unfold hdrByte countByte symbolByte frequencyByte
  split <;> (repeat' split) <;> simp

/-- A completed count field: an empty header completes at once, else the parser waits for the first symbol (R213). -/
theorem takeCount_cases (c : Nat) (s : State) :
    (c = 0 ∧ takeCount c s = headerComplete { s with hdrLeft := 0, hdrAcc := 0, hdrPos := 0 }) ∨
    (c ≠ 0 ∧ takeCount c s =
      { s with hdrLeft := BitVec.ofNat 9 c, hdrAcc := 0, hdrPos := 0, hdrStage := .symbol }) := by
  unfold takeCount
  by_cases hc : c = 0
  · subst hc
    exact .inl ⟨rfl, rfl⟩
  · exact .inr ⟨hc, by simp [hc]⟩

/-- A completed frequency field: the last one completes the header, else the parser waits for the next symbol (R215). -/
theorem takeFrequency_cases (v : Freq) (s : State) :
    (s.hdrLeft - 1 = 0 ∧ takeFrequency v s = headerComplete
      { s with freq := setFreq s.freq s.hdrSym v, hdrAcc := 0, hdrPos := 0, hdrLeft := 0 }) ∨
    (s.hdrLeft - 1 ≠ 0 ∧ takeFrequency v s =
      { s with freq := setFreq s.freq s.hdrSym v, hdrAcc := 0, hdrPos := 0, hdrLeft := s.hdrLeft - 1,
               hdrStage := .symbol }) := by
  unfold takeFrequency
  by_cases hc : s.hdrLeft - 1 = 0
  · refine .inl ⟨hc, ?_⟩
    simp only [hc, if_true]
  · refine .inr ⟨hc, ?_⟩
    simp only [hc, if_false]

end Sys2Proof.Machine
end

