-- ==== Sys2Proof/Laws/Invariant.lean ====
section
/-!
SUPPORT. The parts of the invariant that speak of the tree depend on a few fields only, and inside a built tree every
child of an internal node has an entry (45_decoder.md R264).
-/

namespace Sys2Proof.Machine

/-- `TreeBuilt` depends on the tree fields, FREQ and two flags. -/
theorem treeBuilt_congr {s t : State} (h : TreeBuilt s) (hfreq : t.freq = s.freq) (hnode : t.node = s.node)
    (hroot : t.root = s.root) (hcode : t.code = s.code) (hnsym : t.nsym = s.nsym) (htotal : t.total = s.total)
    (hempty : t.flags.treeEmpty = s.flags.treeEmpty) (hdeg : t.flags.degenerate = s.flags.degenerate) :
    TreeBuilt t where
  node := by rw [hnode, hfreq]; exact h.node
  root := by rw [hroot, hfreq]; exact h.root
  code := by rw [hcode, hnode, hroot]; exact h.code
  nsym := by rw [hnsym, hfreq]; exact h.nsym
  total := by rw [htotal, hnode, hroot]; exact h.total
  empty := by rw [hempty, hroot]; exact h.empty
  degenerate := by rw [hdeg, hnode, hroot]; exact h.degenerate

/-- `TreeClear` depends on the tree fields and two flags. -/
theorem treeClear_congr {s t : State} (h : TreeClear s) (hnode : t.node = s.node) (hroot : t.root = s.root)
    (hcode : t.code = s.code) (hnsym : t.nsym = s.nsym) (htotal : t.total = s.total)
    (hempty : t.flags.treeEmpty = s.flags.treeEmpty) (hdeg : t.flags.degenerate = s.flags.degenerate) :
    TreeClear t where
  node := by rw [hnode]; exact h.node
  root := by rw [hroot]; exact h.root
  code := by rw [hcode]; exact h.code
  nsym := by rw [hnsym]; exact h.nsym
  total := by rw [htotal]; exact h.total
  empty := by rw [hempty]; exact h.empty
  degenerate := by rw [hdeg]; exact h.degenerate

/-- After BuildTree the tree fields are those of FREQ. -/
theorem buildTree_treeBuilt (s : State) : TreeBuilt (buildTree s) := ⟨rfl, rfl, rfl, rfl, rfl, rfl, rfl⟩

/-- In a good arena an internal node is one of the entries k..2k-2. -/
theorem arena_internal_range {t : Vector NodeEntry 511} {k : Nat} {root : NodeIndex} (h : ArenaOk t k root)
    {n : NodeIndex} {e : NodeEntry} (he : nodeAt t n = some e) (hi : e.internal = true) :
    k ≤ n.toNat ∧ n.toNat + 1 < 2 * k := by
  constructor
  · by_contra hlt
    obtain ⟨d, hd, -, hl, -⟩ := h.leaf n (by omega)
    rw [hd] at he
    cases he
    rw [hi] at hl
    cases hl
  · by_contra hge
    have hz := h.unused n (by omega) (fun hn => by rw [(nodeAt_eq_none_iff _ _).mpr hn] at he; cases he)
    rw [hz] at he
    cases he
    cases hi

/-- In a good arena both children of an internal node have entries: the walk never reaches NIL (45_decoder.md R264). -/
theorem arena_child_some {t : Vector NodeEntry 511} {k : Nat} {root : NodeIndex} (h : ArenaOk t k root)
    {n : NodeIndex} {e : NodeEntry} (he : nodeAt t n = some e) (hi : e.internal = true) (c : Bool) :
    ∃ d, nodeAt t (childOf e c) = some d := by
  obtain ⟨hk, hlt⟩ := arena_internal_range h he hi
  have hle := h.leaves_le
  obtain ⟨d, hd, -, -, -, hl, hr, -⟩ := h.inner n hk hlt
  obtain rfl : e = d := Option.some.inj (he.symm.trans hd)
  rw [BitVec.lt_def] at hl hr
  have hne : nodeAt t (childOf e c) ≠ none := by
    rw [Ne, nodeAt_eq_none_iff]
    apply ne_nil_of_toNat_lt
    cases c
    · exact Nat.lt_of_lt_of_le hl (by omega)
    · exact Nat.lt_of_lt_of_le hr (by omega)
  exact Option.ne_none_iff_exists'.mp hne

end Sys2Proof.Machine
end

