-- ==== Sys2Proof/Laws/PerInstr.lean ====
section
/-!
SUPPORT. One statement per command about the command as a term: its word satisfies LegalEnc (30_encoding.md R104) exactly
when the command is well formed (R102).
-/

namespace Sys2Proof.Laws.LegalEncoding

/-- The word of the command is legal exactly when the command is well formed. -/
def Statement (i : Instr) : Prop := legalEnc (encode i) = i.wellFormed

theorem nop : Statement .nop := by simp [Statement, legalEnc, Instr.opcode, Instr.operand, Instr.wellFormed]

theorem clear : Statement .clear := by simp [Statement, legalEnc, Instr.opcode, Instr.operand, Instr.wellFormed]

theorem wrctrl (f : Byte) : Statement (.wrctrl f) := by
  simp [Statement, legalEnc, Instr.opcode, Instr.operand, Instr.wellFormed]

theorem abort (r : Byte) : Statement (.abort r) := by
  simp [Statement, legalEnc, Instr.opcode, Instr.operand, Instr.wellFormed, BEq.beq]

theorem count (b : Byte) : Statement (.count b) := by
  simp [Statement, legalEnc, Instr.opcode, Instr.wellFormed]

theorem build : Statement .build := by simp [Statement, legalEnc, Instr.opcode, Instr.operand, Instr.wellFormed]

theorem hdrEmit : Statement .hdrEmit := by simp [Statement, legalEnc, Instr.opcode, Instr.operand, Instr.wellFormed]

theorem encode (b : Byte) : Statement (.encode b) := by
  simp [Statement, legalEnc, Instr.opcode, Instr.wellFormed]

theorem flush : Statement .flush := by simp [Statement, legalEnc, Instr.opcode, Instr.operand, Instr.wellFormed]

theorem decStart : Statement .decStart := by simp [Statement, legalEnc, Instr.opcode, Instr.operand, Instr.wellFormed]

theorem decByte (b : Byte) : Statement (.decByte b) := by
  simp [Statement, legalEnc, Instr.opcode, Instr.wellFormed]

theorem decEnd : Statement .decEnd := by simp [Statement, legalEnc, Instr.opcode, Instr.operand, Instr.wellFormed]

end Sys2Proof.Laws.LegalEncoding
end

