-- ==== Sys2Proof/Laws/Writer.lean ====
section
/-!
SUPPORT. The bitstream writer as a stream of bits (44_bitstream_writer.md R240, R246).
-/

namespace Sys2Proof.Machine

theorem shiftIn_zero (c : Bool) (buf : Byte) : (shiftIn c buf).getLsbD 0 = c := by
  cases c <;> simp [shiftIn]

theorem shiftIn_succ (c : Bool) (buf : Byte) (i : Nat) (hi : i + 1 < 8) :
    (shiftIn c buf).getLsbD (i + 1) = buf.getLsbD i := by
  have h : buf.getLsbD i = buf[i] := BitVec.getLsbD_eq_getElem (by omega)
  cases c <;> simp [shiftIn, hi, h]

/-- A buffer of n bits with one bit more: the old bits, then the new one. -/
theorem shiftIn_bits (c : Bool) (buf : Byte) (n : Nat) (hn : n < 8) :
    (List.range (n + 1)).map (fun i => (shiftIn c buf).getLsbD (n - i)) =
      (List.range n).map (fun i => buf.getLsbD (n - 1 - i)) ++ [c] := by
  rw [List.range_succ, List.map_append, List.map_singleton, Nat.sub_self, shiftIn_zero]
  congr 1
  refine List.map_congr_left fun i hi => ?_
  rw [List.mem_range] at hi
  have : n - i = (n - 1 - i) + 1 := by omega
  rw [this, shiftIn_succ c buf _ (by omega)]

theorem bitsOfByte_eq (b : Byte) : bitsOfByte b = (List.range 8).map fun i => b.getLsbD (7 - i) := rfl

theorem bitsOfBytes_append (a b : List Byte) : bitsOfBytes (a ++ b) = bitsOfBytes a ++ bitsOfBytes b :=
  List.flatMap_append

theorem bitsOfBytes_singleton (b : Byte) : bitsOfBytes [b] = bitsOfByte b := by simp [bitsOfBytes]

/-- PutBit(c) appends the bit c to the stream, whether or not it emits a byte (R240). -/
theorem putBit_stream (c : Bool) (s : State) : bitStream (putBit c s) = bitStream s ++ [c] := by
  have hlt := s.bitCnt.isLt
  unfold bitStream pendingBits putBit
  split
  · next h =>
    have h7 : s.bitCnt.toNat = 7 := by omega
    have hb := shiftIn_bits c s.bitBuf 7 (by omega)
    simp only [emit, emitAll_out, bitsOfBytes_append, bitsOfBytes_singleton, bitsOfByte_eq, hb, h7]
    simp
  · next h =>
    have hc : (BitVec.ofNat 3 (s.bitCnt.toNat + 1)).toNat = s.bitCnt.toNat + 1 := by
      rw [BitVec.toNat_ofNat]
      exact Nat.mod_eq_of_lt (by omega)
    simp only [hc, Nat.add_sub_cancel, List.append_assoc]
    rw [shiftIn_bits c s.bitBuf s.bitCnt.toNat (by omega)]

/-- PutBit leaves all but the buffer and OUT alone, and OUT only grows (R240). -/
theorem putBit_frame (c : Bool) (s : State) :
    ∃ bs buf cnt, putBit c s = { s with out := s.out ++ bs, bitBuf := buf, bitCnt := cnt } := by
  unfold putBit
  split
  · exact ⟨[shiftIn c s.bitBuf], 0, 0, rfl⟩
  · exact ⟨[], shiftIn c s.bitBuf, BitVec.ofNat 3 (s.bitCnt.toNat + 1), by simp⟩

theorem shiftIn_le (c : Bool) (buf : Byte) : (shiftIn c buf).toNat ≤ 2 * buf.toNat + 1 := by
  have h : ∀ (c : Bool) (n : Fin 256), (shiftIn c (BitVec.ofFin n)).toNat ≤ 2 * n.val + 1 := by decide +kernel
  exact h c buf.toFin

/-- PutBit keeps BITBUF < 2^BITCNT (10_state.md R32). -/
theorem putBit_bitBuf (c : Bool) (s : State) (h : s.bitBuf.toNat < 2 ^ s.bitCnt.toNat) :
    (putBit c s).bitBuf.toNat < 2 ^ (putBit c s).bitCnt.toNat := by
  have hlt := s.bitCnt.isLt
  have hle := shiftIn_le c s.bitBuf
  unfold putBit
  split
  · simp
  · have hc : (BitVec.ofNat 3 (s.bitCnt.toNat + 1)).toNat = s.bitCnt.toNat + 1 := by
      rw [BitVec.toNat_ofNat]
      exact Nat.mod_eq_of_lt (by omega)
    simp only [hc]
    rw [Nat.pow_succ]
    omega

end Sys2Proof.Machine
end

