-- ==== Sys2Proof/Machine/Assembler.lean ====
section
/-!
DEFINITION. HCMD assembly, one command a line (30_encoding.md R110), over lists of characters. It is notation: no step of
the machine reads it. Whether an operand is legal for its command is `Instr.wellFormed`'s question, not the reader's. The
details R110 leaves open are in log entry 8.
-/

namespace Sys2Proof.Machine

/-- What one line holds. -/
inductive AsmLine
  /-- nothing, or a comment -/
  | empty
  | command (i : Instr)
  | bad
  deriving DecidableEq, Repr

/-- The apostrophe of a character literal. -/
def apostrophe : Char := Char.ofNat 39

/-- The mnemonics of the `none` form, upper case (R103, R110). -/
def noneMnemonics : List (List Char × Instr) :=
  [(['N', 'O', 'P'], .nop),
   (['C', 'L', 'E', 'A', 'R'], .clear),
   (['B', 'U', 'I', 'L', 'D'], .build),
   (['H', 'D', 'R', '_', 'E', 'M', 'I', 'T'], .hdrEmit),
   (['F', 'L', 'U', 'S', 'H'], .flush),
   (['D', 'E', 'C', '_', 'S', 'T', 'A', 'R', 'T'], .decStart),
   (['D', 'E', 'C', '_', 'E', 'N', 'D'], .decEnd)]

/-- WRCTRL, the one mnemonic whose operand may be a list of flag names (R110). -/
def wrctrlMnemonic : List Char := ['W', 'R', 'C', 'T', 'R', 'L']

/-- The mnemonics that take an operand (R103, R110). -/
def operandMnemonics : List (List Char × (Byte → Instr)) :=
  [(wrctrlMnemonic, .wrctrl),
   (['A', 'B', 'O', 'R', 'T'], .abort),
   (['C', 'O', 'U', 'N', 'T'], .count),
   (['E', 'N', 'C', 'O', 'D', 'E'], .encode),
   (['D', 'E', 'C', '_', 'B', 'Y', 'T', 'E'], .decByte)]

/-- The value of a hexadecimal digit. -/
def hexValue (c : Char) : Option Nat :=
  if 48 ≤ c.toNat ∧ c.toNat ≤ 57 then some (c.toNat - 48)
  else if 65 ≤ c.toNat ∧ c.toNat ≤ 70 then some (c.toNat - 55)
  else if 97 ≤ c.toNat ∧ c.toNat ≤ 102 then some (c.toNat - 87)
  else none

/-- A decimal digit. -/
def isDigit (c : Char) : Bool := decide (48 ≤ c.toNat) && decide (c.toNat ≤ 57)

/-- A printable ASCII character (R110). -/
def isPrintable (c : Char) : Bool := decide (0x20 ≤ c.toNat) && decide (c.toNat ≤ 0x7E)

/-- The value of a row of decimal digits. -/
def decimalValue (ds : List Char) : Nat := ds.foldl (fun n c => 10 * n + (c.toNat - 48)) 0

/-- A decimal literal 0..255 (R110) and what follows it. -/
def readDecimal (l : List Char) : Option (Byte × List Char) :=
  let ds := l.takeWhile isDigit
  if ds ≠ [] ∧ decimalValue ds ≤ 255 then some (BitVec.ofNat 8 (decimalValue ds), l.dropWhile isDigit) else none

/-- An operand: 0xNN, a decimal literal, or a character literal (R110), and what follows it. DESIGN CHOICE (log entry 8): a
semicolon inside a character literal is the character, 0x3B, and starts no comment. -/
def readOperand (l : List Char) : Option (Byte × List Char) :=
  match l with
  | '0' :: 'x' :: h :: k :: rest =>
    match hexValue h, hexValue k with
    | some a, some b => some (BitVec.ofNat 8 (16 * a + b), rest)
    | _, _ => none
  | c :: v :: d :: rest =>
    if c = apostrophe ∧ d = apostrophe ∧ isPrintable v = true then some (BitVec.ofNat 8 v.toNat, rest) else readDecimal l
  | _ => readDecimal l

/-- The flag names of WRCTRL (R110). -/
def flagNames : List (List Char × Byte) :=
  [(['H', 'D', 'R', '_', 'B', 'E'], 1), (['C', 'O', 'M', 'P', 'A', 'T', '_', 'T', 'A', 'I', 'L'], 2)]

/-- A character of a name. -/
def isNameChar (c : Char) : Bool := decide (65 ≤ c.toNat) && decide (c.toNat ≤ 90) || c == '_'

/-- A list of flag names joined by | (R110), and what follows it. The first argument bounds the names. -/
def readFlags : Nat → List Char → Option (Byte × List Char)
  | 0, _ => none
  | fuel + 1, l =>
    match flagNames.lookup (l.takeWhile isNameChar) with
    | none => none
    | some v =>
      match l.dropWhile isNameChar with
      | '|' :: rest =>
        match readFlags fuel rest with
        | some (w, r) => some (v ||| w, r)
        | none => none
      | rest => some (v, rest)

/-- Blanks at the front are skipped. -/
def skipBlanks (l : List Char) : List Char := l.dropWhile (· == ' ')

/-- The rest of a line: blanks, then nothing or a comment, which starts with ; (R110). -/
def endsLine (l : List Char) : Bool :=
  match skipBlanks l with
  | [] => true
  | c :: _ => c == ';'

/-- One line of HCMD assembly (R110). -/
def assembleLine (line : List Char) : AsmLine :=
  if endsLine line then .empty
  else
    let l := skipBlanks line
    let name := l.takeWhile isNameChar
    let rest := l.dropWhile isNameChar
    match noneMnemonics.lookup name, operandMnemonics.lookup name with
    | some i, _ => if endsLine rest then .command i else .bad
    | none, none => .bad
    | none, some mk =>
      let operand := skipBlanks rest
      let read := if name = wrctrlMnemonic then (readFlags operand.length operand).or (readOperand operand) else readOperand operand
      match read with
      | some (b, r) => if rest ≠ operand ∧ endsLine r = true then .command (mk b) else .bad
      | none => .bad

/-- A hexadecimal digit, upper case. -/
def hexDigit (n : Nat) : Char := if n < 10 then Char.ofNat (48 + n) else Char.ofNat (55 + n)

/-- A line of a listing (R110): the word as four hexadecimal digits, two blanks, the source line. -/
def listingLine (i : Instr) (source : List Char) : List Char :=
  let w := (encode i).toNat
  [hexDigit (w / 4096 % 16), hexDigit (w / 256 % 16), hexDigit (w / 16 % 16), hexDigit (w % 16), ' ', ' '] ++ source

end Sys2Proof.Machine
end

