-- ==== Sys2Proof/Tests/Slice0.lean ====
section
/-!
SUPPORT. Checks on fixed values. Expected results are the spec's own (95_test_vectors.md and the examples of the rules);
the second half gives, for each statement with hypotheses, a state and operands that meet them.
-/

namespace Sys2Proof.Tests

open Sys2Proof.Machine

/-! ## Well-formedness (30_encoding.md R102) -/

theorem test_wf_wrctrl_reserved_bit : (Instr.wrctrl 0x04#8).wellFormed = false := by decide

theorem test_wf_wrctrl_top_bit : (Instr.wrctrl 0x83#8).wellFormed = false := by decide

theorem test_wf_abort_reason : (Instr.abort 0x00#8).wellFormed = false ∧ (Instr.abort 0x03#8).wellFormed = false := by
  decide

theorem test_wf_legal_operands : (Instr.wrctrl 0x03#8).wellFormed = true ∧ (Instr.abort 0x02#8).wellFormed = true ∧
    (Instr.count 0xFF#8).wellFormed = true := by decide

/-! ## Words (30_encoding.md R100, R103): OPCODE in bits 15:8, OPERAND in bits 7:0, written bit by bit -/

theorem test_decode_nop : decode 0b0000000000000000#16 = .legal .nop := by decide

theorem test_decode_clear : decode 0b0000000100000000#16 = .legal .clear := by decide

theorem test_decode_wrctrl : decode 0b0000001000000010#16 = .legal (.wrctrl 0x02#8) := by decide

theorem test_decode_abort : decode 0b0000001100000001#16 = .legal (.abort 0x01#8) := by decide

theorem test_decode_count : decode 0b0001000001100001#16 = .legal (.count 0x61#8) := by decide

theorem test_decode_build : decode 0b0001000100000000#16 = .legal .build := by decide

theorem test_decode_hdrEmit : decode 0b0001001000000000#16 = .legal .hdrEmit := by decide

theorem test_decode_encode : decode 0b0001001101000001#16 = .legal (.encode 0x41#8) := by decide

theorem test_decode_flush : decode 0b0001010000000000#16 = .legal .flush := by decide

theorem test_decode_decStart : decode 0b0010000000000000#16 = .legal .decStart := by decide

theorem test_decode_decByte : decode 0b0010000111100000#16 = .legal (.decByte 0xE0#8) := by decide

theorem test_decode_decEnd : decode 0b0010001000000000#16 = .legal .decEnd := by decide

/-- The four lines of R105. -/
theorem test_decode_illegal :
    decode 0xFFFF#16 = .illegal (.reservedOpcode 0xFF#8) ∧ decode 0x0400#16 = .illegal (.reservedOpcode 0x04#8) ∧
    decode 0x1101#16 = .illegal (.operandNotZero 0x11#8 0x01#8) ∧ decode 0x0204#16 = .illegal (.ctrlReservedBits 0x04#8) ∧
    decode 0x0300#16 = .illegal (.badReason 0x00#8) := by decide

/-- The words of program P5 (95_test_vectors.md). -/
theorem test_encode_words :
    [Instr.clear, .count 0x61#8, .build, .hdrEmit, .encode 0x7A#8, .flush, .abort 0x01#8, .wrctrl 0x03#8, .decStart,
      .decByte 0x00#8, .decEnd, .nop].map encode =
    [0x0100#16, 0x1061#16, 0x1100#16, 0x1200#16, 0x137A#16, 0x1400#16, 0x0301#16, 0x0203#16, 0x2000#16, 0x2100#16,
      0x2200#16, 0x0000#16] := by decide

theorem test_decodeTableWord : decodeTableWord 16 0x1361 = some (.encode 0x61#8) ∧ decodeTableWord 16 0x2201 = none := by
  decide

/-! ## States the vectors start from -/

/-- FREQ of "aaab" (L1-1). -/
def aaabFreq : Vector Freq 256 := setFreq (setFreq (Vector.replicate 256 0) 0x61#8 3#64) 0x62#8 1#64

/-- IDLE, "aaab" counted. -/
def counted : State := { State.reset with freq := aaabFreq }

/-- The nodes of L1-1. -/
def aaabNode : Vector NodeEntry 511 :=
  setNode (setNode (setNode (Vector.replicate 511 NodeEntry.zero)
    0 { used := true, internal := false, sym := 0x61#8, left := 0x1FF#9, right := 0x1FF#9, weight := 3#72 })
    1 { used := true, internal := false, sym := 0x62#8, left := 0x1FF#9, right := 0x1FF#9, weight := 1#72 })
    2 { used := true, internal := true, sym := 0#8, left := 1#9, right := 0#9, weight := 4#72 }

/-- The codes of L1-1: 'a' = 1, 'b' = 0. -/
def aaabCode : Vector CodeEntry 256 :=
  setCode (setCode (Vector.replicate 256 CodeEntry.zero)
    0x61#8 { valid := true, len := 1#9, bits := 1#256 <<< 255 })
    0x62#8 { valid := true, len := 1#9, bits := 0#256 }

/-- BUILT, the tree of "aaab" as L1-1 gives it. -/
def built : State :=
  { counted with
    phase := .built, node := aaabNode, code := aaabCode, nsym := 2#9, root := 2#9, cursor := 2#9, total := 4#72
    flags := { StatusFlags.zero with treeValid := true } }

/-- The tree of 'A' four times (V-BLD-2). -/
def degenerate : State :=
  { State.reset with
    phase := .decPayload, hdrStage := .done
    freq := setFreq (Vector.replicate 256 0) 0x41#8 4#64
    node := setNode (Vector.replicate 511 NodeEntry.zero)
      0 { used := true, internal := false, sym := 0x41#8, left := 0x1FF#9, right := 0x1FF#9, weight := 4#72 }
    nsym := 1#9, root := 0#9, cursor := 0#9, total := 4#72
    flags := { StatusFlags.zero with treeValid := true, degenerate := true } }

/-- ENCODING, "aaab", with the bits 111 pending: V-ENC-1 after its third word. -/
def encoding : State := { built with phase := .encoding, bitBuf := 0b111#8, bitCnt := 3#3, encCount := 3#72 }

/-- DEC_PAYLOAD, "aaab", before the first payload byte. -/
def payload : State := { built with phase := .decPayload, hdrStage := .done }

/-- DEC_HDR at the last byte of the count field, with an accumulator. -/
def countEnd (acc : BitVec 64) : State := { State.reset with phase := .decHdr, hdrPos := 3#4, hdrAcc := acc }

/-- DEC_HDR at the last byte of a frequency field, one entry left. -/
def freqEnd (acc : BitVec 64) : State :=
  { State.reset with phase := .decHdr, hdrStage := .frequency, hdrSym := 0x61#8, hdrLeft := 2#9, hdrPos := 7#4, hdrAcc := acc }

/-- ERROR after `1200` in IDLE (V-CTL-10). -/
def failed : State :=
  { State.reset with phase := .error, errInfo := { opcode := 0x12#8, phase := .idle, sub := 0, code := .sequence } }

/-- The next state of an outcome. -/
def nextOf (o : Host.Outcome State Fault Refusal) : Option State :=
  match o with
  | .next s => some s
  | .fault _ => none
  | .refused _ => none

/-- The next state's registers at some addresses. -/
def regsOf (o : Host.Outcome State Fault Refusal) (addrs : List CsrAddr) : Option (List Word) :=
  (nextOf o).map fun s => addrs.map (memRead s)

/-- The next state's output. -/
def outOf (o : Host.Outcome State Fault Refusal) : Option (List Byte) := (nextOf o).map State.out

/-- The step that consumes a word. -/
def stepOn (s : State) (w : Nat) : Host.Outcome State Fault Refusal := step (s.withFetchWord 16 w)

/-! ## One step each -/

/-- V-CTL-1. -/
theorem test_nop : stepOn State.reset 0x0000 = .next State.reset := rfl

/-- V-CTL-2. -/
theorem test_nop_operand : regsOf (stepOn State.reset 0x0001) [0x0004, 0x0003] = some [0x00000001, 0x0000000F] := by
  decide +kernel

/-- V-CTL-4. -/
theorem test_clear_latches : regsOf (stepOn { State.reset with ctrl := 1 } 0x0100) [1, 2, 3] = some [1, 1, 0] := by
  decide +kernel

/-- V-CTL-12, its last word: FREQ, too, is cleared. -/
theorem test_clear_recovers :
    regsOf (stepOn { failed with freq := aaabFreq } 0x0100) [3, 4, 0x01C2] = some [0, 0, 0] := by decide +kernel

/-- V-CTL-5 and V-CTL-10. -/
theorem test_wrctrl :
    regsOf (stepOn State.reset 0x0203) [1, 2] = some [3, 0] ∧
    regsOf (stepOn failed 0x0203) [1, 3, 4] = some [3, 0xF, 0x12000002] := by decide +kernel

/-- V-CTL-3. -/
theorem test_wrctrl_reserved : regsOf (stepOn State.reset 0x0204) [4, 1] = some [0x02000001, 0] := by decide +kernel

/-- V-CTL-7 and V-CTL-8. -/
theorem test_abort :
    regsOf (stepOn State.reset 0x0301) [4] = some [0x03000007] ∧
    regsOf (stepOn encoding 0x0302) [4] = some [0x03020008] := by decide +kernel

/-- V-CTL-9. -/
theorem test_abort_reason : regsOf (stepOn State.reset 0x0303) [4] = some [0x03000001] := by decide +kernel

/-- V-CNT-4. -/
theorem test_count_last :
    regsOf (stepOn { State.reset with freq := setFreq (Vector.replicate 256 0) 0x41#8 0xFFFFFFFFFFFFFFFE#64 } 0x1041)
      [0x0182, 0x0183, 3] = some [0xFFFFFFFF, 0xFFFFFFFF, 0] := by decide +kernel

/-- V-CNT-3. -/
theorem test_count_overflow :
    regsOf (stepOn { State.reset with freq := setFreq (Vector.replicate 256 0) 0x41#8 0xFFFFFFFFFFFFFFFF#64 } 0x1041)
      [0x0182, 0x0183, 4] = some [0xFFFFFFFF, 0xFFFFFFFF, 0x10004103] := by decide +kernel

/-- The register readback table of 95_test_vectors.md 2.3. -/
theorem test_build_aaab :
    regsOf (exec .build counted)
      [0x1000, 0x1001, 0x1002, 0x1010, 0x1011, 0x1012, 0x1018, 0x0361, 0x0708, 0x0362, 0x0710, 0x0363, 0x0005, 0x0006,
        0x0007, 0x0010, 0x0003] =
    some [0x80000061, 0x01FF01FF, 3, 0xC0000000, 0x00000001, 4, 0, 0x80000001, 0x80000000, 0x80000001, 0, 0, 2, 2, 2, 4,
        0x11] := by decide +kernel

/-- V-BLD-5, the tie-break: a 10, b 11, c 0; the root is node 4 with children 2 and 3. -/
theorem test_build_ties :
    regsOf (exec .build { State.reset with
        freq := setFreq (setFreq (setFreq (Vector.replicate 256 0) 0x61#8 2#64) 0x62#8 2#64) 0x63#8 2#64 })
      [0x0708, 0x0710, 0x0718, 0x0361, 0x0362, 0x0363, 0x1021, 6, 0x10] =
    some [0x80000000, 0xC0000000, 0, 0x80000002, 0x80000002, 0x80000001, 0x00030002, 4, 6] := by decide +kernel

/-- V-HDR-1. -/
theorem test_hdrEmit :
    outOf (exec .hdrEmit built) =
      some [2, 0, 0, 0, 0x61, 3, 0, 0, 0, 0, 0, 0, 0, 0x62, 1, 0, 0, 0, 0, 0, 0, 0] := by decide +kernel

/-- V-HDR-2. -/
theorem test_hdrEmit_be :
    outOf (exec .hdrEmit { built with activeCtrl := 1 }) =
      some [0, 0, 0, 2, 0x61, 0, 0, 0, 0, 0, 0, 0, 3, 0x62, 0, 0, 0, 0, 0, 0, 0, 1] := by decide +kernel

/-- V-ENC-1, its last word; and the eighth bit emits the byte (44_bitstream_writer.md R240). -/
theorem test_encode :
    regsOf (stepOn encoding 0x1362) [8, 0x13] = some [0x0000040E, 4] ∧
    outOf (stepOn { encoding with bitBuf := 0b1110000#8, bitCnt := 7#3 } 0x1361) = some [0xE1] := by decide +kernel

/-- V-ENC-5. -/
theorem test_encode_unknown :
    regsOf (stepOn encoding 0x137A) [4, 8, 0x13] = some [0x13027A04, 0x00000307, 3] := by decide +kernel

/-- V-ENC-2. -/
theorem test_flush :
    outOf (stepOn { encoding with bitBuf := 0b1110#8, bitCnt := 4#3, encCount := 4#72 } 0x1400) = some [0xE0] ∧
    regsOf (stepOn { encoding with bitBuf := 0b1110#8, bitCnt := 4#3, encCount := 4#72 } 0x1400) [8, 3] =
      some [0, 0x13] := by decide +kernel

/-- V-ENC-6, its last word: nothing pending, ENC_COUNT differs from TOTAL. -/
theorem test_flush_mismatch :
    outOf (stepOn { degenerate with phase := .encoding, encCount := 2#72 } 0x1400) = some [] ∧
    regsOf (stepOn { degenerate with phase := .encoding, encCount := 2#72 } 0x1400) [3] = some [0x453] := by
  decide +kernel

/-- V-CTL-14, with CTRL = 3 as in P5. -/
theorem test_decStart : regsOf (stepOn { failed with ctrl := 3 } 0x2000) [3, 4, 2, 6] = some [4, 0, 3, 0x1FF] := by
  decide +kernel

/-- V-HDR-7, V-HDR-8, V-HDR-9, V-HDR-10 (the last word of each), V-HDR-11 and V-HDR-12. -/
theorem test_decByte_header :
    regsOf (stepOn (countEnd 5) 0x2100) [9, 0xB] = some [0x00050001, 0] ∧
    regsOf (stepOn (countEnd 0) 0x2180) [4, 9] = some [0x21040105, 0x30] ∧
    regsOf (stepOn (countEnd 0x0101) 0x2100) [4] = some [0x21040205] ∧
    regsOf (stepOn (countEnd 0x0100) 0x2100) [9] = some [0x01000001] ∧
    regsOf (stepOn { freqEnd 0 with hdrStage := .symbol, freq := aaabFreq } 0x2161) [4] = some [0x21040405] ∧
    regsOf (stepOn (freqEnd 0) 0x2100) [4] = some [0x21040505] ∧
    regsOf (stepOn (freqEnd 3) 0x2100) [9, 0x01C2] = some [0x00010001, 3] := by decide +kernel

/-- V-DEC-1, V-DEC-2 (the payload byte), V-DEC-14 and V-DEC-15. -/
theorem test_decByte_payload :
    outOf (stepOn payload 0x21E0) = some [0x61, 0x61, 0x61, 0x62] ∧
    regsOf (stepOn payload 0x21E0) [0x16, 7, 3] = some [4, 2, 0x95] ∧
    outOf (stepOn { payload with activeCtrl := 2 } 0x21E0) = some [0x61, 0x61, 0x61, 0x62, 0x62, 0x62, 0x62, 0x62] ∧
    regsOf (stepOn { State.reset with phase := .decPayload } 0x2155) [4] = some [0x21050006] ∧
    regsOf (stepOn degenerate 0x2100) [4, 3] = some [0x21050605, 0x5F] := by decide +kernel

/-- P4's first DEC_END, V-DEC-9, and the state of V-DEC-8's flag: CURSOR not at ROOT. -/
theorem test_decEnd :
    outOf (stepOn degenerate 0x2200) = some [0x41, 0x41, 0x41, 0x41] ∧
    regsOf (stepOn degenerate 0x2200) [3, 0x16, 6, 7] = some [0x56, 4, 0, 0] ∧
    regsOf (stepOn payload 0x2200) [3] = some [0x116] ∧
    regsOf (stepOn { payload with outCount := 4#72, cursor := 1#9 } 0x2200) [3] = some [0x216] := by decide +kernel

/-- V-DEC-16 and V-DEC-17. -/
theorem test_decEnd_errors :
    regsOf (stepOn { State.reset with phase := .decHdr, hdrPos := 1#4, hdrAcc := 2 } 0x2200) [4] = some [0x22040305] ∧
    regsOf (stepOn State.reset 0x2200) [4] = some [0x22000002] := by decide +kernel

/-- V-CTL-11, V-DSP-2, V-DSP-3 and V-DSP-4. -/
theorem test_dispatch :
    regsOf (stepOn failed 0x0005) [4] = some [0x12000002] ∧ regsOf (stepOn failed 0xFFFF) [4] = some [0x12000002] ∧
    regsOf (stepOn State.reset 0x1101) [4] = some [0x11000001] ∧ regsOf (stepOn encoding 0x1101) [4] = some [0x11020001] := by
  decide +kernel

/-- V-RST-1. -/
theorem test_reset :
    regsOf (step { encoding with input := [.reset] }) [0, 1, 2, 3, 4, 5, 6, 7, 0x01C2, 0x0361, 0x1000] =
      some [0x48430001, 0, 0, 0, 0, 0, 0x1FF, 0x1FF, 0, 0, 0] := by decide +kernel

/-- 20_memory.md R75: the host takes the front byte; OUT as the sequence emitted since reset stays. -/
theorem test_drain :
    (nextOf (step { State.reset with out := [1, 2], input := [.drain] })).map State.pendingOut = some [2] := by
  decide +kernel

/-- Sample lines of 30_encoding.md R110. -/
theorem test_assemble :
    assembleLine ['C', 'O', 'U', 'N', 'T', ' ', apostrophe, 'a', apostrophe] = .command (.count 0x61#8) ∧
    assembleLine ['W', 'R', 'C', 'T', 'R', 'L', ' ', 'H', 'D', 'R', '_', 'B', 'E'] = .command (.wrctrl 0x01#8) ∧
    assembleLine ['C', 'O', 'U', 'N', 'T', ' ', apostrophe, ';', apostrophe] = .command (.count 0x3B#8) ∧
    assembleLine [';', ' ', 'x'] = .empty ∧
    assembleLine ['B', 'U', 'I', 'L', 'D', ' ', ' ', ';', 'x'] = .command .build := by decide +kernel

/-! ## Witnesses: hypotheses that can be met -/

theorem test_reset_freq (b : Byte) : freqAt State.reset.freq b = 0#64 := freqAt_replicate b 0

/-- A header with this table of frequencies has arrived; the tree is not built yet. -/
def untreed (freq : Vector Freq 256) : State := { State.reset with freq := freq, hdrStage := .done }

/-- DEC_PAYLOAD with the tree BuildTree makes of a table of frequencies. -/
def walkingOf (freq : Vector Freq 256) : State := { buildTree (untreed freq) with phase := .decPayload }

theorem test_walking_inv (freq : Vector Freq 256) : Inv (walkingOf freq) where
  bitBuf := by show (0#8).toNat < 2 ^ (0#3).toNat; decide
  drained := Nat.le_refl 0
  errNone := fun _ => rfl
  errSome := fun h => nomatch h
  header := ⟨rfl, rfl⟩
  phase := ⟨rfl, rfl⟩
  tree := fun _ => ⟨rfl, rfl, rfl, rfl, rfl, rfl, rfl⟩
  noTree := fun h => nomatch h
  cursor := .inl rfl
  outCount := fun _ => by show 0#72 ≤ _; rw [BitVec.le_def]; exact Nat.zero_le _

/-- DEC_PAYLOAD with the tree of "aaab". -/
def walking : State := walkingOf aaabFreq

/-- The tree BuildTree makes of "aaab" (L1-1): root, its entry, its left child, and which symbols have codes. -/
theorem test_aaab_tree :
    (fun t : State => [t.root == 2#9,
      nodeAt t.node 2#9 ==
        some { used := true, internal := true, sym := 0, left := 1#9, right := 0#9, weight := 4#72 },
      nodeAt t.node 1#9 ==
        some { used := true, internal := false, sym := 0x62#8, left := 0x1FF#9, right := 0x1FF#9, weight := 1#72 },
      (codeAt t.code 0x61#8).valid, (codeAt t.code 0x62#8).valid, !(codeAt t.code 0x63#8).valid].all id)
      (buildTree (untreed aaabFreq)) = true := by decide +kernel

theorem test_walking_tree :
    (buildTree (untreed aaabFreq)).root = 2#9 ∧
    nodeAt (buildTree (untreed aaabFreq)).node 2#9 =
      some { used := true, internal := true, sym := 0, left := 1#9, right := 0#9, weight := 4#72 } ∧
    nodeAt (buildTree (untreed aaabFreq)).node 1#9 =
      some { used := true, internal := false, sym := 0x62#8, left := 0x1FF#9, right := 0x1FF#9, weight := 1#72 } ∧
    (codeAt (buildTree (untreed aaabFreq)).code 0x61#8).valid = true ∧
    (codeAt (buildTree (untreed aaabFreq)).code 0x62#8).valid = true ∧
    (codeAt (buildTree (untreed aaabFreq)).code 0x63#8).valid = false := by
  have h := test_aaab_tree
  simpa only [List.all_cons, List.all_nil, id, Bool.and_eq_true, beq_iff_eq, Bool.not_eq_true', and_true, Bool.and_true] using h

theorem test_aaab_distinct : distinctSymbols aaabFreq = 2 := by
  rw [← addLeaves_idx]
  decide +kernel

theorem test_walkingOf_fields (freq : Vector Freq 256) :
    (walkingOf freq).node = (buildTree (untreed freq)).node ∧ (walkingOf freq).root = (buildTree (untreed freq)).root ∧
    (walkingOf freq).code = (buildTree (untreed freq)).code ∧ (walkingOf freq).cursor = (walkingOf freq).root :=
  ⟨rfl, rfl, rfl, rfl⟩

theorem test_walking_root : ∃ r, nodeAt walking.node walking.root = some r ∧ r.internal = true := by
  obtain ⟨hn, hr, -⟩ := test_walkingOf_fields aaabFreq
  unfold walking
  rw [hn, hr, test_walking_tree.1]
  exact ⟨_, test_walking_tree.2.1, rfl⟩

/-- The nodes of the hand-written trees. -/
theorem test_given_nodes :
    nodeAt aaabNode 2#9 = some { used := true, internal := true, sym := 0, left := 1#9, right := 0#9, weight := 4#72 } ∧
    nodeAt aaabNode 1#9 =
      some { used := true, internal := false, sym := 0x62#8, left := 0x1FF#9, right := 0x1FF#9, weight := 1#72 } ∧
    nodeAt degenerate.node degenerate.root =
      some { used := true, internal := false, sym := 0x41#8, left := 0x1FF#9, right := 0x1FF#9, weight := 4#72 } ∧
    nodeAt State.reset.node 510#9 = some NodeEntry.zero := by decide +kernel

/-- An internal node whose left child is internal. -/
theorem test_given_inner :
    nodeAt (setNode aaabNode 3 { used := true, internal := true, sym := 0, left := 2#9, right := 1#9, weight := 5#72 }) 3#9 =
      some { used := true, internal := true, sym := 0, left := 2#9, right := 1#9, weight := 5#72 } ∧
    nodeAt (setNode aaabNode 3 { used := true, internal := true, sym := 0, left := 2#9, right := 1#9, weight := 5#72 }) 2#9 =
      some { used := true, internal := true, sym := 0, left := 1#9, right := 0#9, weight := 4#72 } := by decide +kernel

theorem test_witness_DecodeEncodeRoundTrip :
    (Instr.wrctrl 0x03#8).WF ∧ (Instr.abort 0x02#8).WF ∧ decode 0x13FF#16 = .legal (.encode 0xFF#8) := by decide

theorem test_witness_StepRunsDecodedCommand :
    (State.reset.withFetchWord 16 0x1061).input = .command 0x1061#16 :: [] ∧
    decode 0x1061#16 = .legal (.count 0x61#8) := by decide

theorem test_illegal_of_decode {w : CmdWord} {e : DecodeError} (h : decode w = .illegal e) (i : Instr) :
    decode w ≠ .legal i := by
  rw [h]
  simp

/-- Each of the four groups of words, at a boundary, and a state whose next event is one. -/
theorem test_witness_IllegalWordRaises :
    ((0x0400#16).extractLsb' 8 8).toNat ∉ [0x00, 0x01, 0x02, 0x03, 0x10, 0x11, 0x12, 0x13, 0x14, 0x20, 0x21, 0x22] ∧
    (((0x2201#16).extractLsb' 8 8).toNat ∈ [0x00, 0x01, 0x11, 0x12, 0x14, 0x20, 0x22] ∧ (0x2201#16).extractLsb' 0 8 ≠ 0#8) ∧
    ((0x0204#16).extractLsb' 8 8 = 0x02#8 ∧ (0x0204#16).extractLsb' 2 6 ≠ 0#6) ∧
    ((0x0303#16).extractLsb' 8 8 = 0x03#8 ∧ (0x0303#16).extractLsb' 0 8 ≠ 0x01#8 ∧ (0x0303#16).extractLsb' 0 8 ≠ 0x02#8) ∧
    (State.reset.withFetchWord 16 0x0400).input = .command 0x0400#16 :: [] ∧ ∀ i, decode 0x0400#16 ≠ .legal i :=
  ⟨by decide, by decide, by decide, by decide, by decide, test_illegal_of_decode (e := .reservedOpcode 0x04#8) (by decide)⟩

theorem test_witness_SequenceTable : (Instr.wrctrl 0x03#8).WF ∧ built.phase ≠ .error := by decide

theorem test_witness_ErrorPhaseDiscards :
    failed.phase = .error ∧ (failed.withFetchWord 16 0x1061).input = .command 0x1061#16 :: [] ∧
    (∀ i, decode 0x1061#16 = .legal i → i ≠ .nop ∧ i ≠ .clear ∧ i ≠ .decStart ∧ ∀ f, i ≠ .wrctrl f) ∧
    (0x03#8).extractLsb' 2 6 = 0#6 := by
  refine ⟨rfl, rfl, fun i h => ?_, rfl⟩
  rw [show decode 0x1061#16 = .legal (.count 0x61#8) by decide] at h
  cases h
  simp

theorem test_witness_ErrorsArePrecise :
    (State.reset.withFetchWord 16 0x1200).input = .command 0x1200#16 :: [] ∧
    step (State.reset.withFetchWord 16 0x1200) = .next failed ∧ (State.reset.withFetchWord 16 0x1200).phase ≠ .error ∧
    failed.phase = .error := ⟨rfl, rfl, by decide, rfl⟩

theorem test_witness_FirstErrorWins :
    step { State.reset with input := [.command 0x1200#16] } = .next failed ∧ failed.errInfo ≠ State.reset.errInfo ∧
    step { failed with input := [.reset] } = .next State.reset :=
  ⟨rfl, by decide, rfl⟩

theorem test_witness_CheckOrder :
    encoding.phase ≠ .error ∧ encoding.phase ≠ .idle ∧ encoding.phase ≠ .decHdr ∧ encoding.phase ≠ .decPayload ∧
    State.reset.phase ≠ .encoding ∧ (encoding.withFetchWord 16 0x0400).input = .command 0x0400#16 :: [] ∧
    (∃ t, step (encoding.withFetchWord 16 0x0400) = .next t) ∧ ∀ i, decode 0x0400#16 ≠ .legal i :=
  ⟨by decide, by decide, by decide, by decide, by decide, rfl, ⟨_, rfl⟩,
    test_illegal_of_decode (e := .reservedOpcode 0x04#8) (by decide)⟩

theorem test_witness_NopHasNoEffect :
    (0x00FF#16).extractLsb' 8 8 = 0x00#8 ∧ (0x00FF#16).extractLsb' 0 8 ≠ 0x00#8 := by decide

theorem test_witness_WrctrlWritesCtrl :
    (0x03#8).extractLsb' 2 6 = 0#6 ∧ (0x0204#16).extractLsb' 8 8 = 0x02#8 ∧ (0x0204#16).extractLsb' 2 6 ≠ 0#6 := by decide

theorem test_witness_AbortRecordsTheReason :
    State.reset.phase ≠ .error ∧ failed.phase = .error ∧ (0x0303#16).extractLsb' 8 8 = 0x03#8 ∧
    (0x0303#16).extractLsb' 0 8 ≠ 0x01#8 ∧ (0x0303#16).extractLsb' 0 8 ≠ 0x02#8 := by decide

/-- CTRL changes by WRCTRL, ACTIVE_CTRL by CLEAR. -/
theorem test_witness_OnlyTheirWritersChangeControl :
    (∃ t, step { State.reset with input := [.command 0x0203#16] } = .next t ∧ t.ctrl ≠ State.reset.ctrl) ∧
    (∃ t, step { State.reset with ctrl := 3, input := [.command 0x0100#16] } = .next t ∧
      t.activeCtrl ≠ State.reset.activeCtrl) :=
  ⟨⟨_, rfl, by decide⟩, ⟨_, rfl, by decide⟩⟩

/-- FREQ[0x41] at 2^64 - 2 and at 2^64 - 1, and a phase that does not allow COUNT. -/
theorem test_witness_CountAddsOne :
    (freqAt (setFreq (Vector.replicate 256 0) 0x41#8 0xFFFFFFFFFFFFFFFE#64) 0x41#8).toNat ≠ 2 ^ 64 - 1 ∧
    (freqAt (setFreq (Vector.replicate 256 0) 0x41#8 0xFFFFFFFFFFFFFFFF#64) 0x41#8).toNat = 2 ^ 64 - 1 ∧
    State.reset.phase = .idle ∧ built.phase ≠ .idle ∧ built.phase ≠ .error := by decide +kernel

theorem test_witness_CountThroughTheRegisterPort :
    State.reset.phase = .idle ∧ (freqAt State.reset.freq 0xFF#8).toNat ≠ 2 ^ 64 - 1 ∧
    (∃ t, exec (.count 0xFF#8) State.reset = .next t) ∧
    (0x02FF#16).toNat = 0x0101 + 2 * (0xFF#8).toNat ∧ (0x0300#16).toNat ≠ 0x0101 + 2 * (0xFF#8).toNat := by
  refine ⟨rfl, ?_, ⟨_, rfl⟩, by decide, by decide⟩
  rw [test_reset_freq]
  decide

theorem test_witness_CountsAreOccurrences :
    State.reset.phase = .idle ∧ ∀ b, (freqAt State.reset.freq b).toNat + [0x61#8, 0x61#8, 0x62#8].count b < 2 ^ 64 := by
  refine ⟨rfl, fun b => ?_⟩
  rw [test_reset_freq]
  have h : [0x61#8, 0x61#8, 0x62#8].count b ≤ 3 := List.count_le_length
  simp only [BitVec.toNat_ofNat]
  omega

theorem test_witness_FrequenciesAreImmutable :
    ∃ t, step { State.reset with input := [.command 0x1061#16] } = .next t ∧
      freqAt t.freq 0x61#8 ≠ freqAt State.reset.freq 0x61#8 :=
  ⟨_, rfl, by decide +kernel⟩

/-- A heap of three nodes with the least key in front. -/
theorem test_witness_QueueReturnsTheMinimum :
    (∀ i, 0 < i → i < [1#9, 0#9, 2#9].length →
      keyLess aaabNode (heapAt [1#9, 0#9, 2#9] i) (heapAt [1#9, 0#9, 2#9] ((i - 1) / 2)) = false) ∧
    [1#9, 0#9, 2#9] ≠ [] ∧ [1#9, 0#9, 2#9].Nodup := by
  refine ⟨fun i h0 h1 => ?_, by decide, by decide⟩
  obtain rfl | rfl : i = 1 ∨ i = 2 := by simp only [List.length_cons, List.length_nil] at h1; omega
  · decide +kernel
  · decide +kernel

theorem test_witness_BuildCompletes : counted.phase = .idle := rfl

/-- Tables with symbols and without. -/
theorem test_witness_BuildTreeArena :
    0 < distinctSymbols (untreed aaabFreq).freq ∧ distinctSymbols State.reset.freq = 0 := by
  refine ⟨?_, ?_⟩
  · show 0 < distinctSymbols aaabFreq
    rw [test_aaab_distinct]
    decide
  · rw [← addLeaves_idx]
    decide +kernel

/-- FREQ of 'a', 'b' and 'c' twice each (V-BLD-5). -/
def abcFreq : Vector Freq 256 := setFreq (setFreq (setFreq (Vector.replicate 256 0) 0x61#8 2#64) 0x62#8 2#64) 0x63#8 2#64

/-- The first four nodes of V-BLD-5: three leaves, and the first merge. -/
theorem test_abc_tree :
    (fun t : Vector NodeEntry 511 => [(nodeAt t 0#9).map NodeEntry.internal, (nodeAt t 1#9).map NodeEntry.internal,
      (nodeAt t 2#9).map NodeEntry.internal, (nodeAt t 3#9).map NodeEntry.internal] ==
        [some false, some false, some false, some true] &&
      ((nodeAt t 3#9).map fun e => (e.left, e.right)) == some (0#9, 1#9)) (buildTree (untreed abcFreq)).node = true := by
  decide +kernel

/-- Node 3 of V-BLD-5 is a merge; node 2 was made before it, is neither of its children, and is nobody's child yet. -/
theorem test_witness_MergesJoinTheLeastNodes :
    ∃ e d, nodeAt (buildTree (untreed abcFreq)).node 3#9 = some e ∧ e.internal = true ∧ (2#9).toNat < (3#9).toNat ∧
      2#9 ≠ e.left ∧ 2#9 ≠ e.right ∧ nodeAt (buildTree (untreed abcFreq)).node 2#9 = some d ∧
      ∀ q : NodeIndex, q.toNat < (3#9).toNat → ¬IsChild (buildTree (untreed abcFreq)).node q 2#9 := by
  have h := test_abc_tree
  simp only [Bool.and_eq_true, beq_iff_eq, List.cons.injEq, Option.map_eq_some_iff, Prod.mk.injEq, and_true] at h
  obtain ⟨⟨⟨e0, h0, i0⟩, ⟨e1, h1, i1⟩, ⟨e2, h2, i2⟩, ⟨e3, h3, i3⟩⟩, ⟨e, he, hl, hr⟩⟩ := h
  obtain rfl : e3 = e := Option.some.inj (h3.symm.trans he)
  refine ⟨e3, e2, h3, i3, by decide, by rw [hl]; decide, by rw [hr]; decide, h2, ?_⟩
  rintro q hq ⟨d, hd, hi, -⟩
  have hq3 : q = 0#9 ∨ q = 1#9 ∨ q = 2#9 := by
    simp only [BitVec.toNat_ofNat] at hq
    bv_omega
  rcases hq3 with rfl | rfl | rfl
  · rw [h0] at hd; cases hd; rw [i0] at hi; cases hi
  · rw [h1] at hd; cases hd; rw [i1] at hi; cases hi
  · rw [h2] at hd; cases hd; rw [i2] at hi; cases hi

/-- ROOT is an internal node with a leaf for its left child; ROOT of the empty table is NIL; and a pass of COUNT commands
from an empty table. -/
theorem test_witness_WeightsAddUp :
    (∃ e, nodeAt (buildTree (untreed aaabFreq)).node (buildTree (untreed aaabFreq)).root = some e ∧ e.internal = true) ∧
    (∃ e, nodeAt (buildTree (untreed aaabFreq)).node 1#9 = some e ∧ e.used = true ∧ e.internal = false) ∧
    (buildTree State.reset).root = Config.nilIndex ∧ State.reset.phase = .idle ∧
    (∀ b, freqAt State.reset.freq b = 0#64) ∧ ∀ b, [0x61#8].count b < 2 ^ 64 := by
  refine ⟨⟨_, by rw [test_walking_tree.1]; exact test_walking_tree.2.1, rfl⟩, ⟨_, test_walking_tree.2.2.1, rfl, rfl⟩, ?_, rfl,
    test_reset_freq, fun b => ?_⟩
  · have hroot : ∀ s : State, (buildTree s).root = arenaRoot (buildArena s.freq) := fun _ => rfl
    rw [hroot, (buildArena_ok State.reset.freq).root_eq, if_pos test_witness_BuildTreeArena.2]
  · have h : [0x61#8].count b ≤ 1 := List.count_le_length
    omega

/-- Two symbols with codes. -/
theorem test_witness_CodesArePrefixFree :
    0x61#8 ≠ 0x62#8 ∧ (codeAt (buildTree (untreed aaabFreq)).code 0x61#8).valid = true ∧
    (codeAt (buildTree (untreed aaabFreq)).code 0x62#8).valid = true ∧ 2 ≤ distinctSymbols (untreed aaabFreq).freq :=
  ⟨by decide, test_walking_tree.2.2.2.1, test_walking_tree.2.2.2.2.1, Nat.le_of_eq test_aaab_distinct.symm⟩

/-- One symbol, with a code. -/
theorem test_witness_CodesArePrefixFree_one :
    distinctSymbols degenerate.freq = 1 ∧ (codeAt (buildTree degenerate).code 0x41#8).valid = true := by
  rw [← addLeaves_idx]
  decide +kernel

theorem test_witness_CodesAreTreePaths :
    (codeAt (buildTree (untreed aaabFreq)).code 0x62#8).valid = true ∧
    (codeAt (buildTree (untreed aaabFreq)).code 0x63#8).valid = false :=
  ⟨test_walking_tree.2.2.2.2.1, test_walking_tree.2.2.2.2.2⟩

theorem test_witness_CountOrderDoesNotMatter :
    State.reset.phase = .idle ∧ (∀ b, (freqAt State.reset.freq b).toNat + [0x61#8, 0x62#8].count b < 2 ^ 64) ∧
    [0x61#8, 0x62#8].Perm [0x62#8, 0x61#8] := by
  refine ⟨rfl, fun b => ?_, by decide⟩
  rw [test_reset_freq]
  have h : [0x61#8, 0x62#8].count b ≤ 2 := List.count_le_length
  simp only [BitVec.toNat_ofNat]
  omega

theorem test_witness_FieldBytesAreAbsorbedBack :
    (0xFFFFFFFF#64).toNat < 2 ^ (8 * 4) ∧ (0xFFFFFFFFFFFFFFFF#64).toNat < 2 ^ (8 * 8) ∧ 3 < 4 := by decide

theorem test_witness_HdrEmitWritesTheHeader :
    built.phase = .built ∧ built.nsym.toNat = distinctSymbols built.freq := ⟨rfl, test_aaab_distinct.symm⟩

/-- POS 2 and 3, and the counts -2^31, 257, 0, 256. -/
theorem test_witness_CountFieldParser :
    (countEnd 0).phase = .decHdr ∧ (countEnd 0).hdrStage = .count ∧ 4 ≤ (countEnd 0).hdrPos.toNat + 1 ∧
    (2#4).toNat + 1 < 4 ∧ ((accByte false 0 0x80#8 3).extractLsb' 0 32).toInt < 0 ∧
    256 < ((accByte false 0x0101#64 0 3).extractLsb' 0 32).toInt ∧
    ((accByte false 0 0 3).extractLsb' 0 32).toInt = 0 ∧
    ((accByte false 0x0100#64 0 3).extractLsb' 0 32).toInt = 256 := by decide +kernel

theorem test_witness_SymbolByteParser :
    freqAt aaabFreq 0x61#8 ≠ 0#64 ∧ freqAt aaabFreq 0xFF#8 = 0#64 ∧
    ({ freqEnd 0 with hdrStage := .symbol } : State).phase = .decHdr := by decide +kernel

/-- POS 6 and 7, the values 0 and 3, one entry left and more. -/
theorem test_witness_FrequencyFieldParser :
    (freqEnd 3).phase = .decHdr ∧ (freqEnd 3).hdrStage = .frequency ∧ 1 < (freqEnd 3).hdrLeft.toNat ∧
    8 ≤ (freqEnd 3).hdrPos.toNat + 1 ∧ (6#4).toNat + 1 < 8 ∧ accByte false 3#64 0 7 ≠ 0#64 ∧ accByte false 0#64 0 7 = 0#64 ∧
    ({ freqEnd 3 with hdrLeft := 1#9 } : State).hdrLeft.toNat = 1 := by decide +kernel

/-- The state after DEC_START. -/
def headerStart : State := { State.reset with phase := .decHdr }

theorem test_witness_HeaderFidelity :
    headerStart.phase = .decHdr ∧ headerStart.hdrStage = .count ∧ headerStart.hdrPos = 0 ∧ headerStart.hdrAcc = 0 ∧
    ∀ b, freqAt headerStart.freq b = 0#64 := ⟨rfl, rfl, rfl, rfl, test_reset_freq⟩

theorem test_witness_HeaderEntryOrderDoesNotMatter :
    headerStart.phase = .decHdr ∧ headerStart.hdrStage = .count ∧ headerStart.hdrPos = 0 ∧ headerStart.hdrAcc = 0 ∧
    (∀ b, freqAt headerStart.freq b = 0#64) ∧ ([(0x61#8, 3#64), (0x62#8, 1#64)].map Prod.fst).Nodup ∧
    (∀ p ∈ [(0x61#8, 3#64), (0x62#8, 1#64)], p.2 ≠ 0#64) ∧
    [(0x61#8, 3#64), (0x62#8, 1#64)].Perm [(0x62#8, 1#64), (0x61#8, 3#64)] :=
  ⟨rfl, rfl, rfl, rfl, test_reset_freq, by simp, by simp, List.Perm.swap _ _ _⟩

/-- The counts 0, 127, 128, 255 and 256 (V-HDR-16). -/
theorem test_witness_ByteOrderMismatchIsDetected :
    headerStart.phase = .decHdr ∧ headerStart.hdrStage = .count ∧ headerStart.hdrPos = 0 ∧ headerStart.hdrAcc = 0 ∧
    ∀ c ∈ [0, 127, 128, 255, 256], c ≤ 256 := ⟨rfl, rfl, rfl, rfl, by decide⟩

/-- BITCNT 6 and 7, and eight bits into an empty buffer. -/
theorem test_witness_PutBitFillsTheBuffer :
    ({ encoding with bitCnt := 6#3 } : State).bitCnt.toNat < 7 ∧ ({ encoding with bitCnt := 7#3 } : State).bitCnt.toNat = 7 ∧
    (List.replicate 8 true).length = 8 ∧ built.bitCnt = 0 := by
  decide

theorem test_witness_EncodeAppendsTheCode :
    encoding.phase = .encoding ∧ (codeAt encoding.code 0x61#8).valid = true ∧ (codeAt encoding.code 0x7A#8).valid = false := by
  decide +kernel

/-- Three bits pending, and none. -/
theorem test_witness_FlushPadsTheLastByte :
    encoding.phase = .encoding ∧ encoding.bitCnt ≠ 0 ∧ ({ encoding with bitCnt := 0 } : State).bitCnt = 0 := by decide

theorem test_witness_PayloadIsTheCodes :
    ({ built with phase := .encoding } : State).phase = .encoding ∧ ({ built with phase := .encoding } : State).bitCnt = 0 ∧
    ∀ b ∈ [0x61#8, 0x62#8], (codeAt ({ built with phase := .encoding } : State).code b).valid = true := by decide +kernel

/-- A leaf child before and after the last counted symbol, in both tail modes; and an internal child. -/
theorem test_witness_WalkBitFollowsTheTree :
    (∃ e d, nodeAt payload.node payload.cursor = some e ∧ nodeAt payload.node e.left = some d ∧ d.internal = false) ∧
    payload.outCount.toNat < payload.total.toNat ∧
    ({ payload with outCount := 4#72 } : State).total.toNat ≤ ({ payload with outCount := 4#72 } : State).outCount.toNat ∧
    (2#2).getLsbD 1 = true ∧ (0#2).getLsbD 1 = false ∧
    (∃ e d, nodeAt (setNode aaabNode 3 { used := true, internal := true, sym := 0, left := 2#9, right := 1#9, weight := 5#72 }) 3#9 =
        some e ∧
      nodeAt (setNode aaabNode 3 { used := true, internal := true, sym := 0, left := 2#9, right := 1#9, weight := 5#72 }) e.left =
        some d ∧ d.internal = true) := by
  refine ⟨⟨_, _, test_given_nodes.1, test_given_nodes.2.1, rfl⟩, by decide, by decide, by decide, by decide, ?_⟩
  exact ⟨_, _, test_given_inner.1, test_given_inner.2, rfl⟩

/-- The empty tree, the one-symbol tree, and an internal root in a state that meets the invariant. -/
theorem test_witness_PayloadByteIsWalked :
    ({ State.reset with phase := .decPayload } : State).root = Config.nilIndex ∧
    (∃ r, nodeAt degenerate.node degenerate.root = some r ∧ r.internal = false) ∧ degenerate.phase = .decPayload ∧
    walking.phase = .decPayload ∧ Inv walking ∧ ∃ r, nodeAt walking.node walking.root = some r ∧ r.internal = true :=
  ⟨rfl, ⟨_, test_given_nodes.2.2.1, rfl⟩, rfl, rfl, test_walking_inv _, test_walking_root⟩

theorem test_witness_CodeWalksToItsSymbol :
    Inv walking ∧ (∃ r, nodeAt walking.node walking.root = some r ∧ r.internal = true) ∧ walking.cursor = walking.root ∧
    (codeAt walking.code 0x61#8).valid = true := by
  obtain ⟨-, -, hc, hcur⟩ := test_walkingOf_fields aaabFreq
  refine ⟨test_walking_inv _, test_walking_root, hcur, ?_⟩
  unfold walking
  rw [hc]
  exact test_walking_tree.2.2.2.1

theorem test_witness_DecEndClosesThePass :
    headerStart.phase = .decHdr ∧ degenerate.phase = .decPayload ∧
    (∃ r, nodeAt degenerate.node degenerate.root = some r ∧ r.internal = false) ∧
    payload.phase = .decPayload ∧ (∃ r, nodeAt payload.node payload.root = some r ∧ r.internal = true) ∧
    ({ State.reset with phase := .decPayload } : State).root = Config.nilIndex :=
  ⟨rfl, rfl, ⟨_, test_given_nodes.2.2.1, rfl⟩, rfl, ⟨_, test_given_nodes.1, rfl⟩, rfl⟩

/-- A drain with output waiting, and a command. -/
theorem test_witness_OutputIsAppendOnly :
    (∃ t, step { State.reset with out := [1], input := [.drain] } = .next t) ∧
    (∃ t, step { State.reset with out := [1], input := [.command 0x0000#16] } = .next t) ∧
    ([HostInput.drain].head? ≠ some .reset) ∧ ([HostInput.command 0x0000#16].head? ≠ some .drain) ∧ (0 ≤ [1#8].length) :=
  ⟨⟨_, rfl⟩, ⟨_, rfl⟩, by decide, by decide, by decide⟩

/-- A command, an illegal word and reset, each from a state whose PHASE it changes. -/
theorem test_witness_PhaseIsEnteredOnlyByItsCommand :
    (∃ t, step (State.reset.withFetchWord 16 0x2000) = .next t ∧ t.phase ≠ (State.reset.withFetchWord 16 0x2000).phase) ∧
    (∃ t, step (State.reset.withFetchWord 16 0xFFFF) = .next t ∧ t.phase ≠ (State.reset.withFetchWord 16 0xFFFF).phase) ∧
    (∃ t, step { failed with input := [.reset] } = .next t ∧ t.phase ≠ failed.phase) :=
  ⟨⟨_, rfl, by decide⟩, ⟨_, rfl, by decide⟩, ⟨_, rfl, by decide⟩⟩

theorem test_witness_NoCommandReadsAFlag : ∃ t, exec .flush encoding = .next t := ⟨_, rfl⟩

/-- No event waiting, and no command word among the events. -/
theorem test_witness_PortReads :
    (∀ w, HostInput.command w ∉ State.reset.input) ∧
    ∀ w, HostInput.command w ∉ ({ State.reset with input := [.drain, .reset] } : State).input :=
  ⟨fun w => by simp [State.reset], fun w => by simp⟩

/-- R28: with a command word queued, ID still reads its constant. -/
theorem test_portRead_id_busy : portRead (State.reset.withFetchWord 16 0x0000) 7 0x0000#16 = 0x48430001#32 := by
  decide

/-- The ends of the four reserved ranges, and an unused node. -/
theorem test_witness_ReservedAddressesReadZero :
    (0x000D ≤ (0x000D#16).toNat ∧ (0x000D#16).toNat ≤ 0x000F) ∧ (0x0019 ≤ (0x00FF#16).toNat ∧ (0x00FF#16).toNat ≤ 0x00FF) ∧
    (0x0C00 ≤ (0x0FFF#16).toNat ∧ (0x0FFF#16).toNat ≤ 0x0FFF) ∧ 0x1FF8 ≤ (0x1FF8#16).toNat ∧
    (∃ e, nodeAt State.reset.node 510#9 = some e ∧ e.used = false) ∧ 7 < 8 :=
  ⟨by decide, by decide, by decide, by decide, ⟨_, test_given_nodes.2.2.2, rfl⟩, by decide⟩

/-- Code bit 255, and a used node. -/
theorem test_witness_TableWindows :
    255 < 256 ∧ ∃ e, nodeAt built.node 2#9 = some e ∧ e.used = true := ⟨by decide, ⟨_, test_given_nodes.1, rfl⟩⟩

theorem test_witness_ResetState : ({ encoding with input := [.reset] } : State).input = .reset :: [] := rfl

theorem test_witness_StepKeepsTheInvariant : Inv walking ∧ ∃ t, step walking = .next t := ⟨test_walking_inv _, ⟨_, rfl⟩⟩

theorem test_witness_NoWordStopsTheEngine : Inv walking := test_walking_inv _

/-- `walkingOf` with every counted symbol out: OUT_COUNT = TOTAL. -/
def walkedOf (freq : Vector Freq 256) : State := { walkingOf freq with outCount := (walkingOf freq).total }

theorem test_walked_inv (freq : Vector Freq 256) :
    Inv (walkedOf freq) ∧ (walkedOf freq).total.toNat ≤ (walkedOf freq).outCount.toNat ∧
    (walkedOf freq).cursor = (walkedOf freq).root ∧ (walkedOf freq).node = (walkingOf freq).node ∧
    (walkedOf freq).root = (walkingOf freq).root := by
  have h := test_walking_inv freq
  have ht := h.tree rfl
  refine ⟨?_, Nat.le_refl _, rfl, rfl, rfl⟩
  exact
    { bitBuf := h.bitBuf, drained := h.drained, errNone := h.errNone, errSome := h.errSome, header := ⟨rfl, rfl⟩
      phase := ⟨rfl, rfl⟩, noTree := fun hv => (nomatch hv), cursor := .inl rfl, outCount := fun _ => BitVec.le_refl _
      tree := fun _ => ⟨ht.node, ht.root, ht.code, ht.nsym, ht.total, ht.empty, ht.degenerate⟩ }

theorem test_witness_PaddingTracesTheLeftmostLeaf :
    Inv (walkedOf aaabFreq) ∧
    (∃ r, nodeAt (walkedOf aaabFreq).node (walkedOf aaabFreq).root = some r ∧ r.internal = true) ∧
    (walkedOf aaabFreq).cursor = (walkedOf aaabFreq).root ∧
    (walkedOf aaabFreq).total.toNat ≤ (walkedOf aaabFreq).outCount.toNat := by
  obtain ⟨hi, ho, hc, hn, hr⟩ := test_walked_inv aaabFreq
  refine ⟨hi, ?_, hc, ho⟩
  rw [hn, hr]
  exact test_walking_root

/-- Both byte orders are the same after reset, with the strict tail; and one symbol only, for the last clause. For
`CompatibleTailRoundTrip` the first string has two symbols. -/
theorem test_witness_RoundTrip :
    (∀ b, [0x61#8, 0x61#8, 0x61#8, 0x62#8].count b < 2 ^ 64) ∧ State.reset.ctrl.getLsbD 0 = State.reset.ctrl.getLsbD 0 ∧
    State.reset.ctrl.getLsbD 1 = false ∧ (∀ b, [0x41#8, 0x41#8].count b < 2 ^ 64) ∧
    ∀ a b, a ∈ [0x41#8, 0x41#8] → b ∈ [0x41#8, 0x41#8] → a = b := by
  refine ⟨fun b => ?_, rfl, rfl, fun b => ?_, fun a b ha hb => ?_⟩
  · have h : [0x61#8, 0x61#8, 0x61#8, 0x62#8].count b ≤ 4 := List.count_le_length
    omega
  · have h : [0x41#8, 0x41#8].count b ≤ 2 := List.count_le_length
    omega
  · simp at ha hb
    rw [ha, hb]

end Sys2Proof.Tests
end

section
/-!
PROOFS. No command word stops the engine (00_scope.md R10). The one way a step could end in no next state is the tree
walk of DEC_BYTE at NIL (45_decoder.md R264). The walk goes from internal node to internal node of a good arena, and
there every child has an entry.
-/

namespace Sys2Proof.Machine

/-! ## The walk never reaches NIL (45_decoder.md R264) -/

/-- The walk can go on: the arena is good, and ROOT and CURSOR are internal nodes (10_state.md R31, R38). -/
structure WalkReady (s : State) : Prop where
  arena : ∃ k, ArenaOk s.node k s.root
  root : ∃ r, nodeAt s.node s.root = some r ∧ r.internal = true
  cursor : ∃ e, nodeAt s.node s.cursor = some e ∧ e.internal = true

/-- A built tree is a good arena (10_state.md R38). -/
theorem TreeBuilt.arenaOk {s : State} (h : TreeBuilt s) : ArenaOk s.node (distinctSymbols s.freq) s.root := by
  rw [h.node, h.root]
  exact buildArena_ok s.freq

/-- Before a tree is built ROOT is NIL, so a root with an entry means that the tree is valid. -/
theorem Inv.treeValid_of_root {s : State} (h : Inv s) {r : NodeEntry} (hr : nodeAt s.node s.root = some r) :
    s.flags.treeValid = true := by
  by_contra hv
  have hnil := (h.noTree (by simpa using hv)).root
  rw [(nodeAt_eq_none_iff _ _).mpr hnil] at hr
  cases hr

/-- Under the invariant an internal root is enough for the walk. -/
theorem Inv.walkReady {s : State} (h : Inv s) {r : NodeEntry} (hr : nodeAt s.node s.root = some r)
    (hi : r.internal = true) : WalkReady s where
  arena := ⟨_, (h.tree (h.treeValid_of_root hr)).arenaOk⟩
  root := ⟨r, hr, hi⟩
  cursor := by
    rcases h.cursor with hc | ⟨-, he⟩
    · exact ⟨r, by rw [hc]; exact hr, hi⟩
    · exact he

/-- One bit finds an entry, and the walk can go on after it: CURSOR is at an internal node or at ROOT again. -/
theorem WalkReady.walkBit_some {s : State} (h : WalkReady s) (c : Bool) : ∃ t, walkBit c s = some t ∧ WalkReady t := by
  obtain ⟨⟨k, ha⟩, hr, e, he, hi⟩ := h
  obtain ⟨d, hd⟩ := arena_child_some ha he hi c
  refine ⟨arriveAt (childOf e c) d s, by simp only [walkBit, he, hd], ?_⟩
  unfold arriveAt
  split
  · next hdi => exact ⟨⟨k, ha⟩, hr, d, hd, hdi⟩
  · exact ⟨⟨k, by simpa using ha⟩, by simpa using hr, by simpa using hr⟩

theorem WalkReady.walkBits_some {s : State} (h : WalkReady s) (cs : List Bool) :
    ∃ t, walkBits cs s = some t ∧ WalkReady t := by
  induction cs generalizing s with
  | nil => exact ⟨s, rfl, h⟩
  | cons c cs ih =>
    obtain ⟨u, hu, hready⟩ := h.walkBit_some c
    obtain ⟨t, ht, htready⟩ := ih hready
    exact ⟨t, by simp only [walkBits, hu, ht], htready⟩

/-! ## No rule is stuck -/

/-- The rule has an outcome of the spec: it completes or it raises (00_scope.md R15). -/
def Effect.Ends (e : Effect) : Prop := ∀ f, e ≠ .stuck f

@[simp] theorem Effect.ends_done (s : State) : (Effect.done s).Ends := fun _ h => nomatch h

@[simp] theorem Effect.ends_raise (c : ErrorCode) (sub : Byte) : (Effect.raise c sub).Ends := fun _ h => nomatch h

theorem hdrByte_ends (b : Byte) (s : State) : (hdrByte b s).Ends := by
  rcases hdrByte_raise_or_done b s with ⟨t, h⟩ | ⟨sub, h⟩ <;> simp [h]

theorem payloadByte_ends {s : State} (h : Inv s) (b : Byte) : (payloadByte b s).Ends := by
  unfold payloadByte
  split
  · simp
  · next r hr =>
    split
    · next hi =>
      obtain ⟨t, ht, -⟩ := (h.walkReady hr hi).walkBits_some (bitsOfByte b)
      simp [ht]
    · simp

theorem decByteRule_ends {s : State} (h : Inv s) (b : Byte) : (decByteRule b s).Ends := by
  unfold decByteRule
  split
  · exact hdrByte_ends b s
  · exact payloadByte_ends h b

/-- Under the invariant the rule of every command completes or raises; DEC_BYTE alone needs the invariant. -/
theorem ruleOf_ends {s : State} (h : Inv s) (i : Instr) : (ruleOf i s).Ends := by
  cases i with
  | nop => exact Effect.ends_done _
  | clear => exact Effect.ends_done _
  | wrctrl f => exact Effect.ends_done _
  | abort r =>
    simp only [ruleOf, abortRule]
    split <;> simp
  | count b =>
    simp only [ruleOf, countRule]
    split <;> simp
  | build => exact Effect.ends_done _
  | hdrEmit => exact Effect.ends_done _
  | encode b =>
    simp only [ruleOf, encodeRule]
    split <;> simp
  | flush => exact Effect.ends_done _
  | decStart => exact Effect.ends_done _
  | decByte b => exact decByteRule_ends h b
  | decEnd =>
    simp only [ruleOf, decEndRule]
    split <;> simp

/-! ## Every step ends in a next state -/

theorem Effect.Ends.settle_next {e : Effect} (h : e.Ends) (op : Byte) (s : State) : ∃ t, settle op s e = .next t := by
  cases e with
  | done t => exact ⟨t, rfl⟩
  | raise c sub => exact ⟨errorEntry op c sub s, rfl⟩
  | stuck f => exact absurd rfl (h f)

/-- Dispatch answers a next state unless the command's own rule is stuck (30_encoding.md R108). -/
theorem dispatch_next (i : Instr) {body : State → Effect} {s : State} (h : (body s).Ends) :
    ∃ t, dispatch i body s = .next t := by
  unfold dispatch
  split
  · exact ⟨s, rfl⟩
  · split
    · exact ⟨_, rfl⟩
    · split
      · exact ⟨_, rfl⟩
      · exact h.settle_next i.opcode s

theorem exec_next {s : State} (h : Inv s) (i : Instr) : ∃ t, exec i s = .next t := by
  rw [exec_eq_dispatch]
  exact dispatch_next i (ruleOf_ends h i)

theorem stepWord_next {s : State} (h : Inv s) (w : CmdWord) : ∃ t, stepWord w s = .next t := by
  unfold stepWord
  split
  · next i _ => exact exec_next h i
  · exact ⟨illegalWord w s, rfl⟩

/-- The invariant does not speak of the host's events still to come. -/
theorem Inv.withInput {s : State} (h : Inv s) (l : List HostInput) : Inv { s with input := l } where
  bitBuf := h.bitBuf
  drained := h.drained
  errNone := h.errNone
  errSome := h.errSome
  header := h.header
  phase := h.phase
  tree hv := treeBuilt_congr (h.tree hv) rfl rfl rfl rfl rfl rfl rfl rfl
  noTree hv := treeClear_congr (h.noTree hv) rfl rfl rfl rfl rfl rfl rfl
  cursor := h.cursor
  outCount := h.outCount

/-- Settles O56: the walk of DEC_BYTE is the one way to a fault, and under the invariant it never reaches NIL. -/
theorem noWordStopsTheEngine : Obligations.NoWordStopsTheEngine := by
  intro s hs
  unfold step
  split
  · exact ⟨s, rfl⟩
  · next w rest _ => exact stepWord_next (hs.withInput rest) w
  · exact ⟨_, rfl⟩
  · exact ⟨_, rfl⟩

end Sys2Proof.Machine
end

section
/-!
PROOFS. Every way a step can end, said once: the events of the host, the words the block discards, the errors, and what
each command leaves when it completes (00_scope.md R9; 30_encoding.md R108).
-/

namespace Sys2Proof.Machine

/-! ## Words and commands (30_encoding.md R103, R104) -/

theorem decodeNone_legal {i j : Instr} {w : CmdWord} (h : decodeNone i w = .legal j) :
    j = i ∧ operandOf w = 0x00#8 := by
  unfold decodeNone at h
  split at h
  · next ha => exact ⟨(Decoded.legal.inj h).symm, ha⟩
  · cases h

/-- A command the decoder gives is well formed, and its two fields are those of the word. -/
theorem decode_legal_fields {w : CmdWord} {i : Instr} (h : decode w = .legal i) :
    i.WF ∧ i.opcode = opcodeOf w ∧ i.operand = operandOf w := by
  have hop : ∀ op : Byte, (opcodeOf w).toNat = op.toNat → op = opcodeOf w := fun op e => (BitVec.eq_of_toNat_eq e).symm
  unfold decode at h
  split at h
  case h_1 e | h_2 e | h_6 e | h_7 e | h_9 e | h_10 e | h_12 e =>
    obtain ⟨rfl, ha⟩ := decodeNone_legal h
    exact ⟨rfl, hop _ e, ha.symm⟩
  case h_5 e | h_8 e | h_11 e =>
    cases h
    exact ⟨rfl, hop _ e, rfl⟩
  case h_3 e =>
    unfold decodeCtrl at h
    split at h
    · next ha =>
      cases h
      exact ⟨by simpa [Instr.WF, Instr.wellFormed] using ha, hop _ e, rfl⟩
    · cases h
  case h_4 e =>
    unfold decodeReason at h
    split at h
    · next ha =>
      cases h
      exact ⟨by simpa [Instr.WF, Instr.wellFormed] using ha, hop _ e, rfl⟩
    · cases h
  case h_13 => cases h

/-- The decoder drops no bit: the word of a legal command is the command's encoding (R103). -/
theorem encode_eq_of_decode {w : CmdWord} {i : Instr} (h : decode w = .legal i) : encode i = w := by
  obtain ⟨-, hop, ha⟩ := decode_legal_fields h
  unfold encode
  rw [hop, ha, word_eq_append]

/-! ## What a command that completes leaves -/

/-- The state in which a command completes. -/
inductive Completes (s : State) : Instr → State → Prop
  | nop : Completes s .nop s
  | clear : Completes s .clear { initPass s with phase := .idle }
  | wrctrl (f : Byte) : Completes s (.wrctrl f) { s with ctrl := ctrlBits f }
  | count (b : Byte) (h : freqAt s.freq b ≠ BitVec.allOnes 64) :
    Completes s (.count b) { s with freq := setFreq s.freq b (freqAt s.freq b + 1) }
  | build : Completes s .build { buildTree s with phase := .built }
  | hdrEmit : Completes s .hdrEmit
      { emitAll (headerBytes (hdrBe s.activeCtrl) s.nsym s.freq) s with phase := .encoding }
  | encode (b : Byte) (h : (codeAt s.code b).valid ≠ false) :
    Completes s (.encode b) { putBits (codeOf (codeAt s.code b)) s with encCount := satInc s.encCount }
  | flush : Completes s .flush
      { flushBits s with flags := setEncMismatch (s.encCount != s.total) s.flags, phase := .encDone }
  | decStart : Completes s .decStart { initPass s with phase := .decHdr }
  | header (b : Byte) {t : State} (hp : s.phase = .decHdr) (h : hdrByte b s = .done t) : Completes s (.decByte b) t
  | payload (b : Byte) {t : State} {r : NodeEntry} (hp : s.phase ≠ .decHdr) (hroot : nodeAt s.node s.root = some r)
    (hi : r.internal = true) (h : walkBits (bitsOfByte b) s = some t) : Completes s (.decByte b) t
  | decEnd (hp : s.phase ≠ .decHdr) : Completes s .decEnd (closeDecode (regenerate s))

theorem payloadByte_done {b : Byte} {s t : State} (h : payloadByte b s = .done t) :
    ∃ r, nodeAt s.node s.root = some r ∧ r.internal = true ∧ walkBits (bitsOfByte b) s = some t := by
  unfold payloadByte at h
  split at h
  · cases h
  · next r hr =>
    split at h
    · next hi =>
      split at h
      · next hw =>
        cases h
        exact ⟨r, hr, hi, hw⟩
      · cases h
    · cases h

theorem completes_of_ruleOf {i : Instr} {s t : State} (h : ruleOf i s = .done t) : Completes s i t := by
  cases i with
  | nop => cases h; exact .nop
  | clear => cases h; exact .clear
  | wrctrl f => cases h; exact .wrctrl f
  | abort r =>
    simp only [ruleOf, abortRule] at h
    split at h <;> cases h
  | count b =>
    simp only [ruleOf, countRule] at h
    split at h
    · cases h
    · next hf =>
      cases h
      exact .count b hf
  | build => cases h; exact .build
  | hdrEmit => cases h; exact .hdrEmit
  | encode b =>
    simp only [ruleOf, encodeRule] at h
    split at h
    · cases h
    · next hv =>
      cases h
      exact .encode b hv
  | flush => cases h; exact .flush
  | decStart => cases h; exact .decStart
  | decByte b =>
    simp only [ruleOf, decByteRule] at h
    split at h
    · next hp => exact .header b hp h
    · next hp =>
      obtain ⟨r, hr, hi, hw⟩ := payloadByte_done h
      exact .payload b hp hr hi hw
  | decEnd =>
    simp only [ruleOf, decEndRule] at h
    split at h
    · cases h
    · next hp =>
      cases h
      exact .decEnd hp

/-! ## How a step ends -/

/-- The ways in which a step from s ends in a next state. -/
inductive StepCase (s : State) : State → Prop
  /-- no event is waiting (60_exceptions.md R314) -/
  | hold (hin : s.input = []) : StepCase s s
  /-- the host is ready for an output byte (20_memory.md R75) -/
  | drain {rest : List HostInput} (hin : s.input = .drain :: rest) : StepCase s (drainOne { s with input := rest })
  /-- rst (70_reset_and_hazards.md R340) -/
  | reset {rest : List HostInput} (hin : s.input = .reset :: rest) : StepCase s (hardReset { s with input := rest })
  /-- a word that does nothing in ERROR (60_exceptions.md R305) -/
  | discard {w : CmdWord} {rest : List HostInput} (hin : s.input = .command w :: rest) (hp : s.phase = .error) :
    StepCase s { s with input := rest }
  /-- an error: of the decoder, of the sequence check or of the command's own rule (60_exceptions.md R301) -/
  | raise {w : CmdWord} {rest : List HostInput} {c : ErrorCode} {sub : Byte} (hin : s.input = .command w :: rest)
    (hp : s.phase ≠ .error) (hc : c ≠ .none) :
    StepCase s (errorEntry (opcodeOf w) c sub { s with input := rest })
  /-- a command that completes -/
  | complete {i : Instr} {rest : List HostInput} {t : State} (hin : s.input = .command (encode i) :: rest)
    (hp : s.phase ≠ .error ∨ recovers i = true) (ha : allowed i s.phase = true)
    (hc : Completes { s with input := rest } i t) : StepCase s t

/-- The header parser's errors are MALFORMED_CONTAINER (43_container_header.md R212). -/
theorem hdrByte_raise {b : Byte} {s : State} {c : ErrorCode} {sub : Byte} (h : hdrByte b s = .raise c sub) :
    c = .malformedContainer := by
  rcases hdrByte_raise_or_done b s with ⟨t, ht⟩ | ⟨sub', hr⟩
  · rw [ht] at h
    cases h
  · rw [hr] at h
    cases h
    rfl

theorem payloadByte_raise {b : Byte} {s : State} {c : ErrorCode} {sub : Byte} (h : payloadByte b s = .raise c sub) :
    c ≠ .none := by
  unfold payloadByte at h
  split at h
  · cases h
    decide
  · split at h
    · split at h <;> cases h
    · cases h
      decide

/-- A rule that raises has an error to record, and it is not one of the commands that execute in ERROR. -/
theorem ruleOf_raise {i : Instr} {s : State} {c : ErrorCode} {sub : Byte} (h : ruleOf i s = .raise c sub) :
    c ≠ .none ∧ recovers i = false := by
  refine ⟨?_, ?_⟩
  · cases i with
    | nop | clear | wrctrl | build | hdrEmit | flush | decStart => cases h
    | abort r =>
      simp only [ruleOf, abortRule] at h
      split at h <;> cases h <;> decide
    | count b =>
      simp only [ruleOf, countRule] at h
      split at h <;> cases h
      decide
    | encode b =>
      simp only [ruleOf, encodeRule] at h
      split at h <;> cases h
      decide
    | decByte b =>
      simp only [ruleOf, decByteRule] at h
      split at h
      · rw [hdrByte_raise h]
        decide
      · exact payloadByte_raise h
    | decEnd =>
      simp only [ruleOf, decEndRule] at h
      split at h <;> cases h
      decide
  · cases i with
    | nop | clear | wrctrl | decStart => cases h
    | _ => rfl

theorem stepCase_of_stepWord {s t : State} {w : CmdWord} {rest : List HostInput} (hin : s.input = .command w :: rest)
    (h : stepWord w { s with input := rest } = .next t) : StepCase s t := by
  unfold stepWord at h
  split at h
  · next i hd =>
    obtain ⟨hw, hop, -⟩ := decode_legal_fields hd
    rw [exec_eq_dispatch] at h
    rcases dispatch_next_cases h with ⟨hp, -, rfl⟩ | ⟨hp, ⟨hn, -⟩ | ⟨-, -, rfl⟩⟩ | ⟨-, hp, ha, ⟨c, sub, hr, rfl⟩ | hr⟩
    · exact .discard hin hp
    · exact absurd hw hn
    · rw [hop]
      exact .raise hin hp (by decide)
    · obtain ⟨hc, hrec⟩ := ruleOf_raise hr
      rw [hop]
      exact .raise hin (hp.resolve_right (by simp [hrec])) hc
    · exact .complete (by rw [hin, encode_eq_of_decode hd]) hp ha (completes_of_ruleOf hr)
  · cases h
    unfold illegalWord
    split
    · next hp => exact .discard hin hp
    · next hp => exact .raise hin hp (by decide)

theorem stepCase_of_step {s t : State} (h : step s = .next t) : StepCase s t := by
  unfold step at h
  split at h
  · next hin =>
    cases h
    exact .hold hin
  · next w rest hin => exact stepCase_of_stepWord hin h
  · next rest hin =>
    cases h
    exact .drain hin
  · next rest hin =>
    cases h
    exact .reset hin

end Sys2Proof.Machine
end

section
/-!
PROOFS. Every step keeps the invariant. One lemma per operation says that it keeps the invariant; BUILD and the last
header byte, which write the tree, share the lemma about BuildTree.
-/

namespace Sys2Proof.Machine

/-! ## Updates that leave the tree alone -/

/-- Emitting bytes keeps the invariant: OUT only grows (20_memory.md R75). -/
theorem Inv.emitAll {s : State} (h : Inv s) (bs : List Byte) : Inv (emitAll bs s) :=
  { h with
    drained := by
      have hd := h.drained
      simp only [emitAll_drained, emitAll_out, List.length_append]
      omega
    tree := fun hv => { h.tree hv with }
    noTree := fun hv => { h.noTree hv with } }

theorem Inv.withBuffer {s : State} (h : Inv s) (buf : Byte) (cnt : BitVec 3) (hb : buf.toNat < 2 ^ cnt.toNat) :
    Inv { s with bitBuf := buf, bitCnt := cnt } :=
  { h with
    bitBuf := hb
    tree := fun hv => { h.tree hv with }
    noTree := fun hv => { h.noTree hv with } }

theorem Inv.withCtrl {s : State} (h : Inv s) (c : BitVec 2) : Inv { s with ctrl := c } :=
  { h with
    tree := fun hv => { h.tree hv with }
    noTree := fun hv => { h.noTree hv with } }

theorem Inv.withEncCount {s : State} (h : Inv s) (n : Weight) : Inv { s with encCount := n } :=
  { h with
    tree := fun hv => { h.tree hv with }
    noTree := fun hv => { h.noTree hv with } }

/-- With the strict tail OUT_COUNT may grow up to TOTAL (10_state.md R24). -/
theorem Inv.withOutCount {s : State} (h : Inv s) (n : Weight) (hn : compatTail s.activeCtrl = false → n ≤ s.total) :
    Inv { s with outCount := n } :=
  { h with
    outCount := hn
    tree := fun hv => { h.tree hv with }
    noTree := fun hv => { h.noTree hv with } }

theorem Inv.withCursor {s : State} (h : Inv s) (n : NodeIndex) (hn : CursorOk { s with cursor := n }) :
    Inv { s with cursor := n } :=
  { h with
    cursor := hn
    tree := fun hv => { h.tree hv with }
    noTree := fun hv => { h.noTree hv with } }

/-- Of the flags the invariant speaks of the three of the tree only (10_state.md R26). -/
theorem Inv.withFlags {s : State} (h : Inv s) (f : StatusFlags) (hv : f.treeValid = s.flags.treeValid)
    (he : f.treeEmpty = s.flags.treeEmpty) (hd : f.degenerate = s.flags.degenerate) : Inv { s with flags := f } :=
  { h with
    phase := by simpa only [PhaseOk, hv] using h.phase
    tree := fun ht => treeBuilt_congr (h.tree (hv ▸ ht)) rfl rfl rfl rfl rfl rfl he hd
    noTree := fun ht => treeClear_congr (h.noTree (hv ▸ ht)) rfl rfl rfl rfl rfl he hd }

/-- A new phase that fits the pass keeps the invariant; the error entry is `Inv.errorEntry`. -/
theorem Inv.withPhase {s : State} (h : Inv s) (p : Phase) (hs : s.phase ≠ .error) (hp : p ≠ .error)
    (hok : PhaseOk { s with phase := p }) : Inv { s with phase := p } :=
  { h with
    errNone := fun _ => h.errNone hs
    errSome := fun he => absurd he hp
    phase := hok
    tree := fun hv => { h.tree hv with }
    noTree := fun hv => { h.noTree hv with } }

/-- A pass in any phase has a tree or a header that is not complete (10_state.md R23). -/
theorem PhaseOk.treeValid_or_notDone {s : State} (h : PhaseOk s) : s.flags.treeValid = true ∨ s.hdrStage ≠ .done := by
  unfold PhaseOk at h
  split at h
  case h_1 => exact .inr (by simp [h.2])
  case h_5 => exact .inr h.2
  case h_8 => exact h
  all_goals exact .inl h.1

theorem Inv.errorEntry {s : State} (h : Inv s) (op : Byte) {c : ErrorCode} (sub : Byte) (hs : s.phase ≠ .error)
    (hc : c ≠ .none) : Inv (errorEntry op c sub s) :=
  { h with
    errNone := fun hp => absurd rfl hp
    errSome := fun _ => ⟨hc, hs⟩
    phase := h.phase.treeValid_or_notDone
    tree := fun hv => { h.tree hv with }
    noTree := fun hv => { h.noTree hv with } }

theorem Inv.drainOne {s : State} (h : Inv s) : Inv (drainOne s) := by
  unfold Machine.drainOne
  split
  · next hlt =>
    exact
      { h with
        drained := hlt
        tree := fun hv => { h.tree hv with }
        noTree := fun hv => { h.noTree hv with } }
  · exact h

/-! ## Reset and InitPass (10_state.md R43, R44) -/

/-- The values InitPass gives are the invariant's, whatever CTRL and OUT hold. -/
theorem inv_initPass {s : State} (hd : s.drained ≤ s.out.length) {p : Phase} (hp : p = .idle ∨ p = .decHdr) :
    Inv { initPass s with phase := p } where
  bitBuf := by simp
  drained := hd
  errNone _ := rfl
  errSome he := by
    rcases hp with rfl | rfl <;> cases he
  header := ⟨by simp, rfl⟩
  phase := by
    rcases hp with rfl | rfl
    · exact ⟨rfl, rfl⟩
    · exact ⟨rfl, by simp⟩
  tree hv := nomatch hv
  noTree _ := ⟨rfl, rfl, rfl, rfl, rfl, rfl, rfl⟩
  cursor := .inl rfl
  outCount _ := by simp

/-- Settles O54: the reset state is what InitPass makes of it, in phase IDLE. -/
theorem resetMeetsTheInvariant : Obligations.ResetMeetsTheInvariant :=
  inv_initPass (s := State.reset) (Nat.le_refl _) (.inl rfl)

/-! ## FREQ, the header parser and the tree builder -/

/-- s with other frequencies and another state of the header parser: what COUNT and the bytes of a header write. -/
def State.withParser (s : State) (F : Vector Freq 256) (g : HdrStage) (pos : BitVec 4) (left : BitVec 9) (sym : Byte)
    (acc : BitVec 64) : State :=
  { s with freq := F, hdrStage := g, hdrPos := pos, hdrLeft := left, hdrSym := sym, hdrAcc := acc }

section
variable {s : State} {F : Vector Freq 256} {g : HdrStage} {pos : BitVec 4} {left : BitVec 9} {sym : Byte}
  {acc : BitVec 64}

/-- While there is no tree FREQ is free, and the parser's registers need only stay in their ranges. -/
theorem Inv.withParser (h : Inv s) (hv : s.flags.treeValid = false)
    (hg : HeaderOk (s.withParser F g pos left sym acc)) (hok : PhaseOk (s.withParser F g pos left sym acc)) :
    Inv (s.withParser F g pos left sym acc) :=
  { h with
    header := hg
    phase := hok
    tree := fun ht => absurd (hv.symm.trans ht) (by simp)
    noTree := fun _ => { h.noTree hv with } }

/-- BuildTree in a pass without a tree: TOTAL was 0, so no symbol is out with the strict tail. -/
theorem Inv.buildTree (h : Inv s) (hv : s.flags.treeValid = false) (hs : s.phase ≠ .error) {p : Phase}
    (hp : p ≠ .error) (hg : HeaderOk (s.withParser F g pos left sym acc))
    (hok : PhaseOk { buildTree (s.withParser F g pos left sym acc) with phase := p }) :
    Inv { buildTree (s.withParser F g pos left sym acc) with phase := p } where
  bitBuf := h.bitBuf
  drained := h.drained
  errNone _ := h.errNone hs
  errSome he := absurd he hp
  header := hg
  phase := hok
  tree _ := { buildTree_treeBuilt (s.withParser F g pos left sym acc) with }
  noTree ht := nomatch ht
  cursor := .inl rfl
  outCount hc := by
    have hle := h.outCount hc
    rw [(h.noTree hv).total] at hle
    have h0 : s.outCount = 0 := BitVec.le_zero_iff.mp hle
    exact h0 ▸ Nat.zero_le _

end

/-- COUNT writes FREQ in phase IDLE, where there is no tree (41_frequency_counter.md R151). -/
theorem Inv.withFreq {s : State} (h : Inv s) (hp : s.phase = .idle) (F : Vector Freq 256) :
    Inv { s with freq := F } := by
  have hok := h.phase
  simp only [PhaseOk, hp] at hok
  exact h.withParser hok.1 h.header h.phase

/-- BUILD (42_tree_builder.md R178). -/
theorem Inv.build {s : State} (h : Inv s) (hp : s.phase = .idle) :
    Inv { Machine.buildTree s with phase := .built } := by
  have hok := h.phase
  simp only [PhaseOk, hp] at hok
  exact h.buildTree (F := s.freq) (acc := s.hdrAcc) (sym := s.hdrSym) hok.1 (by simp [hp]) (by simp) h.header
    ⟨rfl, hok.2⟩

theorem succ_toNat_of_lt {p : BitVec 4} {n : Nat} (h : p.toNat + 1 < n) (hn : n ≤ 8) :
    (BitVec.ofNat 4 (p.toNat + 1)).toNat < n := by
  rw [BitVec.toNat_ofNat]
  omega

theorem pred_toNat_of_pos {l : BitVec 9} (h : 0 < l.toNat) (h0 : l - 1 ≠ 0) :
    0 < (l - 1).toNat ∧ (l - 1).toNat < l.toNat := by
  constructor <;> bv_omega

theorem headerOk_symbol {s : State} {F : Vector Freq 256} {left : BitVec 9} {sym : Byte} {acc : BitVec 64}
    (h : 0 < left.toNat) (hle : left.toNat ≤ 256) : HeaderOk (s.withParser F .symbol 0 left sym acc) :=
  ⟨rfl, h, hle⟩

section
variable {s : State} (h : Inv s) (hp : s.phase = .decHdr) (hv : s.flags.treeValid = false)
include h hp hv

/-- A byte that does not complete the header (43_container_header.md R213 to R215). -/
theorem Inv.headerGoesOn {F : Vector Freq 256} {g : HdrStage} {pos : BitVec 4} {left : BitVec 9} {sym : Byte}
    {acc : BitVec 64} (hnd : g ≠ .done) (hg : HeaderOk (s.withParser F g pos left sym acc)) :
    Inv (s.withParser F g pos left sym acc) :=
  h.withParser hv hg (by simpa [PhaseOk, State.withParser, hp, hv] using hnd)

/-- A byte that does not complete its field: HDR_POS stays below the field's length. -/
theorem Inv.absorb (b : Byte)
    (hlt : s.hdrStage = .count ∧ s.hdrPos.toNat + 1 < 4 ∨ s.hdrStage = .frequency ∧ s.hdrPos.toNat + 1 < 8) :
    Inv (absorb b s) := by
  have hdr := h.header
  refine h.headerGoesOn hp hv (F := s.freq) (sym := s.hdrSym) (g := s.hdrStage) ?_ ?_
  · rcases hlt with ⟨hst, -⟩ | ⟨hst, -⟩ <;> simp [hst]
  · rcases hlt with ⟨hst, hlt⟩ | ⟨hst, hlt⟩
    all_goals
      simp only [HeaderOk, State.withParser, hst] at hdr ⊢
      exact ⟨succ_toNat_of_lt hlt (by omega), hdr.2⟩

/-- The last byte of a header (43_container_header.md R216). -/
theorem Inv.headerComplete (F : Vector Freq 256) :
    Inv (headerComplete { s with freq := F, hdrLeft := 0, hdrAcc := 0, hdrPos := 0 }) :=
  h.buildTree (g := .done) (sym := s.hdrSym) hv (by simp [hp]) (by simp) ⟨rfl, rfl⟩ ⟨rfl, rfl⟩

theorem Inv.takeCount {c : Nat} (hc : c ≤ 256) : Inv (takeCount c s) := by
  rcases takeCount_cases c s with ⟨-, ht⟩ | ⟨h0, ht⟩
  · rw [ht]
    exact h.headerComplete hp hv s.freq
  · rw [ht]
    have hl : (BitVec.ofNat 9 c).toNat = c := by
      rw [BitVec.toNat_ofNat]
      exact Nat.mod_eq_of_lt (by omega)
    exact h.headerGoesOn hp hv (F := s.freq) (sym := s.hdrSym) (by simp)
      (headerOk_symbol (by omega) (by omega))

theorem Inv.takeFrequency (v : Freq) (hpos : 0 < s.hdrLeft.toNat) (hle : s.hdrLeft.toNat ≤ 256) :
    Inv (takeFrequency v s) := by
  rcases takeFrequency_cases v s with ⟨-, ht⟩ | ⟨h0, ht⟩
  · rw [ht]
    exact h.headerComplete hp hv _
  · rw [ht]
    obtain ⟨hpos', hlt⟩ := pred_toNat_of_pos hpos h0
    exact h.headerGoesOn hp hv (sym := s.hdrSym) (by simp) (headerOk_symbol hpos' (by omega))

end

theorem Inv.hdrByte {s t : State} (h : Inv s) (hp : s.phase = .decHdr) {b : Byte} (ht : hdrByte b s = .done t) :
    Inv t := by
  have hok := h.phase
  simp only [PhaseOk, hp] at hok
  obtain ⟨hv, -⟩ := hok
  have hdr := h.header
  rcases hdrByte_done_cases ht with ⟨hst, hlt, rfl⟩ | ⟨hst, -, -, hle, rfl⟩ | ⟨hst, -, rfl⟩ | ⟨hst, hlt, rfl⟩ |
    ⟨hst, -, -, rfl⟩ | ⟨hst, rfl⟩
  · exact h.absorb hp hv b (.inl ⟨hst, hlt⟩)
  · exact h.takeCount hp hv (by omega)
  · simp only [HeaderOk, hst] at hdr
    exact h.headerGoesOn hp hv (F := s.freq) (g := .frequency) (left := s.hdrLeft) (by simp)
      ⟨Nat.zero_lt_succ 7, hdr.2⟩
  · exact h.absorb hp hv b (.inr ⟨hst, hlt⟩)
  · simp only [HeaderOk, hst] at hdr
    obtain ⟨-, hpos, hle⟩ := hdr
    exact h.takeFrequency hp hv _ hpos hle
  · exact h

/-! ## The writer and the walker -/

theorem Inv.putBit {s : State} (h : Inv s) (c : Bool) : Inv (putBit c s) := by
  have hb := putBit_bitBuf c s h.bitBuf
  unfold Machine.putBit at hb ⊢
  split
  · exact (h.emitAll _).withBuffer 0 0 (by simp)
  · next hn =>
    rw [if_neg hn] at hb
    exact h.withBuffer _ _ hb

theorem Inv.putBits {s : State} (h : Inv s) (p : List Bool) : Inv (putBits p s) := by
  induction p generalizing s with
  | nil => exact h
  | cons c cs ih => exact ih (h.putBit c)

theorem Inv.flushBits {s : State} (h : Inv s) : Inv (flushBits s) := by
  unfold Machine.flushBits
  split
  · exact h
  · exact (h.emitAll _).withBuffer 0 0 (by simp)

/-- A leaf: the symbol comes out while OUT_COUNT < TOTAL, and after that only with the compatible tail (R264). -/
theorem Inv.leafReached {s : State} (h : Inv s) (y : Byte) : Inv (leafReached y s) := by
  rcases leafReached_cases y s with ⟨hlt, he⟩ | ⟨-, hc, he⟩ | ⟨-, -, he⟩
  · rw [he]
    exact (h.emitAll [y]).withOutCount _ fun _ => by
      show s.outCount + 1 ≤ s.total
      bv_omega
  · rw [he]
    exact ((h.emitAll [y]).withOutCount _ fun hs => by
      rw [emitAll_activeCtrl, hc] at hs
      cases hs).withFlags (setOverrun s.flags) rfl rfl rfl
  · rw [he]
    exact h.withFlags (setOverrun s.flags) rfl rfl rfl

/-- One bit of the walk keeps the invariant and the root (45_decoder.md R264). -/
theorem Inv.walkBit {s t : State} (h : Inv s) {r : NodeEntry} (hr : nodeAt s.node s.root = some r)
    (hi : r.internal = true) {c : Bool} (ht : walkBit c s = some t) : Inv t ∧ nodeAt t.node t.root = some r := by
  obtain ⟨e, d, -, hd, ⟨hdi, rfl⟩ | ⟨-, rfl⟩⟩ := walkBit_cases ht
  · exact ⟨h.withCursor _ (.inr ⟨⟨r, hr, hi⟩, d, hd, hdi⟩), hr⟩
  · exact ⟨(h.leafReached d.sym).withCursor s.root (.inl (by simp)), by simpa using hr⟩

theorem Inv.walkBits {s t : State} (h : Inv s) {r : NodeEntry} (hr : nodeAt s.node s.root = some r)
    (hi : r.internal = true) {cs : List Bool} (ht : walkBits cs s = some t) : Inv t := by
  induction cs generalizing s with
  | nil =>
    cases ht
    exact h
  | cons c cs ih =>
    unfold Machine.walkBits at ht
    split at ht
    · cases ht
    · next u hu =>
      obtain ⟨hinv, hroot⟩ := h.walkBit hr hi hu
      exact ih hinv hroot ht

theorem Inv.regenerate {s : State} (h : Inv s) : Inv (regenerate s) := by
  unfold Machine.regenerate
  split
  · exact h
  · split
    · exact h
    · exact (h.emitAll _).withOutCount _ fun _ => BitVec.le_refl _

theorem Inv.closeDecode {s : State} (h : Inv s) (hp : s.phase = .decPayload) : Inv (closeDecode s) := by
  have hok := h.phase
  simp only [PhaseOk, hp] at hok
  exact (h.withFlags (setEndFlags (s.cursor != s.root) (decide (s.outCount < s.total)) s.flags) rfl rfl rfl).withPhase
    .decDone (by simp [hp]) (by simp) hok

/-! ## Every step -/

/-- A command that completes keeps the invariant. -/
theorem Inv.completes {s t : State} {i : Instr} (h : Inv s) (ha : allowed i s.phase = true) (hc : Completes s i t) :
    Inv t := by
  have hok := h.phase
  cases hc with
  | nop => exact h
  | clear => exact inv_initPass h.drained (.inl rfl)
  | wrctrl f => exact h.withCtrl _
  | count b => exact h.withFreq (by simpa [allowed] using ha) _
  | build => exact h.build (by simpa [allowed] using ha)
  | hdrEmit =>
    have hb : s.phase = .built := by simpa [allowed] using ha
    simp only [PhaseOk, hb] at hok
    exact (h.emitAll _).withPhase .encoding (by simp [hb]) (by simp) hok
  | encode b => exact (h.putBits _).withEncCount _
  | flush =>
    have hb : s.phase = .encoding := by simpa [allowed] using ha
    simp only [PhaseOk, hb] at hok
    have hf := h.flushBits.withFlags (setEncMismatch (s.encCount != s.total) s.flags) (by simp) (by simp) (by simp)
    exact hf.withPhase .encDone (by simp [hb]) (by simp) (by simpa [PhaseOk] using hok)
  | decStart => exact inv_initPass h.drained (.inr rfl)
  | header b hd ht => exact h.hdrByte hd ht
  | payload b _ hr hi ht => exact h.walkBits hr hi ht
  | decEnd hd =>
    have hb : s.phase = .decPayload := by
      simp only [allowed] at ha
      simpa [hd] using ha
    exact h.regenerate.closeDecode (by simpa using hb)

/-- Settles O55: the event taken, every way a step can end keeps the invariant. -/
theorem stepKeepsTheInvariant : Obligations.StepKeepsTheInvariant := by
  intro s t h hstep
  cases stepCase_of_step hstep with
  | hold => exact h
  | @drain rest => exact (h.withInput rest).drainOne
  | @reset rest => exact resetMeetsTheInvariant.withInput rest
  | @discard w rest => exact h.withInput rest
  | @raise w rest c sub _ hp hc => exact (h.withInput rest).errorEntry _ sub hp hc
  | @complete i rest _ _ _ ha hc => exact (h.withInput rest).completes ha hc

end Sys2Proof.Machine
end

section
/-!
PROOFS. Who writes the control registers, FREQ and PHASE: the frame of each operation first, then for each of these
elements the commands that write it, and from that the three statements over every step.
-/

namespace Sys2Proof.Machine

/-! ## Frames -/

/-- PutBits leaves all but the buffer and OUT alone, and OUT only grows (44_bitstream_writer.md R240). -/
theorem putBits_frame (p : List Bool) (s : State) :
    ∃ bs buf cnt, putBits p s = { s with out := s.out ++ bs, bitBuf := buf, bitCnt := cnt } := by
  induction p generalizing s with
  | nil => exact ⟨[], s.bitBuf, s.bitCnt, by simp [putBits]⟩
  | cons c cs ih =>
    obtain ⟨bs, buf, cnt, h⟩ := putBit_frame c s
    obtain ⟨bs', buf', cnt', h'⟩ := ih (putBit c s)
    refine ⟨bs ++ bs', buf', cnt', ?_⟩
    rw [← List.append_assoc]
    exact h'.trans (by rw [h])

@[simp] theorem putBits_phase (p : List Bool) (s : State) : (putBits p s).phase = s.phase := by
  obtain ⟨_, _, _, h⟩ := putBits_frame p s
  rw [h]

@[simp] theorem putBits_ctrl (p : List Bool) (s : State) : (putBits p s).ctrl = s.ctrl := by
  obtain ⟨_, _, _, h⟩ := putBits_frame p s
  rw [h]

@[simp] theorem putBits_activeCtrl (p : List Bool) (s : State) : (putBits p s).activeCtrl = s.activeCtrl := by
  obtain ⟨_, _, _, h⟩ := putBits_frame p s
  rw [h]

@[simp] theorem putBits_freq (p : List Bool) (s : State) : (putBits p s).freq = s.freq := by
  obtain ⟨_, _, _, h⟩ := putBits_frame p s
  rw [h]

/-- A bit of the walk moves CURSOR, and at a leaf it writes OUT, OUT_COUNT and OVERRUN; OUT only grows (R264). -/
theorem walkBit_frame {c : Bool} {s t : State} (h : walkBit c s = some t) :
    ∃ n bs k o, t =
      { s with cursor := n, out := s.out ++ bs, outCount := k, flags := { s.flags with overrun := o } } := by
  obtain ⟨e, d, -, -, ⟨-, rfl⟩ | ⟨-, rfl⟩⟩ := walkBit_cases h
  · exact ⟨childOf e c, [], s.outCount, s.flags.overrun, by simp⟩
  · rcases leafReached_cases d.sym s with ⟨-, hl⟩ | ⟨-, -, hl⟩ | ⟨-, -, hl⟩ <;> rw [hl]
    · exact ⟨s.root, [d.sym], _, s.flags.overrun, rfl⟩
    · exact ⟨s.root, [d.sym], _, true, rfl⟩
    · exact ⟨s.root, [], s.outCount, true, by simp [setOverrun]⟩

theorem walkBits_frame {cs : List Bool} {s t : State} (h : walkBits cs s = some t) :
    ∃ n bs k o, t =
      { s with cursor := n, out := s.out ++ bs, outCount := k, flags := { s.flags with overrun := o } } := by
  induction cs generalizing s with
  | nil =>
    cases h
    exact ⟨t.cursor, [], t.outCount, t.flags.overrun, by simp⟩
  | cons c cs ih =>
    unfold walkBits at h
    split at h
    · cases h
    · next u hu =>
      obtain ⟨_, bs, _, _, rfl⟩ := walkBit_frame hu
      obtain ⟨n, bs', k, o, rfl⟩ := ih h
      exact ⟨n, bs ++ bs', k, o, by simp⟩

/-- A header byte writes neither control register, and PHASE only when the header is complete (R212 to R216). -/
theorem hdrByte_frame {b : Byte} {s t : State} (h : hdrByte b s = .done t) :
    t.ctrl = s.ctrl ∧ t.activeCtrl = s.activeCtrl ∧ (t.phase = s.phase ∨ t.phase = .decPayload) := by
  rcases hdrByte_done_cases h with ⟨-, -, rfl⟩ | ⟨-, -, -, -, rfl⟩ | ⟨-, -, rfl⟩ | ⟨-, -, rfl⟩ |
    ⟨-, -, -, rfl⟩ | ⟨-, rfl⟩
  · simp
  · rcases takeCount_cases (headerCount (nextAcc b s)).toNat s with ⟨-, hc⟩ | ⟨-, hc⟩ <;> simp [hc]
  · simp
  · simp
  · rcases takeFrequency_cases (nextAcc b s) s with ⟨-, hc⟩ | ⟨-, hc⟩ <;> simp [hc]
  · simp

/-! ## The writers of each element -/

section
variable {s t : State} {i : Instr} (h : Completes s i t)
include h

theorem Completes.ctrl : t.ctrl = s.ctrl ∨ ∃ f, i = .wrctrl f ∧ t.ctrl = ctrlBits f := by
  cases h with
  | wrctrl f => exact .inr ⟨f, rfl, rfl⟩
  | header b _ ht => exact .inl (hdrByte_frame ht).1
  | payload b _ _ _ ht =>
    obtain ⟨_, _, _, _, rfl⟩ := walkBits_frame ht
    exact .inl rfl
  | _ => exact .inl (by simp)

theorem Completes.activeCtrl :
    t.activeCtrl = s.activeCtrl ∨ (i = .clear ∨ i = .decStart) ∧ t.activeCtrl = s.ctrl := by
  cases h with
  | clear => exact .inr ⟨.inl rfl, rfl⟩
  | decStart => exact .inr ⟨.inr rfl, rfl⟩
  | header b _ ht => exact .inl (hdrByte_frame ht).2.1
  | payload b _ _ _ ht =>
    obtain ⟨_, _, _, _, rfl⟩ := walkBits_frame ht
    exact .inl rfl
  | _ => exact .inl (by simp)

theorem Completes.freq :
    t.freq = s.freq ∨ (∃ b, i = .count b) ∨ (s.phase = .decHdr ∧ ∃ b, i = .decByte b) ∨ i = .clear ∨ i = .decStart := by
  cases h with
  | count b => exact .inr (.inl ⟨b, rfl⟩)
  | clear => exact .inr (.inr (.inr (.inl rfl)))
  | decStart => exact .inr (.inr (.inr (.inr rfl)))
  | header b hp => exact .inr (.inr (.inl ⟨hp, b, rfl⟩))
  | payload b _ _ _ ht =>
    obtain ⟨_, _, _, _, rfl⟩ := walkBits_frame ht
    exact .inl rfl
  | _ => exact .inl (by simp)

/-- The column "entered by" of 10_state.md R23, for the commands that complete. -/
theorem Completes.phase :
    t.phase = s.phase ∨ i = .clear ∧ t.phase = .idle ∨ i = .build ∧ t.phase = .built ∨
      i = .hdrEmit ∧ t.phase = .encoding ∨ i = .flush ∧ t.phase = .encDone ∨ i = .decStart ∧ t.phase = .decHdr ∨
      (∃ b, i = .decByte b) ∧ s.phase = .decHdr ∧ t.phase = .decPayload ∨
      i = .decEnd ∧ s.phase ≠ .decHdr ∧ t.phase = .decDone := by
  cases h with
  | header b hp ht =>
    rcases (hdrByte_frame ht).2.2 with hs | hs
    · exact .inl hs
    · simp [hp, hs]
  | payload b _ _ _ ht =>
    obtain ⟨_, _, _, _, rfl⟩ := walkBits_frame ht
    exact .inl rfl
  | decEnd hp => simp [hp]
  | _ => simp

end

/-! ## The statements -/

/-- Settles O15: an error and a discarded word leave both registers alone; each has its writers among the commands. -/
theorem onlyTheirWritersChangeControl : Obligations.OnlyTheirWritersChangeControl := by
  intro s t hstep
  cases stepCase_of_step hstep with
  | hold => simp
  | drain => simp
  | reset hin => exact ⟨fun _ => .inl (congrArg List.head? hin), fun _ => .inl (congrArg List.head? hin)⟩
  | discard => simp
  | raise => simp
  | complete hin _ _ hc =>
    have hhead := congrArg List.head? hin
    refine ⟨fun hne => ?_, fun hne => ?_⟩
    · rcases hc.ctrl with he | ⟨f, rfl, hf⟩
      · exact absurd he hne
      · exact .inr ⟨f, hhead, hf⟩
    · rcases hc.activeCtrl with he | ⟨rfl | rfl, hf⟩
      · exact absurd he hne
      · exact .inr ⟨.inl hhead, hf⟩
      · exact .inr ⟨.inr hhead, hf⟩

/-- Settles O19: COUNT and DEC_BYTE write FREQ only in the phase in which they do. -/
theorem frequenciesAreImmutable : Obligations.FrequenciesAreImmutable := by
  intro s t hstep hne
  cases stepCase_of_step hstep with
  | hold => exact absurd rfl hne
  | drain => exact absurd (by simp) hne
  | reset hin => exact .inr (.inr (.inr (.inr (congrArg List.head? hin))))
  | discard => exact absurd rfl hne
  | raise => exact absurd (by simp) hne
  | complete hin _ ha hc =>
    have hhead := congrArg List.head? hin
    rcases hc.freq with he | ⟨b, rfl⟩ | ⟨hp, b, rfl⟩ | rfl | rfl
    · exact absurd he hne
    · exact .inl ⟨by simpa [allowed] using ha, b, hhead⟩
    · exact .inr (.inl ⟨hp, b, hhead⟩)
    · exact .inr (.inr (.inl hhead))
    · exact .inr (.inr (.inr (.inl hhead)))

/-- Settles O46: each phase but ERROR has one command that enters it, and the sequence check gives the phase before. -/
theorem phaseIsEnteredOnlyByItsCommand : Obligations.PhaseIsEnteredOnlyByItsCommand := by
  intro s t hstep hne
  cases stepCase_of_step hstep with
  | hold => exact absurd rfl hne
  | drain => exact absurd (by simp) hne
  | reset hin => exact .inr (congrArg List.head? hin)
  | discard => exact absurd rfl hne
  | @raise w _ _ _ hin _ hc => exact ⟨w, congrArg List.head? hin, hc, rfl, rfl⟩
  | complete hin _ ha hc =>
    have hhead := congrArg List.head? hin
    rcases hc.phase with he | ⟨rfl, he⟩ | ⟨rfl, he⟩ | ⟨rfl, he⟩ | ⟨rfl, he⟩ | ⟨rfl, he⟩ | ⟨⟨b, rfl⟩, hp, he⟩ |
      ⟨rfl, hp, he⟩
    · exact absurd he hne
    all_goals rw [he] at hne ⊢
    · exact .inl hhead
    · exact ⟨hhead, by simpa [allowed] using ha⟩
    · exact ⟨hhead, by simpa [allowed] using ha⟩
    · exact ⟨hhead, by simpa [allowed] using ha⟩
    · exact hhead
    · exact ⟨⟨b, hhead⟩, hp⟩
    · exact ⟨hhead, by simpa [allowed, show s.phase ≠ .decHdr from hp] using ha⟩

end Sys2Proof.Machine
end

section
/-!
PROOFS. No command reads a status flag (10_state.md R41). A rule is blind to the flags if, whatever flags f stand in the
state, it ends in one and the same way, with some fixed flags of f overwritten by fixed values. Every rule is, and
dispatch reads none either.
-/

namespace Sys2Proof.Machine

/-- f, with the flags that w marks taken from v. -/
def StatusFlags.write (w v f : StatusFlags) : StatusFlags where
  treeValid := if w.treeValid then v.treeValid else f.treeValid
  treeEmpty := if w.treeEmpty then v.treeEmpty else f.treeEmpty
  degenerate := if w.degenerate then v.degenerate else f.degenerate
  overrun := if w.overrun then v.overrun else f.overrun
  underrun := if w.underrun then v.underrun else f.underrun
  tailPartial := if w.tailPartial then v.tailPartial else f.tailPartial
  encMismatch := if w.encMismatch then v.encMismatch else f.encMismatch

/-- f, with OVERRUN set if o says so. -/
def StatusFlags.orOverrun (o : Bool) (f : StatusFlags) : StatusFlags := { f with overrun := o || f.overrun }

theorem StatusFlags.orOverrun_orOverrun (o o' : Bool) (f : StatusFlags) :
    (f.orOverrun o).orOverrun o' = f.orOverrun (o' || o) := by
  simp only [StatusFlags.orOverrun, Bool.or_assoc]

/-- The flags of a write can be read back from its result. -/
theorem StatusFlags.write_write (w v g f : StatusFlags) : w.write (w.write v g) f = w.write v f := by
  simp +contextual [StatusFlags.write]

/-- Every flag. -/
def StatusFlags.all : StatusFlags :=
  { treeValid := true, treeEmpty := true, degenerate := true, overrun := true, underrun := true, tailPartial := true,
    encMismatch := true }

/-- An effect, as a function of the flags in the state, that reads none of them. -/
inductive FlagBlind (e : StatusFlags → Effect) : Prop
  | done (t : State) (w v : StatusFlags) (h : ∀ f, e f = .done { t with flags := w.write v f })
  | raise (c : ErrorCode) (sub : Byte) (h : ∀ f, e f = .raise c sub)
  | stuck (r : Fault) (h : ∀ f, e f = .stuck r)

theorem FlagBlind.of_eq {e e' : StatusFlags → Effect} (h : FlagBlind e') (he : ∀ f, e f = e' f) : FlagBlind e :=
  funext he ▸ h

/-- An operation that neither reads nor writes a flag. -/
theorem flagBlind_of_unwritten {e : StatusFlags → Effect} (t : State) (h : ∀ f, e f = .done { t with flags := f }) :
    FlagBlind e :=
  .done t StatusFlags.zero StatusFlags.zero h

/-! ## The walk (45_decoder.md R264): OVERRUN at most is set -/

theorem leafReached_withFlags (y : Byte) (s : State) :
    ∃ (t : State) (o : Bool), ∀ f, leafReached y { s with flags := f } = { t with flags := f.orOverrun o } := by
  by_cases hlt : s.outCount < s.total
  · exact ⟨{ emit y s with outCount := s.outCount + 1 }, false, fun f => if_pos hlt⟩
  by_cases hc : compatTail s.activeCtrl = true
  · exact ⟨{ emit y s with outCount := satInc s.outCount }, true, fun f => (if_neg hlt).trans (if_pos hc)⟩
  · exact ⟨s, true, fun f => (if_neg hlt).trans (if_neg hc)⟩

theorem arriveAt_withFlags (n : NodeIndex) (d : NodeEntry) (s : State) :
    ∃ (t : State) (o : Bool), ∀ f, arriveAt n d { s with flags := f } = { t with flags := f.orOverrun o } := by
  by_cases hi : d.internal = true
  · exact ⟨{ s with cursor := n }, false, fun f => if_pos hi⟩
  · obtain ⟨t, o, ht⟩ := leafReached_withFlags d.sym s
    exact ⟨{ t with cursor := s.root }, o, fun f => (if_neg hi).trans (by rw [ht])⟩

theorem walkBit_withFlags (c : Bool) (s : State) :
    (∀ f, walkBit c { s with flags := f } = none) ∨
      ∃ (t : State) (o : Bool), ∀ f, walkBit c { s with flags := f } = some { t with flags := f.orOverrun o } := by
  cases he : nodeAt s.node s.cursor with
  | none => exact .inl fun f => by simp only [walkBit, he]
  | some e =>
    cases hd : nodeAt s.node (childOf e c) with
    | none => exact .inl fun f => by simp only [walkBit, he, hd]
    | some d =>
      obtain ⟨t, o, ht⟩ := arriveAt_withFlags (childOf e c) d s
      exact .inr ⟨t, o, fun f => by simp only [walkBit, he, hd, ht]⟩

theorem walkBits_withFlags (cs : List Bool) (s : State) :
    (∀ f, walkBits cs { s with flags := f } = none) ∨
      ∃ (t : State) (o : Bool), ∀ f, walkBits cs { s with flags := f } = some { t with flags := f.orOverrun o } := by
  induction cs generalizing s with
  | nil => exact .inr ⟨s, false, fun f => rfl⟩
  | cons c cs ih =>
    rcases walkBit_withFlags c s with hn | ⟨u, o, hu⟩
    · exact .inl fun f => by simp only [walkBits, hn]
    · rcases ih u with hn | ⟨t, o', ht⟩
      · exact .inl fun f => by simp only [walkBits, hu, hn]
      · exact .inr ⟨t, o' || o, fun f => by simp only [walkBits, hu, ht, StatusFlags.orOverrun_orOverrun]⟩

theorem payloadByte_flagBlind (b : Byte) (s : State) : FlagBlind fun f => payloadByte b { s with flags := f } := by
  cases hr : nodeAt s.node s.root with
  | none => exact .raise .traversalOnEmptyTree 0 fun f => by simp only [payloadByte, hr]
  | some r =>
    by_cases hi : r.internal = true
    · rcases walkBits_withFlags (bitsOfByte b) s with hn | ⟨t, o, ht⟩
      · exact .stuck .nodeAtNil fun f => by simp only [payloadByte, hr, hi, hn]; rfl
      · refine .done t { StatusFlags.zero with overrun := o } StatusFlags.all fun f => ?_
        simp only [payloadByte, hr, hi, ht]
        cases o <;> rfl
    · exact .raise .malformedContainer subDegeneratePayload fun f => by simp only [payloadByte, hr, hi]; rfl

/-! ## The rules -/

/-- The flags of the tree, TREE_VALID, TREE_EMPTY and DEGENERATE (10_state.md R26). -/
def StatusFlags.tree : StatusFlags := { StatusFlags.zero with treeValid := true, treeEmpty := true, degenerate := true }

/-- BuildTree writes the flags of the tree and reads none (42_tree_builder.md R177). -/
theorem buildTree_withFlags (s : State) (f : StatusFlags) :
    buildTree { s with flags := f } = { buildTree s with flags := StatusFlags.tree.write (buildTree s).flags f } := by
  simp only [buildTree]
  rfl

theorem headerComplete_flagBlind (s : State) : FlagBlind fun f => .done (headerComplete { s with flags := f }) := by
  refine .done (headerComplete s) .tree (buildTree { s with hdrStage := .done }).flags fun f => ?_
  have ht := buildTree_withFlags { s with hdrStage := .done } f
  simp only [headerComplete, ht]

theorem takeCount_flagBlind (c : Nat) (s : State) : FlagBlind fun f => .done (takeCount c { s with flags := f }) := by
  by_cases hc : c = 0
  · subst hc
    exact headerComplete_flagBlind { s with hdrLeft := 0, hdrAcc := 0, hdrPos := 0 }
  · exact flagBlind_of_unwritten { s with hdrLeft := BitVec.ofNat 9 c, hdrAcc := 0, hdrPos := 0, hdrStage := .symbol }
      fun f => congrArg Effect.done (if_neg hc)

theorem takeFrequency_flagBlind (v : Freq) (s : State) :
    FlagBlind fun f => .done (takeFrequency v { s with flags := f }) := by
  by_cases hc : s.hdrLeft - 1 = 0
  · exact (headerComplete_flagBlind
      { s with freq := setFreq s.freq s.hdrSym v, hdrAcc := 0, hdrPos := 0, hdrLeft := s.hdrLeft - 1 }).of_eq
      fun f => by simp only [takeFrequency, if_pos hc]
  · exact flagBlind_of_unwritten
      { s with freq := setFreq s.freq s.hdrSym v, hdrAcc := 0, hdrPos := 0, hdrLeft := s.hdrLeft - 1,
               hdrStage := .symbol }
      fun f => by simp only [takeFrequency, if_neg hc]

theorem countByte_flagBlind (b : Byte) (s : State) : FlagBlind fun f => countByte b { s with flags := f } := by
  by_cases h1 : s.hdrPos.toNat + 1 < 4
  · exact flagBlind_of_unwritten (absorb b s) fun f => if_pos h1
  by_cases h2 : headerCount (nextAcc b s) < 0
  · exact .raise _ _ fun f => (if_neg h1).trans (if_pos h2)
  by_cases h3 : headerCount (nextAcc b s) > 256
  · exact .raise _ _ fun f => (if_neg h1).trans ((if_neg h2).trans (if_pos h3))
  exact (takeCount_flagBlind (headerCount (nextAcc b s)).toNat s).of_eq fun f =>
    (if_neg h1).trans ((if_neg h2).trans (if_neg h3))

theorem symbolByte_flagBlind (b : Byte) (s : State) : FlagBlind fun f => symbolByte b { s with flags := f } := by
  by_cases h1 : freqAt s.freq b ≠ 0#64
  · exact .raise _ _ fun f => if_pos h1
  · exact flagBlind_of_unwritten { s with hdrSym := b, hdrAcc := 0, hdrPos := 0, hdrStage := .frequency }
      fun f => if_neg h1

theorem frequencyByte_flagBlind (b : Byte) (s : State) : FlagBlind fun f => frequencyByte b { s with flags := f } := by
  by_cases h1 : s.hdrPos.toNat + 1 < 8
  · exact flagBlind_of_unwritten (absorb b s) fun f => if_pos h1
  have hacc : ∀ f, nextAcc b { s with flags := f } = nextAcc b s := fun _ => rfl
  by_cases h2 : nextAcc b s = 0#64
  · exact .raise .malformedContainer subZeroFrequency fun f => by simp only [frequencyByte, if_neg h1, hacc, if_pos h2]
  · exact (takeFrequency_flagBlind (nextAcc b s) s).of_eq fun f => by
      simp only [frequencyByte, if_neg h1, hacc, if_neg h2]

theorem hdrByte_flagBlind (b : Byte) (s : State) : FlagBlind fun f => hdrByte b { s with flags := f } := by
  cases h : s.hdrStage with
  | count => exact (countByte_flagBlind b s).of_eq fun f => by simp only [hdrByte, h]
  | symbol => exact (symbolByte_flagBlind b s).of_eq fun f => by simp only [hdrByte, h]
  | frequency => exact (frequencyByte_flagBlind b s).of_eq fun f => by simp only [hdrByte, h]
  | done => exact flagBlind_of_unwritten s fun f => by simp only [hdrByte, h]

theorem putBit_withFlags (c : Bool) (s : State) (f : StatusFlags) :
    putBit c { s with flags := f } = { putBit c s with flags := f } := by
  unfold putBit
  split <;> rfl

theorem putBits_withFlags (p : List Bool) (s : State) (f : StatusFlags) :
    putBits p { s with flags := f } = { putBits p s with flags := f } := by
  induction p generalizing s with
  | nil => rfl
  | cons c cs ih => exact (congrArg (putBits cs) (putBit_withFlags c s f)).trans (ih (putBit c s))

theorem flushBits_withFlags (s : State) (f : StatusFlags) :
    flushBits { s with flags := f } = { flushBits s with flags := f } := by
  unfold flushBits
  split <;> rfl

theorem regenerate_withFlags (s : State) (f : StatusFlags) :
    regenerate { s with flags := f } = { regenerate s with flags := f } := by
  cases hr : nodeAt s.node s.root with
  | none => simp only [regenerate, hr]
  | some r =>
    by_cases hi : r.internal = true
    · simp only [regenerate, hr, if_pos hi]
    · simp only [regenerate, hr, if_neg hi]
      rfl

/-- No rule reads a flag (10_state.md R41). -/
theorem ruleOf_flagBlind (i : Instr) (s : State) : FlagBlind fun f => ruleOf i { s with flags := f } := by
  cases i with
  | nop => exact flagBlind_of_unwritten s fun f => rfl
  | clear => exact .done { initPass s with phase := .idle } .all .zero fun f => rfl
  | wrctrl c => exact flagBlind_of_unwritten { s with ctrl := ctrlBits c } fun f => rfl
  | abort r =>
    by_cases h : r = 0x01#8
    · exact .raise _ _ fun f => if_pos h
    · exact .raise _ _ fun f => if_neg h
  | count b =>
    by_cases h : freqAt s.freq b = BitVec.allOnes 64
    · exact .raise .freqOverflow b fun f => by simp only [ruleOf, countRule, if_pos h]
    · exact flagBlind_of_unwritten { s with freq := setFreq s.freq b (freqAt s.freq b + 1) } fun f => by
        simp only [ruleOf, countRule, if_neg h]
  | build =>
    exact .done { buildTree s with phase := .built } .tree (buildTree s).flags fun f => by
      simp only [ruleOf, buildRule, buildTree_withFlags]
  | hdrEmit =>
    exact flagBlind_of_unwritten { emitAll (headerBytes (hdrBe s.activeCtrl) s.nsym s.freq) s with phase := .encoding }
      fun f => rfl
  | encode b =>
    by_cases h : (codeAt s.code b).valid = false
    · exact .raise _ _ fun f => if_pos h
    · exact flagBlind_of_unwritten { putBits (codeOf (codeAt s.code b)) s with encCount := satInc s.encCount }
        fun f => (if_neg h).trans (by rw [putBits_withFlags])
  | flush =>
    refine .done { flushBits s with phase := .encDone } { StatusFlags.zero with encMismatch := true }
      { StatusFlags.zero with encMismatch := s.encCount != s.total } fun f => ?_
    simp only [ruleOf, flushRule, flushBits_withFlags]
    rfl
  | decStart => exact .done { initPass s with phase := .decHdr } .all .zero fun f => rfl
  | decByte b =>
    by_cases h : s.phase = .decHdr
    · exact (hdrByte_flagBlind b s).of_eq fun f => if_pos h
    · exact (payloadByte_flagBlind b s).of_eq fun f => if_neg h
  | decEnd =>
    by_cases h : s.phase = .decHdr
    · exact .raise _ _ fun f => if_pos h
    · refine .done (closeDecode (regenerate s)) { StatusFlags.zero with underrun := true, tailPartial := true }
        (closeDecode (regenerate s)).flags fun f => (if_neg h).trans ?_
      rw [regenerate_withFlags]
      rfl

/-! ## Dispatch -/

/-- The checks of dispatch read PHASE alone, and an error entry writes no flag (30_encoding.md R108). -/
theorem dispatch_withFlags {i : Instr} {body : State → Effect} {s t : State}
    (hb : FlagBlind fun f => body { s with flags := f }) (h : dispatch i body s = .next t) :
    ∃ w : StatusFlags, ∀ f, dispatch i body { s with flags := f } = .next { t with flags := w.write t.flags f } := by
  unfold dispatch at h ⊢
  by_cases h1 : s.phase = .error ∧ ¬(i.WF ∧ recovers i = true)
  · rw [if_pos h1] at h
    cases h
    exact ⟨.zero, fun f => if_pos h1⟩
  by_cases h2 : ¬i.WF
  · rw [if_neg h1, if_pos h2] at h
    cases h
    exact ⟨.zero, fun f => (if_neg h1).trans (if_pos h2)⟩
  by_cases h3 : ¬allowed i s.phase = true
  · rw [if_neg h1, if_neg h2, if_pos h3] at h
    cases h
    exact ⟨.zero, fun f => (if_neg h1).trans ((if_neg h2).trans (if_pos h3))⟩
  rw [if_neg h1, if_neg h2, if_neg h3] at h
  have hsettle : ∀ f, dispatch i body { s with flags := f } =
      settle i.opcode { s with flags := f } (body { s with flags := f }) :=
    fun f => (if_neg h1).trans ((if_neg h2).trans (if_neg h3))
  cases hb with
  | done u w v hu =>
    rw [show body s = _ from hu s.flags] at h
    cases h
    exact ⟨w, fun f => (hsettle f).trans (by rw [hu f, StatusFlags.write_write]; rfl)⟩
  | raise c sub hr =>
    rw [show body s = _ from hr s.flags] at h
    cases h
    exact ⟨.zero, fun f => (hsettle f).trans (by rw [hr f]; rfl)⟩
  | stuck r hr =>
    rw [show body s = _ from hr s.flags] at h
    cases h

/-- Settles O47: neither dispatch nor any rule reads a flag. -/
theorem noCommandReadsAFlag : Obligations.NoCommandReadsAFlag := by
  intro i s t h
  rw [exec_eq_dispatch] at h
  obtain ⟨w, hw⟩ := dispatch_withFlags (ruleOf_flagBlind i s) h
  exact ⟨w, fun f => (exec_eq_dispatch i _).trans (hw f)⟩

end Sys2Proof.Machine
end

section
/-!
PROOFS. The register port (20_memory.md R80 to R85): the layout of each word, COUNT and reset as the port shows them.
-/

namespace Sys2Proof.Machine

/-! ## Words and their fields (20_memory.md R74) -/

/-- No bit stands above the width. -/
theorem extractLsb'_above {n start len : Nat} (x : BitVec n) (h : n ≤ start) : x.extractLsb' start len = 0 := by
  ext i hi
  rw [BitVec.getElem_extractLsb', BitVec.getLsbD_of_ge x (start + i) (by omega)]
  simp

/-- A field of a field. -/
theorem extractLsb'_extractLsb' {n start len i k : Nat} (x : BitVec n) (h : i + k ≤ len) :
    (x.extractLsb' start len).extractLsb' i k = x.extractLsb' (start + i) k := by
  ext j hj
  rw [BitVec.getElem_extractLsb', BitVec.getLsbD_extractLsb', BitVec.getElem_extractLsb', Nat.add_assoc,
    decide_eq_true (by omega), Bool.true_and]

/-- A field of n bits alone in a word: the bits above it read 0. -/
theorem zeroExtend_fields {n m : Nat} (x : BitVec n) (h : n + m = 32) :
    (x.zeroExtend 32).extractLsb' 0 n = x ∧ (x.zeroExtend 32).extractLsb' n m = 0 := by
  refine ⟨?_, ?_⟩
  · exact (BitVec.extractLsb'_setWidth_of_le (by omega)).trans BitVec.extractLsb'_eq_self
  · exact (BitVec.extractLsb'_setWidth_of_le (by omega)).trans (extractLsb'_above x (Nat.le_refl n))

/-- Word k of a value whose bits reach that far. -/
theorem wordOf_zeroExtend {n : Nat} (v : BitVec n) (k : Nat) (hk : k < 3) :
    wordOf k (v.zeroExtend 96) = v.extractLsb' (32 * k) 32 :=
  BitVec.extractLsb'_setWidth_of_le (by omega)

theorem wordOf_append_64 (v : BitVec 64) : wordOf 1 (v.zeroExtend 96) ++ wordOf 0 (v.zeroExtend 96) = v := by
  rw [wordOf_zeroExtend v 1 (by omega), wordOf_zeroExtend v 0 (by omega)]
  exact (BitVec.extractLsb'_append_extractLsb'_eq_extractLsb' rfl).trans BitVec.extractLsb'_eq_self

theorem wordOf_append_72 (v : Weight) :
    (wordOf 2 (v.zeroExtend 96)).extractLsb' 0 8 ++ wordOf 1 (v.zeroExtend 96) ++ wordOf 0 (v.zeroExtend 96) = v ∧
      (wordOf 2 (v.zeroExtend 96)).extractLsb' 8 24 = 0#24 := by
  rw [wordOf_zeroExtend v 2 (by omega), wordOf_zeroExtend v 1 (by omega), wordOf_zeroExtend v 0 (by omega)]
  rw [extractLsb'_extractLsb' v (by omega), extractLsb'_extractLsb' v (by omega)]
  refine ⟨?_, extractLsb'_above v (by omega)⟩
  rw [BitVec.extractLsb'_append_extractLsb'_eq_extractLsb' (show 32 * 2 + 0 = 32 * 1 + 32 from rfl),
    BitVec.extractLsb'_append_extractLsb'_eq_extractLsb' (show 32 * 1 = 32 * 0 + 32 from rfl)]
  exact BitVec.extractLsb'_eq_self

theorem errInfoWord_fields (e : ErrInfo) :
    (errInfoWord e).extractLsb' 0 8 = e.code.bits ∧ (errInfoWord e).extractLsb' 8 8 = e.sub ∧
      (errInfoWord e).extractLsb' 16 3 = e.phase.bits ∧ (errInfoWord e).extractLsb' 19 5 = 0#5 ∧
      (errInfoWord e).extractLsb' 24 8 = e.opcode := by
  unfold errInfoWord
  refine ⟨BitVec.extractLsb'_append_eq_right, ?_, ?_, ?_, ?_⟩
  all_goals repeat rw [BitVec.extractLsb'_append_eq_of_le (by omega)]
  · exact BitVec.extractLsb'_append_eq_right
  · exact BitVec.extractLsb'_append_eq_right
  · exact BitVec.extractLsb'_append_eq_right
  · exact BitVec.extractLsb'_eq_self

theorem bitStateWord_fields (s : State) :
    (bitStateWord s).extractLsb' 0 8 = s.bitBuf ∧ (bitStateWord s).extractLsb' 8 3 = s.bitCnt ∧
      (bitStateWord s).extractLsb' 11 21 = 0#21 := by
  unfold bitStateWord
  refine ⟨BitVec.extractLsb'_append_eq_right, ?_, ?_⟩
  all_goals repeat rw [BitVec.extractLsb'_append_eq_of_le (by omega)]
  · exact BitVec.extractLsb'_append_eq_right
  · exact BitVec.extractLsb'_eq_self

theorem hdrStateWord_fields (s : State) :
    (hdrStateWord s).extractLsb' 0 2 = s.hdrStage.bits ∧ (hdrStateWord s).extractLsb' 2 2 = 0#2 ∧
      (hdrStateWord s).extractLsb' 4 4 = s.hdrPos ∧ (hdrStateWord s).extractLsb' 8 8 = 0#8 ∧
      (hdrStateWord s).extractLsb' 16 9 = s.hdrLeft ∧ (hdrStateWord s).extractLsb' 25 7 = 0#7 := by
  unfold hdrStateWord
  refine ⟨BitVec.extractLsb'_append_eq_right, ?_, ?_, ?_, ?_, ?_⟩
  all_goals repeat rw [BitVec.extractLsb'_append_eq_of_le (by omega)]
  · exact BitVec.extractLsb'_append_eq_right
  · exact BitVec.extractLsb'_append_eq_right
  · exact BitVec.extractLsb'_append_eq_right
  · exact BitVec.extractLsb'_append_eq_right
  · exact BitVec.extractLsb'_eq_self

theorem errBit_iff (p : Phase) : p.errBit = true ↔ p = .error := by
  simp [Phase.errBit]

theorem statusWord_fields (p : Phase) (f : StatusFlags) :
    (statusWord p f).extractLsb' 0 3 = p.bits ∧ (statusWord p f).extractLsb' 11 21 = 0#21 := by
  unfold statusWord
  refine ⟨BitVec.extractLsb'_append_eq_right, ?_⟩
  repeat rw [BitVec.extractLsb'_append_eq_of_le (by omega)]
  exact BitVec.extractLsb'_eq_self

theorem statusWord_bits (p : Phase) (f : StatusFlags) :
    (statusWord p f).getLsbD 3 = p.errBit ∧ (statusWord p f).getLsbD 4 = f.treeValid ∧
      (statusWord p f).getLsbD 5 = f.treeEmpty ∧ (statusWord p f).getLsbD 6 = f.degenerate ∧
      (statusWord p f).getLsbD 7 = f.overrun ∧ (statusWord p f).getLsbD 8 = f.underrun ∧
      (statusWord p f).getLsbD 9 = f.tailPartial ∧ (statusWord p f).getLsbD 10 = f.encMismatch := by
  unfold statusWord
  iterate rw [BitVec.getLsbD_append]
  simp

/-- Settles O48: the fields of STATUS at 0x0003. -/
theorem statusRegisterLayout : Obligations.StatusRegisterLayout := by
  intro s
  obtain ⟨hphase, hzero⟩ := statusWord_fields s.phase s.flags
  obtain ⟨herr, hbits⟩ := statusWord_bits s.phase s.flags
  obtain ⟨h4, h5, h6, h7, h8, h9, h10⟩ := hbits
  exact ⟨hphase, rfl, (by rw [← errBit_iff, ← herr]; rfl), h4, h5, h6, h7, h8, h9, h10, hzero⟩

/-- Settles O49: each word below 0x0100 by the lemma about its kind. -/
theorem registerWordLayout : Obligations.RegisterWordLayout := by
  intro s
  exact ⟨rfl, zeroExtend_fields s.ctrl rfl, zeroExtend_fields s.activeCtrl rfl, errInfoWord_fields s.errInfo,
    zeroExtend_fields s.nsym rfl, zeroExtend_fields s.root rfl, zeroExtend_fields s.cursor rfl, bitStateWord_fields s,
    hdrStateWord_fields s, zeroExtend_fields s.hdrSym rfl, wordOf_append_64 s.hdrAcc, wordOf_append_72 s.total,
    wordOf_append_72 s.encCount, wordOf_append_72 s.outCount⟩

/-! ## Idle reads (20_memory.md R84, R85) -/

theorem idle_of_no_command {s : State} (h : ∀ w, HostInput.command w ∉ s.input) : s.idle = true := by
  simp only [State.idle, Bool.not_eq_true', List.any_eq_false]
  intro e he
  cases e with
  | command w => exact absurd he (h w)
  | drain => simp [HostInput.isCommand]
  | reset => simp [HostInput.isCommand]

/-- Settles O50: with no command queued the block is idle, and ID is read at every time. -/
theorem portReads : Obligations.PortReads :=
  fun _ _ => ⟨fun h _ => if_pos (.inl (idle_of_no_command h)), if_pos (.inr rfl)⟩

/-! ## The tables (R80, R82) and reset (10_state.md R43) -/

/-- The address a of the window of FREQ shows symbol (a - 0x0100) div 2 (10_state.md R36). -/
theorem memRead_freq (s : State) (a : CsrAddr) (hlo : 0x0100 ≤ a.toNat) (hhi : a.toNat < 0x0300) :
    memRead s a = freqWord (freqAt s.freq (BitVec.ofNat 8 ((a.toNat - 0x0100) / 2))) ((a.toNat - 0x0100) % 2) := by
  simp only [memRead]
  rw [if_neg (by omega), if_pos hhi]

/-- The port shows the same word of two tables of frequencies that agree on the symbol of the address. -/
theorem memRead_withFreq (s : State) (F : Vector Freq 256) (a : CsrAddr)
    (h : 0x0100 ≤ a.toNat → a.toNat < 0x0300 → freqAt F (BitVec.ofNat 8 ((a.toNat - 0x0100) / 2)) =
      freqAt s.freq (BitVec.ofNat 8 ((a.toNat - 0x0100) / 2))) :
    memRead { s with freq := F } a = memRead s a := by
  simp only [memRead]
  split
  · rfl
  · split
    · next hlo hhi => rw [h (by omega) hhi]
    · rfl

/-- The two addresses of FREQ[b], low word first (10_state.md R36). -/
theorem memRead_freq_words (s : State) (b : Byte) :
    memRead s (BitVec.ofNat 16 (0x0101 + 2 * b.toNat)) ++ memRead s (BitVec.ofNat 16 (0x0100 + 2 * b.toNat)) =
      freqAt s.freq b := by
  have hb := b.isLt
  have hhi : (BitVec.ofNat 16 (0x0101 + 2 * b.toNat)).toNat = 0x0101 + 2 * b.toNat := by
    rw [BitVec.toNat_ofNat]
    omega
  have hlo : (BitVec.ofNat 16 (0x0100 + 2 * b.toNat)).toNat = 0x0100 + 2 * b.toNat := by
    rw [BitVec.toNat_ofNat]
    omega
  rw [memRead_freq s _ (by omega) (by omega), memRead_freq s _ (by omega) (by omega), hhi, hlo,
    show (0x0101 + 2 * b.toNat - 0x0100) / 2 = b.toNat by omega,
    show (0x0100 + 2 * b.toNat - 0x0100) / 2 = b.toNat by omega,
    show (0x0101 + 2 * b.toNat - 0x0100) % 2 = 1 by omega, show (0x0100 + 2 * b.toNat - 0x0100) % 2 = 0 by omega,
    BitVec.ofNat_toNat, BitVec.setWidth_eq]
  exact wordOf_append_64 (freqAt s.freq b)

/-- COUNT b in IDLE below the maximum adds 1 to FREQ[b] (41_frequency_counter.md R151). -/
theorem exec_count_idle {s : State} {b : Byte} (hp : s.phase = .idle) (hmax : (freqAt s.freq b).toNat ≠ 2 ^ 64 - 1) :
    exec (.count b) s = .next { s with freq := setFreq s.freq b (freqAt s.freq b + 1) } := by
  have hne : freqAt s.freq b ≠ BitVec.allOnes 64 := fun h => hmax (by rw [h, BitVec.toNat_allOnes])
  rw [exec_eq_dispatch, dispatch_runs _ _ _ rfl (.inl (by simp [hp])) (by simp [allowed, hp])]
  simp only [ruleOf, countRule, if_neg hne, settle]

/-- Settles O17: the two words of FREQ[b] are the only ones that depend on it. -/
theorem countThroughTheRegisterPort : Obligations.CountThroughTheRegisterPort := by
  intro s t b hp hmax ht
  rw [exec_count_idle hp hmax] at ht
  cases ht
  refine ⟨fun a hlo hhi => memRead_withFreq s _ a fun h1 h2 => freqAt_setFreq_ne _ _ _ _ fun hab => ?_, ?_⟩
  · have hn := congrArg BitVec.toNat hab
    rw [BitVec.toNat_ofNat] at hn
    omega
  · rw [memRead_freq_words, freqAt_setFreq_self]

/-- After reset ID, ROOT and CURSOR are the registers that do not read 0 (10_state.md R43). -/
theorem csrWord_reset (n : Nat) :
    csrWord State.reset n = if n = 0 then 0x48430001#32 else if n = 6 ∨ n = 7 then 0x1FF#32 else 0#32 := by
  unfold csrWord
  split
  case h_23 =>
    rw [if_neg ‹n = 0 → False›, if_neg (not_or.mpr ⟨‹n = 6 → False›, ‹n = 7 → False›⟩)]
    rfl
  all_goals rfl

theorem freqWord_zero (k : Nat) : freqWord 0 k = 0#32 := by simp [freqWord, wordOf]

theorem codeLenWord_zero : codeLenWord CodeEntry.zero = 0#32 := rfl

theorem codeBitsWord_zero (w : Nat) : codeBitsWord CodeEntry.zero w = 0#32 := by simp [codeBitsWord, CodeEntry.zero]

theorem nodeWindow_reset (n : NodeIndex) (j : Nat) : nodeWindow State.reset.node n j = 0#32 := by
  by_cases hn : n = Config.nilIndex
  · simp only [nodeWindow, (nodeAt_eq_none_iff _ _).mpr hn]
    rfl
  · simp only [nodeWindow, State.reset, nodeAt_replicate_zero n hn]
    rfl

/-- Every table reads 0 in the reset state. -/
theorem memRead_reset_of_ge {a : CsrAddr} (h : ¬a.toNat < 0x0100) : memRead State.reset a = 0#32 := by
  have hf : ∀ b, freqAt State.reset.freq b = 0 := fun b => freqAt_replicate b 0
  have hc : ∀ b, codeAt State.reset.code b = CodeEntry.zero := fun b => codeAt_replicate b CodeEntry.zero
  simp only [memRead, if_neg h, hf, hc, freqWord_zero, codeLenWord_zero, codeBitsWord_zero, nodeWindow_reset]
  simp

theorem memRead_reset (a : CsrAddr) : memRead State.reset a =
    if a = 0x0000#16 then 0x48430001#32 else if a = 0x0006#16 ∨ a = 0x0007#16 then 0x1FF#32 else 0#32 := by
  have hiff : ∀ k : CsrAddr, a = k ↔ a.toNat = k.toNat := fun k => BitVec.toNat_inj.symm
  simp only [hiff]
  by_cases h : a.toNat < 0x0100
  · have hcsr : memRead State.reset a = csrWord State.reset a.toNat := if_pos h
    rw [hcsr, csrWord_reset]
    rfl
  · rw [memRead_reset_of_ge h, if_neg (by simp; omega), if_neg (by simp; omega)]

theorem ne_nil_of_nodeAt_some {t : Vector NodeEntry 511} {n : NodeIndex} {e : NodeEntry} (h : nodeAt t n = some e) :
    n ≠ Config.nilIndex := fun hn => by
  rw [(nodeAt_eq_none_iff _ _).mpr hn] at h
  cases h

/-- Settles O53: the step of a reset event, and what the port reads after it. -/
theorem resetState : Obligations.ResetState := by
  refine ⟨fun s rest hin => by simp only [step, hin, hardReset], memRead_reset, fun n e he => ?_, rfl, rfl⟩
  exact (Option.some.inj ((nodeAt_replicate_zero n (ne_nil_of_nodeAt_some he)).symm.trans he)).symm

end Sys2Proof.Machine
end

section
/-!
PROOFS. InitPass, the counters and the arena of BuildTree (10_state.md R34, R38, R44).
-/

namespace Sys2Proof.Machine

/-- A command that recovers is allowed in every phase, so it runs its rule in every state (30_encoding.md R107). -/
theorem exec_of_recovers {i : Instr} (hw : i.WF) (hr : recovers i = true) (s : State) :
    exec i s = settle i.opcode s (ruleOf i s) := by
  have ha : allowed i s.phase = true := by
    cases i with
    | nop | clear | wrctrl | decStart => rfl
    | _ => cases hr
  rw [exec_eq_dispatch, dispatch_runs i _ s hw (.inr hr) ha]

/-- Settles O12: CLEAR and DEC_START run in every phase, and both are InitPass. -/
theorem initPassOpensAPass : Obligations.InitPassOpensAPass :=
  fun s => ⟨exec_of_recovers rfl rfl s, exec_of_recovers rfl rfl s⟩

/-- Settles O40: the least of C + 1 and 2^72 - 1 fits 72 bits. -/
theorem countersSaturate : Obligations.CountersSaturate := by
  intro c
  rw [satInc, sat72, BitVec.toNat_ofNat]
  exact Nat.mod_eq_of_lt (by omega)

/-- Settles O22: the arena BuildTree writes is good; its last node is ROOT, and with no symbol every entry is unused. -/
theorem buildTreeArena : Obligations.BuildTreeArena := by
  intro s
  have h : ArenaOk (buildTree s).node (distinctSymbols s.freq) (buildTree s).root := buildArena_ok s.freq
  have hle := h.leaves_le
  refine ⟨h, fun hk => ?_, fun h0 => ⟨?_, fun n e he => ?_⟩⟩
  · rw [h.root_eq, if_neg (by omega)]
    exact idx_toNat _ (by omega)
  · rw [h.root_eq, if_pos h0]
  · have hz := h.unused n (by omega) (ne_nil_of_nodeAt_some he)
    rw [he] at hz
    cases hz
    rfl

end Sys2Proof.Machine
end

section
/-!
PROOFS. Integers of the container header as bytes (20_memory.md R72). The n low bytes of v, in either byte order, are
absorbed back to v cut to its n low bytes; each order is an induction on n, from the end its bytes are absorbed at.
-/

namespace Sys2Proof.Machine

/-! ## The bytes of a field -/

/-- `v[8n-1:0]` as the accumulator holds it. -/
def lowBytes (n : Nat) (v : BitVec 64) : BitVec 64 := (v.setWidth (8 * n)).setWidth 64

theorem getLsbD_lowBytes (n : Nat) (v : BitVec 64) (i : Nat) :
    (lowBytes n v).getLsbD i = (decide (i < 8 * n) && v.getLsbD i) := by
  by_cases hi : i < 64
  · simp [lowBytes, hi]
  · rw [BitVec.getLsbD_of_ge _ _ (by omega), BitVec.getLsbD_of_ge _ _ (by omega), Bool.and_false]

theorem lowBytes_eq_self {n : Nat} {v : BitVec 64} (h : v.toNat < 2 ^ (8 * n)) : lowBytes n v = v := by
  apply BitVec.eq_of_toNat_eq
  rw [lowBytes, BitVec.toNat_setWidth, BitVec.toNat_setWidth, Nat.mod_eq_of_lt h, Nat.mod_eq_of_lt v.isLt]

@[simp] theorem lowBytes_zero (v : BitVec 64) : lowBytes 0 v = 0#64 := by
  apply BitVec.eq_of_getLsbD_eq
  intro i _
  simp [getLsbD_lowBytes]

/-- The field has one byte more at its high end. -/
theorem littleBytes_succ_last (n : Nat) (v : BitVec 64) :
    littleBytes (n + 1) v = littleBytes n v ++ [v.extractLsb' (8 * n) 8] := by
  simp [littleBytes, List.range_succ]

/-- The field has one byte more at its low end. -/
theorem littleBytes_succ_first (n : Nat) (v : BitVec 64) :
    littleBytes (n + 1) v = v.extractLsb' 0 8 :: littleBytes n (v >>> 8) := by
  simp only [littleBytes, List.range_succ_eq_map, List.map_cons, List.map_map]
  refine congrArg _ (List.map_congr_left fun i _ => BitVec.eq_of_getLsbD_eq fun j hj => ?_)
  simp only [Function.comp_apply, BitVec.getLsbD_extractLsb', BitVec.getLsbD_ushiftRight]
  rw [show 8 * (i + 1) + j = 8 + (8 * i + j) by omega]

@[simp] theorem length_littleBytes (n : Nat) (v : BitVec 64) : (littleBytes n v).length = n := by simp [littleBytes]

theorem getElem?_littleBytes {n i : Nat} (v : BitVec 64) (hi : i < n) :
    (littleBytes n v)[i]? = some (v.extractLsb' (8 * i) 8) := by
  simp [littleBytes, hi]

@[simp] theorem length_encInt (be : Bool) (n : Nat) (v : BitVec 64) : (encInt be n v).length = n := by
  cases be <;> simp [encInt]

/-! ## Absorbing them -/

/-- A field absorbed from its first byte on, HDR_POS counting from 0 (43_container_header.md R213, R215). -/
def absorbAll (be : Bool) (bs : List Byte) : BitVec 64 := bs.zipIdx.foldl (fun acc p => accByte be acc p.1 p.2) 0#64

theorem absorbAll_concat (be : Bool) (bs : List Byte) (b : Byte) :
    absorbAll be (bs ++ [b]) = accByte be (absorbAll be bs) b bs.length := by
  simp [absorbAll, List.zipIdx_append]

/-- A little-endian byte goes above the bytes before it. -/
theorem accByte_lowBytes_little (n : Nat) (v : BitVec 64) :
    accByte false (lowBytes n v) (v.extractLsb' (8 * n) 8) n = lowBytes (n + 1) v := by
  apply BitVec.eq_of_getLsbD_eq
  intro i hi
  simp only [accByte, Bool.false_eq_true, if_false, BitVec.getLsbD_or, getLsbD_lowBytes, BitVec.getLsbD_shiftLeft,
    BitVec.getLsbD_setWidth, BitVec.getLsbD_extractLsb']
  by_cases h : i < 8 * n
  · simp [h, show i < 8 * (n + 1) by omega]
  · have hsum : 8 * n + (i - 8 * n) = i := by omega
    have hlt : i - 8 * n < 8 ↔ i < 8 * (n + 1) := by omega
    simp [h, hi, hsum, hlt, show i - 8 * n < 64 by omega]

/-- A big-endian byte goes below the bytes before it. -/
theorem accByte_lowBytes_big (n : Nat) (v : BitVec 64) (pos : Nat) :
    accByte true (lowBytes n (v >>> 8)) (v.extractLsb' 0 8) pos = lowBytes (n + 1) v := by
  apply BitVec.eq_of_getLsbD_eq
  intro i hi
  simp only [accByte, if_true, BitVec.getLsbD_or, getLsbD_lowBytes, BitVec.getLsbD_shiftLeft,
    BitVec.getLsbD_setWidth, BitVec.getLsbD_extractLsb', BitVec.getLsbD_ushiftRight]
  by_cases h : i < 8
  · simp [h, hi, show i < 8 * (n + 1) by omega]
  · have hsum : 8 + (i - 8) = i := by omega
    have hlt : i - 8 < 8 * n ↔ i < 8 * (n + 1) := by omega
    simp [h, hi, hsum, hlt]

theorem absorbAll_encInt_little (n : Nat) (v : BitVec 64) : absorbAll false (encInt false n v) = lowBytes n v := by
  rw [encInt, if_neg Bool.false_ne_true]
  induction n with
  | zero => simp [absorbAll, littleBytes]
  | succ n ih => rw [littleBytes_succ_last, absorbAll_concat, ih, length_littleBytes, accByte_lowBytes_little]

theorem absorbAll_encInt_big (n : Nat) (v : BitVec 64) : absorbAll true (encInt true n v) = lowBytes n v := by
  rw [encInt, if_pos rfl]
  induction n generalizing v with
  | zero => simp [absorbAll, littleBytes]
  | succ n ih => rw [littleBytes_succ_first, List.reverse_cons, absorbAll_concat, ih, accByte_lowBytes_big]

/-- EncInt, then AccByte byte by byte: `v[8n-1:0]` comes back, for every n. -/
theorem absorbAll_encInt (be : Bool) (n : Nat) (v : BitVec 64) : absorbAll be (encInt be n v) = lowBytes n v := by
  cases be with
  | false => exact absorbAll_encInt_little n v
  | true => exact absorbAll_encInt_big n v

/-- Settles O28: the lemmas above hold for every n; a value below 2^(8n) is its own n low bytes. -/
theorem fieldBytesAreAbsorbedBack : Obligations.FieldBytesAreAbsorbedBack := by
  intro n v _ hv
  refine ⟨fun be => length_encInt be n v, fun i hi => ⟨getElem?_littleBytes v hi, ?_⟩, fun be => ?_⟩
  · rw [encInt, if_pos rfl, List.getElem?_reverse (by simp; omega), length_littleBytes,
      show n - 1 - (n - 1 - i) = i by omega, getElem?_littleBytes v hi]
  · exact (absorbAll_encInt be n v).trans (lowBytes_eq_self hv)

end Sys2Proof.Machine
end

section
/-!
PROOFS. Command words and the output stream (20_memory.md R75, R76). A command that completes only appends to OUT, and
none moves the count of drained bytes; of the host's events the drain alone does.
-/

namespace Sys2Proof.Machine

/-! ## The word of a step -/

theorem stepWord_legal {w : CmdWord} {i : Instr} (h : decode w = .legal i) (s : State) : stepWord w s = exec i s := by
  rw [stepWord, h]

/-- Settles O4: the step hands the word to the decoder, and its command to exec. -/
theorem stepRunsDecodedCommand : Obligations.StepRunsDecodedCommand :=
  fun s w rest _ hin hd => (step_command s w rest hin).trans (stepWord_legal hd _)

/-! ## OUT only grows -/

/-- From s to t bytes may have been emitted, and the host has taken none. -/
def Appends (s t : State) : Prop := t.drained = s.drained ∧ ∃ bs, t.out = s.out ++ bs

/-- Neither OUT nor the count of drained bytes is written. -/
theorem appends_of_eq {s t : State} (hd : t.drained = s.drained) (ho : t.out = s.out) : Appends s t :=
  ⟨hd, [], by rw [ho, List.append_nil]⟩

/-- Emitted bytes go behind the ones the host has not taken yet (10_state.md R42(d)). -/
theorem Appends.pendingOut {s t : State} (h : Appends s t) (hle : s.drained ≤ s.out.length) :
    ∃ bs, t.pendingOut = s.pendingOut ++ bs := by
  obtain ⟨hd, bs, ho⟩ := h
  exact ⟨bs, by rw [State.pendingOut, hd, ho, List.drop_append_of_le_length hle, State.pendingOut]⟩

/-- The parser emits nothing (43_container_header.md R212). -/
theorem hdrByte_appends {b : Byte} {s t : State} (h : hdrByte b s = .done t) : Appends s t := by
  rcases hdrByte_done_cases h with ⟨-, -, rfl⟩ | ⟨-, -, -, -, rfl⟩ | ⟨-, -, rfl⟩ | ⟨-, -, rfl⟩ |
    ⟨-, -, -, rfl⟩ | ⟨-, rfl⟩
  · exact appends_of_eq rfl rfl
  · rcases takeCount_cases (headerCount (nextAcc b s)).toNat s with ⟨-, hc⟩ | ⟨-, hc⟩ <;>
      exact appends_of_eq (by simp [hc]) (by simp [hc])
  · exact appends_of_eq rfl rfl
  · exact appends_of_eq rfl rfl
  · rcases takeFrequency_cases (nextAcc b s) s with ⟨-, hc⟩ | ⟨-, hc⟩ <;>
      exact appends_of_eq (by simp [hc]) (by simp [hc])
  · exact appends_of_eq rfl rfl

theorem flushBits_appends (s : State) : Appends s (flushBits s) := by
  unfold flushBits
  split
  · exact appends_of_eq rfl rfl
  · exact ⟨rfl, _, rfl⟩

theorem regenerate_appends (s : State) : Appends s (regenerate s) := by
  unfold regenerate
  split
  · exact appends_of_eq rfl rfl
  · split
    · exact appends_of_eq rfl rfl
    · exact ⟨rfl, _, rfl⟩

/-- The commands that emit: HDR_EMIT, ENCODE, FLUSH, DEC_BYTE in the payload, and DEC_END (R75). -/
theorem Completes.appends {s t : State} {i : Instr} (h : Completes s i t) : Appends s t := by
  cases h with
  | hdrEmit => exact ⟨rfl, _, rfl⟩
  | encode b =>
    obtain ⟨bs, buf, cnt, hf⟩ := putBits_frame (codeOf (codeAt s.code b)) s
    exact ⟨by simp [hf], bs, by simp [hf]⟩
  | flush => exact flushBits_appends s
  | header b _ ht => exact hdrByte_appends ht
  | payload b _ _ _ ht =>
    obtain ⟨_, bs, _, _, rfl⟩ := walkBits_frame ht
    exact ⟨rfl, bs, rfl⟩
  | decEnd => exact regenerate_appends s
  | _ => exact appends_of_eq rfl rfl

/-! ## The drain -/

theorem drainOne_eq (s : State) : drainOne s = { s with drained := (drainOne s).drained } := by
  unfold drainOne
  split <;> rfl

/-- The host takes the front byte, if there is one. -/
theorem pendingOut_drainOne (s : State) : (drainOne s).pendingOut = s.pendingOut.tail := by
  unfold drainOne State.pendingOut
  split
  · exact List.tail_drop.symm
  · next h => rw [List.drop_of_length_le (by omega), List.tail_nil]

/-- Every step but reset is the drain or only appends to OUT. -/
theorem drain_or_appends {s t : State} (h : step s = .next t) (hr : s.input.head? ≠ some .reset) :
    (s.input.head? = some .drain ∧ t = drainOne { s with input := s.input.tail }) ∨
      (s.input.head? ≠ some .drain ∧ Appends s t) := by
  cases stepCase_of_step h with
  | hold hin => exact .inr ⟨by simp [hin], appends_of_eq rfl rfl⟩
  | drain hin => exact .inl ⟨by rw [hin]; rfl, by rw [hin]; rfl⟩
  | reset hin => exact absurd (congrArg List.head? hin) hr
  | discard hin => exact .inr ⟨by simp [hin], appends_of_eq rfl rfl⟩
  | raise hin => exact .inr ⟨by simp [hin], appends_of_eq rfl rfl⟩
  | complete hin _ _ hc => exact .inr ⟨by simp [hin], hc.appends⟩

/-- Settles O45: a drain leaves OUT and takes from the front of the undrained bytes; every other event appends. -/
theorem outputIsAppendOnly : Obligations.OutputIsAppendOnly := by
  intro s t hstep hr hle
  rcases drain_or_appends hstep hr with ⟨hd, rfl⟩ | ⟨hd, ha⟩
  · exact ⟨⟨[], by simp⟩, fun _ => ⟨pendingOut_drainOne _, drainOne_eq _⟩, fun hn => absurd hd hn⟩
  · exact ⟨ha.2, fun he => absurd he hd, fun _ => ha.pendingOut hle⟩

end Sys2Proof.Machine
end

section
/-!
PROOFS. The address map of the register port (20_memory.md R80, R81): what each window shows at base plus offset, and
the addresses that read 0.
-/

namespace Sys2Proof.Machine

/-! ## The windows of CODE and NODE -/

/-- An address the map reaches is the number it is written as. -/
theorem toNat_csrAddr {a : Nat} (h : a < 2 ^ 16) : (BitVec.ofNat 16 a).toNat = a := by
  rw [BitVec.toNat_ofNat, Nat.mod_eq_of_lt h]

theorem memRead_codeLen (s : State) (b : Byte) :
    memRead s (BitVec.ofNat 16 (0x0300 + b.toNat)) = codeLenWord (codeAt s.code b) := by
  have hb := b.isLt
  simp only [memRead, toNat_csrAddr (show 0x0300 + b.toNat < 2 ^ 16 by omega)]
  rw [if_neg (by omega), if_neg (by omega), if_pos (by omega), Nat.add_sub_cancel_left, BitVec.ofNat_toNat,
    BitVec.setWidth_eq]

theorem memRead_codeBits (s : State) (b : Byte) {w : Nat} (hw : w < 8) :
    memRead s (BitVec.ofNat 16 (0x0400 + 8 * b.toNat + w)) = codeBitsWord (codeAt s.code b) w := by
  have hb := b.isLt
  simp only [memRead, toNat_csrAddr (show 0x0400 + 8 * b.toNat + w < 2 ^ 16 by omega)]
  rw [if_neg (by omega), if_neg (by omega), if_neg (by omega), if_pos (by omega),
    show (0x0400 + 8 * b.toNat + w - 0x0400) / 8 = b.toNat by omega,
    show (0x0400 + 8 * b.toNat + w - 0x0400) % 8 = w by omega, BitVec.ofNat_toNat, BitVec.setWidth_eq]

/-- Word j of NODE[n] (10_state.md R37). -/
theorem memRead_node {s : State} {n : NodeIndex} {e : NodeEntry} (he : nodeAt s.node n = some e) (j : Nat)
    (hj : j < 8) : memRead s (BitVec.ofNat 16 (0x1000 + j + 8 * n.toNat)) = nodeWord e j := by
  have hn := toNat_lt_of_ne_nil n (ne_nil_of_nodeAt_some he)
  simp only [memRead, toNat_csrAddr (show 0x1000 + j + 8 * n.toNat < 2 ^ 16 by omega)]
  rw [if_neg (by omega), if_neg (by omega), if_neg (by omega), if_neg (by omega), if_neg (by omega),
    if_pos (by omega), show (0x1000 + j + 8 * n.toNat - 0x1000) / 8 = n.toNat by omega,
    show (0x1000 + j + 8 * n.toNat - 0x1000) % 8 = j by omega, BitVec.ofNat_toNat, BitVec.setWidth_eq, nodeWindow, he]

/-- Code bit j stands in word j div 32 at position 31 - (j mod 32) (10_state.md R39). -/
theorem codeBitsWord_getLsbD (e : CodeEntry) {j : Nat} (hj : j < 256) :
    (codeBitsWord e (j / 32)).getLsbD (31 - j % 32) = codeBit e j := by
  rw [codeBitsWord, BitVec.getLsbD_extractLsb', decide_eq_true (by omega), Bool.true_and, codeBit, BitVec.getMsbD,
    decide_eq_true hj, Bool.true_and, show 224 - 32 * (j / 32) + (31 - j % 32) = 256 - 1 - j by omega]

theorem nodeWord_unused {e : NodeEntry} (h : e.used = false) (j : Nat) : nodeWord e j = 0#32 := if_pos h

/-- The eight words of a used node (10_state.md R37). -/
theorem nodeWord_used {e : NodeEntry} (h : e.used = true) :
    nodeWord e 0 = 1#1 ++ BitVec.ofBool e.internal ++ 0#22 ++ e.sym ∧
      nodeWord e 1 = 0#7 ++ e.right ++ 0#7 ++ e.left ∧
      (∀ k < 3, nodeWord e (2 + k) = wordOf k (e.weight.zeroExtend 96)) ∧
      ∀ j, 5 ≤ j → nodeWord e j = 0#32 := by
  have hu : ¬e.used = false := by simp [h]
  refine ⟨?_, if_neg hu, fun k hk => ?_, fun j hj => ?_⟩
  · have hused : BitVec.ofBool e.used = 1#1 := congrArg BitVec.ofBool h
    rw [← hused]
    exact if_neg hu
  · interval_cases k <;> exact if_neg hu
  · unfold nodeWord
    rw [if_neg hu]
    split
    case h_6 => rfl
    all_goals omega

/-- Settles O52: each window by the lemma about its words. -/
theorem tableWindows : Obligations.TableWindows := by
  intro s
  refine ⟨memRead_freq_words s, memRead_codeLen s, fun b j hj => ?_, fun n e he hu => ?_⟩
  · rw [memRead_codeBits s b (by omega), codeBitsWord_getLsbD _ hj]
  · obtain ⟨h0, h1, hw, h5⟩ := nodeWord_used hu
    obtain ⟨hweight, hzero⟩ := wordOf_append_72 e.weight
    have hr := memRead_node he
    refine ⟨(hr 0 (by omega)).trans h0, (hr 1 (by omega)).trans h1, ?_, ?_, (hr 5 (by omega)).trans (h5 5 (by omega)),
      (hr 6 (by omega)).trans (h5 6 (by omega)), (hr 7 (by omega)).trans (h5 7 (by omega))⟩
    · rw [hr 4 (by omega), hr 3 (by omega), hr 2 (by omega), hw 0 (by omega), hw 1 (by omega), hw 2 (by omega)]
      exact hweight
    · rw [hr 4 (by omega), hw 2 (by omega)]
      exact hzero

/-! ## Reserved addresses (R81) -/

theorem csrWord_reserved (s : State) {n : Nat} (h : 0x0D ≤ n ∧ n ≤ 0x0F ∨ 0x19 ≤ n) : csrWord s n = 0#32 := by
  unfold csrWord
  split
  case h_23 => rfl
  all_goals omega

/-- The gap below the window of NODE, and what lies above that window. -/
theorem memRead_above_tables (s : State) {a : CsrAddr}
    (h : 0x0C00 ≤ a.toNat ∧ a.toNat ≤ 0x0FFF ∨ 0x1FF8 ≤ a.toNat) : memRead s a = 0#32 := by
  simp only [memRead]
  rw [if_neg (by omega), if_neg (by omega), if_neg (by omega), if_neg (by omega)]
  split
  · rfl
  · exact if_neg (by omega)

/-- Settles O51: two of the ranges lie among the registers, two behind the tables; an unused node is a word of zeros. -/
theorem reservedAddressesReadZero : Obligations.ReservedAddressesReadZero := by
  refine ⟨fun s a ha => ?_, fun s n e j hj he hu => ?_⟩
  · by_cases hreg : a.toNat < 0x0100
    · exact (if_pos hreg).trans (csrWord_reserved s (by omega))
    · exact memRead_above_tables s (by omega)
  · rw [Nat.add_right_comm, memRead_node he j hj, nodeWord_unused hu]

end Sys2Proof.Machine
end

section
/-!
PROOFS. The command word (30_encoding.md R100 to R107). A word decodes to a command exactly when the command is well
formed and the word's two fields are the command's; the opcode map, LegalEnc and the groups of illegal words are read off
from that. The legality table follows from the order of dispatch's checks.
-/

namespace Sys2Proof.Machine

/-! ## The decoder and the encoder (R100, R102, R103) -/

/-- The `ctrl` form of R102. -/
theorem wf_wrctrl_iff (f : Byte) : (Instr.wrctrl f).WF ↔ f.extractLsb' 2 6 = 0#6 := beq_iff_eq

/-- The `reason` form of R102. -/
theorem wf_abort_iff (r : Byte) : (Instr.abort r).WF ↔ r = 0x01#8 ∨ r = 0x02#8 := by
  simp [Instr.WF, Instr.wellFormed]

/-- The word of a well-formed command decodes to the command. -/
theorem decode_encode {i : Instr} (hw : i.WF) : decode (encode i) = .legal i := by
  unfold decode
  rw [opcodeOf_encode]
  cases i with
  | wrctrl f =>
    simp [Instr.opcode, Instr.operand, decodeCtrl, (wf_wrctrl_iff f).mp hw]
  | abort r =>
    simp [Instr.opcode, Instr.operand, decodeReason, (wf_abort_iff r).mp hw]
  | _ => simp [Instr.opcode, Instr.operand, decodeNone]

/-- Settles O1: the decoder reads the command back, and a decoded command has the two fields of its word. -/
theorem decodeEncodeRoundTrip : Obligations.DecodeEncodeRoundTrip :=
  ⟨fun _ hw => decode_encode hw, fun _ _ hd => ⟨(decode_legal_fields hd).1, encode_eq_of_decode hd⟩⟩

/-- Settles O2: each word of the column is the encoding of its row's command. -/
theorem opcodeMapWords : Obligations.OpcodeMapWords :=
  ⟨decode_encode (i := .nop) rfl, decode_encode (i := .clear) rfl,
    decode_encode (i := .wrctrl 0x00#8) rfl, decode_encode (i := .wrctrl 0x01#8) rfl,
    decode_encode (i := .wrctrl 0x02#8) rfl, decode_encode (i := .wrctrl 0x03#8) rfl,
    decode_encode (i := .abort 0x01#8) rfl, decode_encode (i := .abort 0x02#8) rfl,
    fun b => decode_encode (i := .count b) rfl,
    decode_encode (i := .build) rfl, decode_encode (i := .hdrEmit) rfl,
    fun b => decode_encode (i := .encode b) rfl,
    decode_encode (i := .flush) rfl, decode_encode (i := .decStart) rfl,
    fun b => decode_encode (i := .decByte b) rfl,
    decode_encode (i := .decEnd) rfl⟩

/-! ## The legal words (R104) -/

/-- A word whose fields are those of a well-formed command decodes to it. -/
theorem decode_of_fields {w : CmdWord} {i : Instr} (hw : i.WF) (hop : opcodeOf w = i.opcode)
    (ha : operandOf w = i.operand) : decode w = .legal i := by
  have hword : encode i = w := by
    rw [encode, ← hop, ← ha, word_eq_append]
  rw [← hword]
  exact decode_encode hw

/-- Bits 7:2 of the operand are bits 7:2 of the word. -/
theorem operandOf_high_bits (w : CmdWord) : (operandOf w).extractLsb' 2 6 = w.extractLsb' 2 6 :=
  extractLsb'_extractLsb' w (by omega)

/-- Settles O3: a decoded command's fields satisfy its line of the formula; each line names the command it admits. -/
theorem legalWordsAreTheFormula : Obligations.LegalWordsAreTheFormula := by
  intro w
  rw [← operandOf_high_bits w, ← opcodeOf, ← operandOf]
  constructor
  · rintro ⟨i, hd⟩
    obtain ⟨hw, hop, ha⟩ := decode_legal_fields hd
    rw [← hop, ← ha]
    cases i with
    | wrctrl f => exact .inr (.inl ⟨rfl, (wf_wrctrl_iff f).mp hw⟩)
    | abort r => exact .inr (.inr (.inl ⟨rfl, (wf_abort_iff r).mp hw⟩))
    | _ => simp [Instr.opcode, Instr.operand]
  · rintro ((h | h | h) | ⟨h, ha⟩ | ⟨h, ha⟩ | ⟨h | h | h | h | h | h | h, ha⟩)
    · exact ⟨.count (operandOf w), decode_of_fields rfl h rfl⟩
    · exact ⟨.encode (operandOf w), decode_of_fields rfl h rfl⟩
    · exact ⟨.decByte (operandOf w), decode_of_fields rfl h rfl⟩
    · exact ⟨.wrctrl (operandOf w), decode_of_fields ((wf_wrctrl_iff _).mpr ha) h rfl⟩
    · exact ⟨.abort (operandOf w), decode_of_fields ((wf_abort_iff _).mpr ha) h rfl⟩
    · exact ⟨.nop, decode_of_fields rfl h ha⟩
    · exact ⟨.clear, decode_of_fields rfl h ha⟩
    · exact ⟨.build, decode_of_fields rfl h ha⟩
    · exact ⟨.hdrEmit, decode_of_fields rfl h ha⟩
    · exact ⟨.flush, decode_of_fields rfl h ha⟩
    · exact ⟨.decStart, decode_of_fields rfl h ha⟩
    · exact ⟨.decEnd, decode_of_fields rfl h ha⟩

/-! ## The illegal words (R105) -/

/-- The four groups of R105, for a word with these two fields. -/
def IllegalFields (op a : Byte) : Prop :=
  op.toNat ∉ [0x00, 0x01, 0x02, 0x03, 0x10, 0x11, 0x12, 0x13, 0x14, 0x20, 0x21, 0x22] ∨
    (op.toNat ∈ [0x00, 0x01, 0x11, 0x12, 0x14, 0x20, 0x22] ∧ a ≠ 0#8) ∨
    (op = 0x02#8 ∧ a.extractLsb' 2 6 ≠ 0#6) ∨ (op = 0x03#8 ∧ a ≠ 0x01#8 ∧ a ≠ 0x02#8)

/-- No well-formed command has the fields of an illegal word. -/
theorem not_illegalFields_of_wf {i : Instr} (hw : i.WF) : ¬IllegalFields i.opcode i.operand := by
  cases i with
  | wrctrl f =>
    simp [IllegalFields, Instr.opcode, Instr.operand, (wf_wrctrl_iff f).mp hw]
  | abort r =>
    rcases (wf_abort_iff r).mp hw with rfl | rfl <;> simp [IllegalFields, Instr.opcode, Instr.operand]
  | _ => simp [IllegalFields, Instr.opcode, Instr.operand]

theorem decodeNone_illegal {i : Instr} {w : CmdWord} {e : DecodeError} (h : decodeNone i w = .illegal e) :
    operandOf w ≠ 0x00#8 := by
  unfold decodeNone at h
  split at h
  · cases h
  · assumption

/-- The decoder rejects a word only for one of the reasons of R105. -/
theorem decode_illegal_fields {w : CmdWord} {e : DecodeError} (h : decode w = .illegal e) :
    IllegalFields (opcodeOf w) (operandOf w) := by
  unfold decode at h
  split at h
  case h_1 hop | h_2 hop | h_6 hop | h_7 hop | h_9 hop | h_10 hop | h_12 hop =>
    exact .inr (.inl ⟨by simp [hop], decodeNone_illegal h⟩)
  case h_5 | h_8 | h_11 => cases h
  case h_3 hop =>
    unfold decodeCtrl at h
    split at h
    · cases h
    · next ha => exact .inr (.inr (.inl ⟨BitVec.eq_of_toNat_eq hop, ha⟩))
  case h_4 hop =>
    unfold decodeReason at h
    split at h
    · cases h
    · next ha => exact .inr (.inr (.inr ⟨BitVec.eq_of_toNat_eq hop, not_or.mp ha⟩))
  case h_13 =>
    left
    simp only [List.mem_cons, List.not_mem_nil, or_false]
    tauto

theorem illegalFields_iff (w : CmdWord) :
    IllegalFields (opcodeOf w) (operandOf w) ↔ ∀ i, decode w ≠ .legal i := by
  constructor
  · intro hg i hd
    obtain ⟨hw, hop, ha⟩ := decode_legal_fields hd
    rw [← hop, ← ha] at hg
    exact not_illegalFields_of_wf hw hg
  · intro hn
    cases hd : decode w with
    | legal i => exact absurd hd (hn i)
    | illegal e => exact decode_illegal_fields hd

theorem stepWord_illegal {w : CmdWord} (h : ∀ i, decode w ≠ .legal i) (s : State) :
    stepWord w s = .next (illegalWord w s) := by
  unfold stepWord
  split
  · next i hd => exact absurd hd (h i)
  · rfl

/-- Settles O5: the step of an illegal word is `illegalWord`; the groups are the decoder's four ways to reject. -/
theorem illegalWordRaises : Obligations.IllegalWordRaises := by
  refine ⟨fun s w rest hin hn => ?_, fun w => ?_⟩
  · rw [step_command s w rest hin, stepWord_illegal hn]
    rfl
  · rw [← operandOf_high_bits w]
    exact illegalFields_iff w

/-! ## The legality table (R107) -/

theorem payloadByte_raise_code {b : Byte} {s : State} {c : ErrorCode} {sub : Byte}
    (h : payloadByte b s = .raise c sub) : c = .traversalOnEmptyTree ∨ c = .malformedContainer := by
  unfold payloadByte at h
  split at h
  · cases h
    exact .inl rfl
  · split at h
    · split at h <;> cases h
    · cases h
      exact .inr rfl

/-- SEQUENCE is dispatch's own error: no command's rule raises it (60_exceptions.md R302). -/
theorem ruleOf_raise_ne_sequence {i : Instr} {s : State} {c : ErrorCode} {sub : Byte}
    (h : ruleOf i s = .raise c sub) : c ≠ .sequence := by
  cases i with
  | nop | clear | wrctrl | build | hdrEmit | flush | decStart => cases h
  | abort r =>
    simp only [ruleOf, abortRule] at h
    split at h <;> cases h <;> decide
  | count b =>
    simp only [ruleOf, countRule] at h
    split at h <;> cases h
    decide
  | encode b =>
    simp only [ruleOf, encodeRule] at h
    split at h <;> cases h
    decide
  | decByte b =>
    simp only [ruleOf, decByteRule] at h
    split at h
    · rw [hdrByte_raise h]
      decide
    · rcases payloadByte_raise_code h with rfl | rfl <;> decide
  | decEnd =>
    simp only [ruleOf, decEndRule] at h
    split at h <;> cases h
    decide

/-- A command that completes enters no ERROR (60_exceptions.md R300). -/
theorem Completes.phase_ne_error {s t : State} {i : Instr} (h : Completes s i t) (hs : s.phase ≠ .error) :
    t.phase ≠ .error := by
  rcases h.phase with hp | ⟨-, hp⟩ | ⟨-, hp⟩ | ⟨-, hp⟩ | ⟨-, hp⟩ | ⟨-, hp⟩ | ⟨-, -, hp⟩ | ⟨-, -, hp⟩
  · exact hp.trans_ne hs
  all_goals simp [hp]

/-- Outside ERROR a well-formed command ends in the SEQUENCE error exactly when its phase does not allow it. -/
theorem exec_eq_sequence_iff {i : Instr} {s : State} (hw : i.WF) (hs : s.phase ≠ .error) :
    exec i s = .next (errorEntry i.opcode .sequence 0 s) ↔ ¬allowed i s.phase = true := by
  rw [exec_eq_dispatch]
  refine ⟨fun h ha => ?_, fun ha => dispatch_sequence i _ s hw hs (by simpa using ha)⟩
  rcases dispatch_next_cases h with ⟨hp, -⟩ | ⟨-, ⟨hn, -⟩ | ⟨-, hn, -⟩⟩ | ⟨-, -, -, ⟨c, sub, hr, he⟩ | hr⟩
  · exact hs hp
  · exact hn hw
  · rw [ha] at hn
    cases hn
  · have hc : ErrorCode.sequence = c := congrArg (fun t => t.errInfo.code) he
    exact ruleOf_raise_ne_sequence hr hc.symm
  · exact (completes_of_ruleOf hr).phase_ne_error hs rfl

/-- Settles O6: `allowed` is the table, row by row. -/
theorem sequenceTable : Obligations.SequenceTable := by
  intro i s hw hs
  refine (exec_eq_sequence_iff hw hs).trans (not_congr ?_)
  have hall : s.phase ∈ [.idle, .built, .encoding, .encDone, .decHdr, .decPayload, .decDone] := by
    cases hp : s.phase with
    | error => exact absurd hp hs
    | _ => decide
  cases i with
  | nop | clear | wrctrl | decStart => exact iff_of_true rfl hall
  | abort r => exact iff_of_true (by simpa [allowed] using hs) hall
  | _ => simp [allowed]

end Sys2Proof.Machine
end

section
/-!
PROOFS. The pass-control commands NOP, WRCTRL and ABORT (40_control.md R131, R134, R138).
-/

namespace Sys2Proof.Machine

/-- Settles O11: NOP runs its rule in every phase, and its words carry no operand. -/
theorem nopHasNoEffect : Obligations.NopHasNoEffect :=
  ⟨fun s => exec_of_recovers rfl rfl s,
    fun w hop ha => (illegalFields_iff w).mp (.inr (.inl ⟨by simp [opcodeOf, hop], ha⟩))⟩

/-- In every phase a well-formed WRCTRL writes CTRL bits 1:0 and nothing else (40_control.md R134). -/
theorem exec_wrctrl {f : Byte} (hf : f.extractLsb' 2 6 = 0#6) (s : State) :
    exec (.wrctrl f) s = .next { s with ctrl := ctrlBits f } :=
  exec_of_recovers ((wf_wrctrl_iff f).mpr hf) rfl s

/-- Settles O13: CLEAR and DEC_START put in force the CTRL they find, which is the one WRCTRL wrote. -/
theorem wrctrlWritesCtrl : Obligations.WrctrlWritesCtrl := by
  refine ⟨fun s f hf => ⟨exec_wrctrl hf s, fun t ht => ?_⟩, fun w hop ha => (illegalFields_iff w).mp ?_⟩
  · obtain rfl : { s with ctrl := ctrlBits f } = t := Host.Outcome.next.inj ((exec_wrctrl hf s).symm.trans ht)
    obtain ⟨hclear, hstart⟩ := initPassOpensAPass { s with ctrl := ctrlBits f }
    exact ⟨rfl, ⟨_, hclear, rfl⟩, ⟨_, hstart, rfl⟩⟩
  · rw [← operandOf_high_bits w] at ha
    exact .inr (.inr (.inl ⟨hop, ha⟩))

/-- Outside ERROR, ABORT with a legal reason runs its rule, which always raises (40_control.md R138). -/
theorem exec_abort {s : State} {r : Byte} (hr : r = 0x01#8 ∨ r = 0x02#8) (hp : s.phase ≠ .error) :
    exec (.abort r) s = settle 0x03#8 s (abortRule r s) := by
  rw [exec_eq_dispatch, dispatch_runs _ _ s ((wf_abort_iff r).mpr hr) (.inl hp) (by simpa [allowed] using hp)]
  rfl

/-- Settles O14: ABORT raises the error of its reason, and is not among the commands that recover. -/
theorem abortRecordsTheReason : Obligations.AbortRecordsTheReason := by
  refine ⟨fun s hp => ⟨exec_abort (.inl rfl) hp, exec_abort (.inr rfl) hp⟩, fun s r hp => ?_, fun w hop h1 h2 => ?_⟩
  · rw [exec_eq_dispatch]
    exact dispatch_discards _ _ s hp rfl
  · exact (illegalFields_iff w).mp (.inr (.inr (.inr ⟨hop, h1, h2⟩)))

end Sys2Proof.Machine
end

section
/-!
PROOFS. The frequency counter (41_frequency_counter.md R150 to R152): one COUNT, and a sequence of them with the BUILD
behind it.
-/

namespace Sys2Proof.Machine

/-! ## One COUNT -/

/-- The table after a COUNT b that does not raise: the count of b is one more, every other is as it was. -/
theorem freqAt_count_toNat {F : Vector Freq 256} {b : Byte} (hmax : (freqAt F b).toNat ≠ 2 ^ 64 - 1) (a : Byte) :
    (freqAt (setFreq F b (freqAt F b + 1)) a).toNat = (freqAt F a).toNat + if b == a then 1 else 0 := by
  by_cases hab : b = a
  · subst hab
    rw [freqAt_setFreq_self, if_pos (beq_self_eq_true b)]
    have hroom : (freqAt F b).toNat + (1#64).toNat < 2 ^ 64 := by
      have := (freqAt F b).isLt
      rw [BitVec.toNat_ofNat]
      omega
    exact BitVec.toNat_add_of_lt hroom
  · rw [freqAt_setFreq_ne _ _ _ _ (Ne.symm hab), if_neg (by simpa using hab), Nat.add_zero]

/-- COUNT b in IDLE at the maximum raises FREQ_OVERFLOW (R151). -/
theorem exec_count_overflow {s : State} {b : Byte} (hp : s.phase = .idle) (hmax : (freqAt s.freq b).toNat = 2 ^ 64 - 1) :
    exec (.count b) s = .next (errorEntry 0x10#8 .freqOverflow b s) := by
  have hones : freqAt s.freq b = BitVec.allOnes 64 := BitVec.eq_of_toNat_eq (by rw [hmax, BitVec.toNat_allOnes])
  rw [exec_eq_dispatch, dispatch_runs _ _ _ rfl (.inl (by simp [hp])) (by simp [allowed, hp])]
  simp only [ruleOf, countRule, if_pos hones, settle, Instr.opcode]

/-- Settles O16: below the maximum, at the maximum, and in a phase that does not allow COUNT. -/
theorem countAddsOne : Obligations.CountAddsOne := by
  refine ⟨fun s b hp hmax => ⟨_, exec_count_idle hp hmax, ?_, fun a hab => freqAt_setFreq_ne _ _ _ _ hab, rfl⟩,
    fun s b hp hmax => ?_, fun s b hp he => ?_⟩
  · rw [freqAt_count_toNat hmax, if_pos (beq_self_eq_true b)]
  · rw [exec_count_overflow hp hmax, errorEntry, hp]
  · exact (exec_eq_sequence_iff rfl he).mpr (by simpa [allowed] using hp)

/-! ## A sequence of COUNT commands -/

/-- COUNT commands in IDLE with room for all of them write FREQ alone, and add to each symbol's count how often it
occurs (R150). -/
theorem runInstrs_countsOf {S : List Byte} {s : State} (hp : s.phase = .idle)
    (hroom : ∀ b, (freqAt s.freq b).toNat + S.count b < 2 ^ 64) :
    ∃ F, runInstrs (countsOf S) s = .next { s with freq := F } ∧
      ∀ b, (freqAt F b).toNat = (freqAt s.freq b).toNat + S.count b := by
  induction S generalizing s with
  | nil => exact ⟨s.freq, rfl, fun _ => rfl⟩
  | cons x S ih =>
    have hmax : (freqAt s.freq x).toNat ≠ 2 ^ 64 - 1 := by
      have := hroom x
      rw [List.count_cons_self] at this
      omega
    have hsplit (b : Byte) : (freqAt (setFreq s.freq x (freqAt s.freq x + 1)) b).toNat + S.count b =
        (freqAt s.freq b).toNat + (x :: S).count b := by
      rw [freqAt_count_toNat hmax, List.count_cons, Nat.add_assoc, Nat.add_comm (S.count b)]
    obtain ⟨F, hrun, hF⟩ := ih (s := { s with freq := setFreq s.freq x (freqAt s.freq x + 1) }) hp
      fun b => (hsplit b).trans_lt (hroom b)
    refine ⟨F, ?_, fun b => (hF b).trans (hsplit b)⟩
    rw [countsOf, List.map_cons, runInstrs, exec_count_idle hp hmax]
    exact hrun

/-! ## The sum of the counts -/

/-- The occurrences of all symbols in a sequence are as many as the sequence is long. -/
theorem sum_count_allSymbols (S : List Byte) : (allSymbols.map fun b => S.count b).sum = S.length := by
  have hnodup : allSymbols.Nodup := allSymbols_ascending.imp BitVec.ne_of_lt
  have hmem : ∀ b ∈ (S : Multiset Byte), b ∈ allSymbols.toFinset := fun b _ => List.mem_toFinset.mpr (mem_allSymbols b)
  simpa only [Multiset.coe_count, Multiset.coe_card, List.sum_toFinset _ hnodup] using Multiset.sum_count_eq_card hmem

/-- Counts that grow by the occurrences in a sequence grow in sum by its length (R152). -/
theorem freqSum_eq_add_length {F G : Vector Freq 256} {S : List Byte}
    (h : ∀ b, (freqAt G b).toNat = (freqAt F b).toNat + S.count b) : freqSum G = freqSum F + S.length := by
  simp only [freqSum, h, List.sum_map_add, sum_count_allSymbols]

/-- BUILD in IDLE runs BuildTree and enters BUILT (42_tree_builder.md R178). -/
theorem exec_build_idle {s : State} (hp : s.phase = .idle) :
    exec .build s = .next { buildTree s with phase := .built } := by
  rw [exec_eq_dispatch, dispatch_runs _ _ _ rfl (.inl (by simp [hp])) (by simp [allowed, hp])]
  rfl

/-- Settles O18: the run of the COUNT commands, summed over the symbols; TOTAL is the weight at the root, the sum of all
frequencies. -/
theorem countsAreOccurrences : Obligations.CountsAreOccurrences := by
  intro S s hp hroom
  obtain ⟨F, hrun, hF⟩ := runInstrs_countsOf hp hroom
  have hsum : freqSum F = freqSum s.freq + S.length := freqSum_eq_add_length hF
  refine ⟨{ s with freq := F }, hrun, rfl, hF, hsum, freqSum_lt F, fun hzero b => ?_, _, exec_build_idle hp,
    (buildArena_total F).trans hsum⟩
  rw [hF b, hzero b, BitVec.toNat_zero, Nat.zero_add]

end Sys2Proof.Machine
end

section
/-!
PROOFS. The priority queue (42_tree_builder.md R171 to R175). A sift mends a heap whose order fails at one position only,
by moving that position until the order holds there too.
-/

namespace Sys2Proof.Machine

/-! ## Keys (R171) -/

/-- The key of a node as one number: the weight, and below it the 9 bits of the node index. -/
def nodeKey (t : Vector NodeEntry 511) (n : NodeIndex) : Nat := (weightAt t n).toNat * 2 ^ 9 + n.toNat

theorem nodeKey_lt_iff (t : Vector NodeEntry 511) (m n : NodeIndex) : nodeKey t m < nodeKey t n ↔
    (weightAt t m).toNat < (weightAt t n).toNat ∨ weightAt t m = weightAt t n ∧ m.toNat < n.toNat := by
  have hm := m.isLt
  have hn := n.isLt
  rw [nodeKey, nodeKey, ← BitVec.toNat_inj]
  omega

theorem keyLess_eq_decide (t : Vector NodeEntry 511) (m n : NodeIndex) :
    keyLess t m n = decide (nodeKey t m < nodeKey t n) := by
  simp only [keyLess, nodeKey_lt_iff, BitVec.lt_def, Bool.decide_or, Bool.decide_and, BEq.beq]

theorem nodeKey_injective (t : Vector NodeEntry 511) : Function.Injective (nodeKey t) := by
  intro m n h
  have hm := m.isLt
  have hn := n.isLt
  rw [nodeKey, nodeKey] at h
  exact BitVec.eq_of_toNat_eq (by omega)

theorem nodeKey_congr {t u : Vector NodeEntry 511} {n : NodeIndex} (h : nodeAt u n = nodeAt t n) :
    nodeKey u n = nodeKey t n := by
  rw [nodeKey, nodeKey, weightAt, weightAt, h]

/-! ## Positions of the heap -/

theorem heapAt_heapSwap_left {h : List NodeIndex} {i j : Nat} (hi : i < h.length) (hij : i ≠ j) :
    heapAt (heapSwap h i j) i = heapAt h j := by
  simp [heapAt, heapSwap, hi, hij.symm]

theorem heapAt_heapSwap_right {h : List NodeIndex} {i j : Nat} (hj : j < h.length) :
    heapAt (heapSwap h i j) j = heapAt h i := by
  simp [heapAt, heapSwap, hj]

theorem heapAt_heapSwap_ne (h : List NodeIndex) {i j m : Nat} (hi : m ≠ i) (hj : m ≠ j) :
    heapAt (heapSwap h i j) m = heapAt h m := by
  simp [heapAt, heapSwap, hi.symm, hj.symm]

@[simp] theorem length_heapSwap (h : List NodeIndex) (i j : Nat) : (heapSwap h i j).length = h.length := by
  simp [heapSwap]

theorem heapAt_append_left {h : List NodeIndex} (l : List NodeIndex) {i : Nat} (hi : i < h.length) :
    heapAt (h ++ l) i = heapAt h i := by
  simp [heapAt, List.getElem?_append_left hi]

/-- Another front, and another end, leave the positions between them. -/
theorem heapAt_cons_append (a c : NodeIndex) {h : List NodeIndex} (l : List NodeIndex) {i : Nat} (h0 : 0 < i)
    (hi : i < h.length + 1) : heapAt (c :: (h ++ l)) i = heapAt (a :: h) i := by
  obtain ⟨i, rfl⟩ := Nat.exists_eq_add_of_lt h0
  simp [heapAt, List.getElem?_append_left (show i < h.length by omega)]

/-- The order a position keeps with its parent. -/
def OrderedAt (key : NodeIndex → Nat) (h : List NodeIndex) (j : Nat) : Prop :=
  key (heapAt h ((j - 1) / 2)) ≤ key (heapAt h j)

/-- The min-heap property (R175). -/
def IsHeap (key : NodeIndex → Nat) (h : List NodeIndex) : Prop := ∀ j, 0 < j → j < h.length → OrderedAt key h j

/-- A heap but for the loose positions, which are i or the children of i; the children of i keep the order with the parent
of i, so that a swap at i on either side disturbs nothing else. -/
structure HeapBut (key : NodeIndex → Nat) (h : List NodeIndex) (i : Nat) (loose : Nat → Prop) : Prop where
  ordered : ∀ j, 0 < j → j < h.length → ¬loose j → OrderedAt key h j
  bridge : ∀ j, 0 < i → j < h.length → (j - 1) / 2 = i → key (heapAt h ((i - 1) / 2)) ≤ key (heapAt h j)

variable {key : NodeIndex → Nat}

/-- The order of a heap depends on the keys of its nodes only. -/
theorem IsHeap.congr {key' : NodeIndex → Nat} {h : List NodeIndex} (hh : IsHeap key h)
    (hk : ∀ n ∈ h, key' n = key n) : IsHeap key' h := by
  have hat : ∀ i, i < h.length → key' (heapAt h i) = key (heapAt h i) := fun i hi =>
    hk _ (by rw [heapAt_eq_getElem h i hi]; exact List.getElem_mem hi)
  intro j h0 hj
  rw [OrderedAt, hat _ (by omega), hat _ hj]
  exact hh j h0 hj

/-- The front of a heap has the least key. -/
theorem IsHeap.front_le {h : List NodeIndex} (hh : IsHeap key h) (j : Nat) (hj : j < h.length) :
    key (heapAt h 0) ≤ key (heapAt h j) := by
  induction j using Nat.strongRecOn with
  | ind j ih =>
    obtain rfl | h0 := Nat.eq_zero_or_pos j
    · exact Nat.le_refl _
    · exact (ih ((j - 1) / 2) (by omega) (by omega)).trans (hh j h0 hj)

/-! ## The sifts -/

/-- One turn of the sift-up: where i had the lesser key, its parent p is the loose position after the swap. -/
theorem HeapBut.swap_up {h : List NodeIndex} {i p : Nat} (hb : HeapBut key h i (· = i)) (h0 : 0 < i)
    (hi : i < h.length) (hp : (i - 1) / 2 = p) (hlt : key (heapAt h i) < key (heapAt h p)) :
    HeapBut key (heapSwap h i p) p (· = p) := by
  have hati := heapAt_heapSwap_left (j := p) hi (by omega)
  have hatp := heapAt_heapSwap_right (h := h) (i := i) (j := p) (by omega)
  refine ⟨fun j hj0 hj hjp => ?_, fun j hp0 hj hpar => ?_⟩ <;> rw [length_heapSwap] at hj
  · rw [OrderedAt]
    by_cases hji : j = i
    · rw [hji, hp, hati, hatp]
      exact hlt.le
    · have hord : OrderedAt key h j := hb.ordered j hj0 hj hji
      rw [heapAt_heapSwap_ne h hji hjp]
      by_cases hpari : (j - 1) / 2 = i
      · rw [hpari, hati, ← hp]
        exact hb.bridge j h0 hj hpari
      · by_cases hparp : (j - 1) / 2 = p
        · rw [hparp, hatp]
          rw [OrderedAt, hparp] at hord
          exact hlt.le.trans hord
        · rw [heapAt_heapSwap_ne h hpari hparp]
          exact hord
  · have hordp : OrderedAt key h p := hb.ordered p hp0 (by omega) (by omega)
    rw [heapAt_heapSwap_ne h (m := (p - 1) / 2) (by omega) (by omega)]
    by_cases hji : j = i
    · rw [hji, hati]
      exact hordp
    · rw [heapAt_heapSwap_ne h hji (by omega)]
      have hord : OrderedAt key h j := hb.ordered j (by omega) hj hji
      rw [OrderedAt, hpar] at hord
      exact Nat.le_trans hordp hord

/-- One turn of the sift-down: where the child c of i has a key less than that of i and not greater than any child's, the
children of c are the loose positions after the swap. -/
theorem HeapBut.swap_down {h : List NodeIndex} {i c : Nat} (hb : HeapBut key h i fun j => (j - 1) / 2 = i)
    (hc0 : 0 < c) (hc : c < h.length) (hpc : (c - 1) / 2 = i) (hlt : key (heapAt h c) < key (heapAt h i))
    (hle : ∀ j, 0 < j → j < h.length → (j - 1) / 2 = i → key (heapAt h c) ≤ key (heapAt h j)) :
    HeapBut key (heapSwap h i c) c fun j => (j - 1) / 2 = c := by
  have hati := heapAt_heapSwap_left (h := h) (i := i) (j := c) (by omega) (by omega)
  have hatc := heapAt_heapSwap_right (i := i) hc
  refine ⟨fun j hj0 hj hparc => ?_, fun j _ hj hpar => ?_⟩ <;> rw [length_heapSwap] at hj
  · rw [OrderedAt]
    by_cases hji : j = i
    · rw [hji, hati, heapAt_heapSwap_ne h (by omega) (by omega)]
      exact hb.bridge c (by omega) hc hpc
    · by_cases hjc : j = c
      · rw [hjc, hpc, hati, hatc]
        exact hlt.le
      · rw [heapAt_heapSwap_ne h hji hjc]
        by_cases hpari : (j - 1) / 2 = i
        · rw [hpari, hati]
          exact hle j hj0 hj hpari
        · rw [heapAt_heapSwap_ne h hpari hparc]
          exact hb.ordered j hj0 hj hpari
  · have hord : OrderedAt key h j := hb.ordered j (by omega) hj (by omega)
    rw [OrderedAt, hpar] at hord
    rw [hpc, hati, heapAt_heapSwap_ne h (by omega) (by omega)]
    exact hord

section

variable {less : NodeIndex → NodeIndex → Bool} (hless : ∀ m n, less m n = decide (key m < key n))
include hless

theorem siftUp_isHeap (fuel i : Nat) (h : List NodeIndex) (hi : i < h.length) (hf : i ≤ fuel)
    (hb : HeapBut key h i (· = i)) : IsHeap key (siftUp less fuel i h) := by
  induction fuel generalizing i h with
  | zero => exact fun j h0 hj => hb.ordered j h0 hj (by omega)
  | succ fuel ih =>
    unfold siftUp
    split
    · next hc =>
      rw [hless, decide_eq_true_iff] at hc
      exact ih _ _ (by rw [length_heapSwap]; omega) (by omega) (hb.swap_up hc.1 hi rfl hc.2)
    · next hc =>
      rw [hless, decide_eq_true_iff] at hc
      intro j h0 hj
      by_cases hji : j = i
      · subst hji
        simp only [OrderedAt]
        omega
      · exact hb.ordered j h0 hj hji

/-- PQ_Insert keeps the heap (R173, R175). -/
theorem pqInsert_isHeap {h : List NodeIndex} (hh : IsHeap key h) (n : NodeIndex) : IsHeap key (pqInsert less h n) := by
  have hlen : (h ++ [n]).length = h.length + 1 := List.length_append
  refine siftUp_isHeap hless _ _ _ (by omega) (Nat.le_refl _) ⟨fun j h0 hj hne => ?_, fun j h0 hj hpar => by omega⟩
  rw [OrderedAt, heapAt_append_left _ (by omega), heapAt_append_left _ (by omega)]
  exact hh j h0 (by omega)

theorem smallerOf_cases (h : List NodeIndex) (j m : Nat) :
    (smallerOf less h j m = m ∨ smallerOf less h j m = j ∧ j < h.length ∧ key (heapAt h j) < key (heapAt h m)) ∧
      key (heapAt h (smallerOf less h j m)) ≤ key (heapAt h m) ∧
      (j < h.length → key (heapAt h (smallerOf less h j m)) ≤ key (heapAt h j)) := by
  unfold smallerOf
  simp only [hless, decide_eq_true_iff]
  split
  · next hc => exact ⟨.inr ⟨rfl, hc⟩, hc.2.le, fun _ => Nat.le_refl _⟩
  · next hc => exact ⟨.inl rfl, Nat.le_refl _, fun hj => Nat.le_of_not_lt fun hlt => hc ⟨hj, hlt⟩⟩

/-- The position `leastOf` answers is i, or a child of i with a lesser key; no child's key is less (R174). -/
theorem leastOf_cases (h : List NodeIndex) (i : Nat) :
    (leastOf less h i = i ∨ 0 < leastOf less h i ∧ (leastOf less h i - 1) / 2 = i ∧ leastOf less h i < h.length ∧
      key (heapAt h (leastOf less h i)) < key (heapAt h i)) ∧
    ∀ j, 0 < j → j < h.length → (j - 1) / 2 = i → key (heapAt h (leastOf less h i)) ≤ key (heapAt h j) := by
  obtain ⟨hleft, hle_i, hle_left⟩ := smallerOf_cases hless h (2 * i + 1) i
  obtain ⟨hright, hle, hle_right⟩ := smallerOf_cases hless h (2 * i + 2) (smallerOf less h (2 * i + 1) i)
  unfold leastOf
  refine ⟨?_, fun j h0 hj hpar => ?_⟩
  · rcases hright with heq | ⟨heq, hl, hlt⟩ <;> rw [heq]
    · rcases hleft with heq | ⟨heq, hl, hlt⟩ <;> rw [heq]
      · exact .inl rfl
      · exact .inr ⟨by omega, by omega, hl, hlt⟩
    · exact .inr ⟨by omega, by omega, hl, hlt.trans_le hle_i⟩
  · obtain rfl | rfl : j = 2 * i + 1 ∨ j = 2 * i + 2 := by omega
    · exact hle.trans (hle_left hj)
    · exact hle_right hj

theorem siftDown_isHeap (fuel i : Nat) (h : List NodeIndex) (hf : h.length ≤ fuel + i)
    (hb : HeapBut key h i fun j => (j - 1) / 2 = i) : IsHeap key (siftDown less fuel i h) := by
  induction fuel generalizing i h with
  | zero => exact fun j h0 (hj : j < h.length) => hb.ordered j h0 hj (by omega)
  | succ fuel ih =>
    obtain ⟨hcase, hle⟩ := leastOf_cases hless h i
    unfold siftDown
    split
    · next heq =>
      rw [heq] at hle
      intro j h0 hj
      by_cases hpar : (j - 1) / 2 = i
      · rw [OrderedAt, hpar]
        exact hle j h0 hj hpar
      · exact hb.ordered j h0 hj hpar
    · next hne =>
      obtain ⟨h0, hpar, hl, hlt⟩ := hcase.resolve_left hne
      exact ih _ _ (by rw [length_heapSwap]; omega) (hb.swap_down h0 hl hpar hlt hle)

/-- PQ_ExtractMin takes a node of least key and keeps the heap (R174, R175). -/
theorem pqExtractMin_isHeap {h h' : List NodeIndex} {r : NodeIndex} (hh : IsHeap key h)
    (hx : pqExtractMin less h = some (r, h')) : IsHeap key h' ∧ ∀ x ∈ h', key r ≤ key x := by
  have hperm := pqExtractMin_perm less h h' r hx
  cases h with
  | nil => cases hx
  | cons a rest =>
    have hleast : ∀ x ∈ a :: rest, key a ≤ key x := fun x hm => by
      obtain ⟨j, hj, rfl⟩ := List.getElem_of_mem hm
      have := hh.front_le j hj
      rwa [heapAt_eq_getElem _ j hj] at this
    simp only [pqExtractMin] at hx
    split at hx
    · cases hx
      exact ⟨fun j _ hj => absurd hj (Nat.not_lt_zero j), fun x hm => by cases hm⟩
    · next l hl =>
      cases hx
      obtain ⟨ys, rfl⟩ := List.getLast?_eq_some_iff.mp hl
      refine ⟨siftDown_isHeap hless _ _ _ (by simp)
        ⟨fun j h0 hj hpar => ?_, fun _ h0 => absurd h0 (Nat.lt_irrefl 0)⟩,
        fun x hm => hleast x (hperm.mem_iff.mpr (List.mem_cons_of_mem _ hm))⟩
      rw [List.dropLast_concat, List.length_cons] at hj
      have hold : OrderedAt key (r :: (ys ++ [l])) j := hh j h0 (by rw [List.length_cons, List.length_append]; omega)
      rw [OrderedAt, heapAt_cons_append l r _ h0 hj, heapAt_cons_append l r _ (by omega) (by omega)] at hold
      rw [List.dropLast_concat]
      exact hold

end

/-- The min-heap property in the terms of the model's comparison. -/
theorem isHeap_nodeKey_iff (t : Vector NodeEntry 511) (h : List NodeIndex) : IsHeap (nodeKey t) h ↔
    ∀ i, 0 < i → i < h.length → keyLess t (heapAt h i) (heapAt h ((i - 1) / 2)) = false := by
  simp only [keyLess_eq_decide, decide_eq_false_iff_not, Nat.not_lt, IsHeap, OrderedAt]

/-- Settles O20: the keys of the arena order the queue, and two nodes have different keys. -/
theorem queueReturnsTheMinimum : Obligations.QueueReturnsTheMinimum := by
  intro t h hheap
  have hless := keyLess_eq_decide t
  simp only [← isHeap_nodeKey_iff] at hheap ⊢
  refine ⟨fun n => ⟨pqInsert_perm _ _ n, pqInsert_isHeap hless hheap n⟩, fun hne => ?_⟩
  obtain ⟨⟨r, h'⟩, hx⟩ := Option.ne_none_iff_exists'.mp fun hnone => hne ((pqExtractMin_none_iff _ h).mp hnone)
  have hperm := pqExtractMin_perm _ _ _ _ hx
  obtain ⟨hheap', hmin⟩ := pqExtractMin_isHeap hless hheap hx
  refine ⟨r, h', hx, hperm, fun hnodup x hm => ?_, hheap'⟩
  have hrx : r ≠ x := fun heq => (List.nodup_cons.mp (hperm.nodup_iff.mp hnodup)).1 (heq ▸ hm)
  rw [hless, decide_eq_true_iff]
  exact Nat.lt_of_le_of_ne (hmin x hm) fun heq => hrx (nodeKey_injective t heq)

end Sys2Proof.Machine
end

section
/-!
PROOFS. The merges of BuildTree (42_tree_builder.md R176, R177). The queue stays a heap under the keys of the arena, and
it holds the nodes that are no child yet; so a merge takes the two least of them.
-/

namespace Sys2Proof.Machine

/-! ## The queue of BuildTree -/

/-- The queue is a heap of nodes made so far. -/
structure QueueOk (b : TreeBuild) : Prop where
  heap : IsHeap (nodeKey b.node) b.heap
  lt_idx : ∀ n ∈ b.heap, n.toNat < b.idx

theorem push_nodeKey_lt (b : TreeBuild) (e : NodeEntry) (rest : List NodeIndex) (hb : b.idx < 511) {n : NodeIndex}
    (hn : n.toNat < b.idx) : nodeKey (b.push e rest).node n = nodeKey b.node n :=
  nodeKey_congr (by rw [push_nodeAt b e rest n hb, if_neg (Nat.ne_of_lt hn)])

/-- A push onto a heap of nodes made so far keeps the queue (R175). -/
theorem queueOk_push {b : TreeBuild} {rest : List NodeIndex} (e : NodeEntry) (hb : b.idx < 511)
    (hheap : IsHeap (nodeKey b.node) rest) (hlt : ∀ n ∈ rest, n.toNat < b.idx) : QueueOk (b.push e rest) where
  heap := pqInsert_isHeap (keyLess_eq_decide _) (hheap.congr fun n hn => push_nodeKey_lt b e rest hb (hlt n hn)) _
  lt_idx n hn := by
    rcases List.mem_cons.mp ((push_heap_perm b e rest).mem_iff.mp hn) with rfl | hm
    · rw [idx_toNat _ hb]
      exact Nat.lt_succ_self _
    · exact (hlt n hm).trans (Nat.lt_succ_self _)

theorem foldl_addLeaf_queueOk (freq : Vector Freq 256) (l : List Byte) (b : TreeBuild) (h : QueueOk b)
    (hroom : b.idx + l.length < 511) : QueueOk (l.foldl (addLeaf freq) b) := by
  induction l generalizing b with
  | nil => exact h
  | cons s l ih =>
    rw [List.length_cons] at hroom
    rw [List.foldl_cons]
    by_cases hz : freqAt freq s = 0#64
    · rw [show addLeaf freq b s = b by simp [addLeaf, hz]]
      exact ih b h (by omega)
    · rw [show addLeaf freq b s = b.push (leafEntry s (freqAt freq s)) b.heap by simp [addLeaf, hz]]
      exact ih _ (queueOk_push _ (by omega) h.heap h.lt_idx) (by rw [push_idx]; omega)

theorem addLeaves_queueOk (freq : Vector Freq 256) : QueueOk (addLeaves freq) :=
  foldl_addLeaf_queueOk freq allSymbols TreeBuild.start
    ⟨fun _ _ hj => absurd hj (Nat.not_lt_zero _), fun _ hn => absurd hn List.not_mem_nil⟩
    (by rw [allSymbols_length]; decide)

/-- One merge takes two nodes x and y in order of their keys, and no node left in the queue has a key less than that
of y. -/
theorem mergeOnce_least {b b' : TreeBuild} (h : QueueOk b) (hm : mergeOnce b = some b') :
    ∃ x y rest, b.heap.Perm (x :: y :: rest) ∧ b' = b.push (internalEntry b.node x y) rest ∧
      IsHeap (nodeKey b.node) rest ∧ nodeKey b.node x ≤ nodeKey b.node y ∧
      ∀ m ∈ rest, nodeKey b.node y ≤ nodeKey b.node m := by
  unfold mergeOnce at hm
  split at hm
  · cases hm
  · next x h1 hx =>
    split at hm
    · cases hm
    · next y rest hy =>
      cases hm
      have hless := keyLess_eq_decide b.node
      have hperm := pqExtractMin_perm _ _ _ _ hy
      obtain ⟨hheap1, hmin1⟩ := pqExtractMin_isHeap hless h.heap hx
      obtain ⟨hheap2, hmin2⟩ := pqExtractMin_isHeap hless hheap1 hy
      exact ⟨x, y, rest, (pqExtractMin_perm _ _ _ _ hx).trans (hperm.cons x), rfl, hheap2,
        hmin1 y (hperm.mem_iff.mpr List.mem_cons_self), hmin2⟩

/-! ## Least merges -/

/-- The children of n are in the order of their keys, and they were the two least of the nodes made before n that were
no child then. -/
def LeastChildren (t : Vector NodeEntry 511) (n : NodeIndex) (e : NodeEntry) : Prop :=
  nodeKey t e.left < nodeKey t e.right ∧
    ∀ m : NodeIndex, m.toNat < n.toNat → m ≠ e.left → m ≠ e.right →
      (∀ q : NodeIndex, q.toNat < n.toNat → ¬IsChild t q m) → nodeKey t e.right < nodeKey t m

/-- Whether a node joined the least ones depends on the nodes made before it only. -/
theorem LeastChildren.congr {t u : Vector NodeEntry 511} {n : NodeIndex} {e : NodeEntry} (h : LeastChildren t n e)
    (hl : e.left < n) (hr : e.right < n) (hu : ∀ m : NodeIndex, m.toNat < n.toNat → nodeAt u m = nodeAt t m) :
    LeastChildren u n e := by
  have hkey : ∀ m : NodeIndex, m.toNat < n.toNat → nodeKey u m = nodeKey t m := fun m hm => nodeKey_congr (hu m hm)
  obtain ⟨hlr, hleast⟩ := h
  refine ⟨?_, fun m hm hml hmr horphan => ?_⟩
  · rw [hkey _ hl, hkey _ hr]
    exact hlr
  · rw [hkey _ hr, hkey _ hm]
    refine hleast m hm hml hmr fun q hq hc => horphan q hq ?_
    obtain ⟨d, hd, hchild⟩ := hc
    exact ⟨d, by rw [hu q hq]; exact hd, hchild⟩

/-- Every internal node made so far joined the least nodes of its time. -/
def MergesLeast (b : TreeBuild) : Prop :=
  ∀ n e, nodeAt b.node n = some e → e.internal = true → LeastChildren b.node n e

theorem BuildOk.internal_range {b : TreeBuild} {k : Nat} (h : BuildOk b k) {n : NodeIndex} {e : NodeEntry}
    (he : nodeAt b.node n = some e) (hi : e.internal = true) :
    e.left < n ∧ e.right < n ∧ k ≤ n.toNat ∧ n.toNat < b.idx := by
  obtain ⟨hl, hn⟩ := h.child_lt ⟨e, he, hi, .inl rfl⟩
  refine ⟨hl, (h.child_lt ⟨e, he, hi, .inr rfl⟩).1, Nat.le_of_not_lt fun hk => ?_, hn⟩
  obtain ⟨d, hd, -, hleaf, -⟩ := h.leaf n hk
  rw [Option.some.inj (he.symm.trans hd), hleaf] at hi
  cases hi

/-- A merge keeps the queue, and its node joins the two least nodes of the queue (R177). -/
theorem mergesLeast_mergeOnce {b b' : TreeBuild} {k : Nat} (h : BuildOk b k) (hq : QueueOk b) (hleast : MergesLeast b)
    (hm : mergeOnce b = some b') : BuildOk b' k ∧ QueueOk b' ∧ MergesLeast b' := by
  obtain ⟨x, y, rest, hperm, rfl, hheap, hxy, hmin⟩ := mergeOnce_least hq hm
  have hok := buildOk_push_internal h x y rest hperm
  have hb : b.idx < 511 := hok.idx_le
  have hrest : ∀ n ∈ rest, n ∈ b.heap := fun n hn => hperm.mem_iff.mpr (by simp [hn])
  have hold : ∀ m : NodeIndex, m.toNat < b.idx →
      nodeAt (b.push (internalEntry b.node x y) rest).node m = nodeAt b.node m := fun m hm => by
    rw [push_nodeAt b _ rest m hb, if_neg (Nat.ne_of_lt hm)]
  refine ⟨hok, queueOk_push _ hb hheap fun n hn => h.heap_lt n (hrest n hn), fun n e he hi => ?_⟩
  obtain ⟨hl, hr, -, hn⟩ := hok.internal_range he hi
  rw [push_nodeAt b _ rest n hb] at he
  split at he
  · next hnew =>
    cases he
    have hne : x ≠ y ∧ y ∉ rest := by
      have := hperm.nodup_iff.mp h.nodup
      simp only [List.nodup_cons, List.mem_cons, not_or] at this
      exact ⟨this.1.1, this.2.1⟩
    have hbefore : LeastChildren b.node n (internalEntry b.node x y) := by
      refine ⟨Nat.lt_of_le_of_ne hxy fun heq => hne.1 (nodeKey_injective _ heq), fun m hm hml hmr horphan => ?_⟩
      have hqueued : m ∈ b.heap := by
        by_contra hnot
        obtain ⟨p, hp, -⟩ := h.parent m (by omega) hnot
        exact horphan p (by rw [hnew]; exact (h.child_lt hp).2) hp
      have hmrest : m ∈ rest := by
        have := hperm.mem_iff.mp hqueued
        simp only [List.mem_cons] at this
        exact (this.resolve_left hml).resolve_left hmr
      exact Nat.lt_of_le_of_ne (hmin m hmrest) fun heq => hmr (nodeKey_injective _ heq).symm
    exact hbefore.congr hl hr fun m hm => hold m (by omega)
  · rw [push_idx] at hn
    exact (hleast n e he hi).congr hl hr fun m hm => hold m (by omega)

theorem mergesLeast_mergeAll (fuel : Nat) {b : TreeBuild} {k : Nat} (h : BuildOk b k) (hq : QueueOk b)
    (hleast : MergesLeast b) : MergesLeast (mergeAll fuel b) := by
  induction fuel generalizing b with
  | zero => exact hleast
  | succ fuel ih =>
    unfold mergeAll
    split
    · exact hleast
    · next b' hm =>
      obtain ⟨h', hq', hleast'⟩ := mergesLeast_mergeOnce h hq hleast hm
      exact ih h' hq' hleast'

theorem buildArena_mergesLeast (freq : Vector Freq 256) : MergesLeast (buildArena freq) := by
  obtain ⟨hok, hidx⟩ := addLeaves_ok freq
  refine mergesLeast_mergeAll _ hok (addLeaves_queueOk freq) fun n e he hi => ?_
  obtain ⟨-, -, hk, hn⟩ := hok.internal_range he hi
  omega

theorem weightAt_eq {t : Vector NodeEntry 511} {n : NodeIndex} {e : NodeEntry} (h : nodeAt t n = some e) :
    weightAt t n = e.weight := by
  rw [weightAt, h]

/-- The order of two keys, read from the entries of the nodes (R171). -/
theorem nodeKey_lt_iff_entries {t : Vector NodeEntry 511} {m n : NodeIndex} {d e : NodeEntry} (hd : nodeAt t m = some d)
    (he : nodeAt t n = some e) : nodeKey t m < nodeKey t n ↔
      d.weight.toNat < e.weight.toNat ∨ d.weight = e.weight ∧ m.toNat < n.toNat := by
  rw [nodeKey_lt_iff, weightAt_eq hd, weightAt_eq he]

theorem buildTree_children (s : State) {n : NodeIndex} {e : NodeEntry} (he : nodeAt (buildTree s).node n = some e)
    (hi : e.internal = true) :
    ∃ a b, nodeAt (buildTree s).node e.left = some a ∧ nodeAt (buildTree s).node e.right = some b := by
  obtain ⟨a, ha⟩ := arena_child_some (buildArena_ok s.freq) he hi false
  obtain ⟨b, hb⟩ := arena_child_some (buildArena_ok s.freq) he hi true
  exact ⟨a, b, ha, hb⟩

/-- Settles O23: every merge joined the least nodes of the queue; a key is read from the entries of the two nodes. -/
theorem mergesJoinTheLeastNodes : Obligations.MergesJoinTheLeastNodes := by
  intro s n e he hi
  obtain ⟨hlr, hleast⟩ := buildArena_mergesLeast s.freq n e he hi
  obtain ⟨a, b, ha, hb⟩ := buildTree_children s he hi
  exact ⟨a, b, ha, hb, (nodeKey_lt_iff_entries ha hb).mp hlr, fun m d hm hml hmr hd horphan =>
    (nodeKey_lt_iff_entries hb hd).mp (hleast m hm hml hmr horphan)⟩

end Sys2Proof.Machine
end

section
/-!
PROOFS. BUILD and the codes (42_tree_builder.md R177 to R192): every statement about BuildTree's result follows from the
arena of the table of frequencies and from the paths of its leaves.
-/

namespace Sys2Proof.Machine

/-! ## The root and the leaves of a good arena (10_state.md R38) -/

section

variable {t : Vector NodeEntry 511} {k : Nat} {root : NodeIndex}

theorem ArenaOk.root_toNat (h : ArenaOk t k root) (hk : k ≠ 0) : root.toNat = 2 * k - 2 := by
  have hle := h.leaves_le
  rw [h.root_eq, if_neg hk]
  exact idx_toNat _ (by omega)

theorem ArenaOk.root_eq_nil_iff (h : ArenaOk t k root) : root = Config.nilIndex ↔ k = 0 := by
  refine ⟨fun hnil => ?_, fun hk => by rw [h.root_eq, if_pos hk]⟩
  have hle := h.leaves_le
  by_contra hk
  exact ne_nil_of_toNat_lt root (by rw [h.root_toNat hk]; omega) hnil

/-- A used entry that is not internal is one of the entries 0..k-1. -/
theorem ArenaOk.leaf_range (h : ArenaOk t k root) {n : NodeIndex} {e : NodeEntry} (he : nodeAt t n = some e)
    (hu : e.used = true) (hl : e.internal = false) : n.toNat < k := by
  by_contra hk
  by_cases hn : n.toNat + 1 < 2 * k
  · obtain ⟨d, hd, -, hi, -⟩ := h.inner n (by omega) hn
    rw [Option.some.inj (he.symm.trans hd), hi] at hl
    cases hl
  · rw [Option.some.inj (he.symm.trans (h.unused n (by omega) (ne_nil_of_nodeAt_some he)))] at hu
    cases hu

theorem ArenaOk.used_of_lt (h : ArenaOk t k root) {n : NodeIndex} {e : NodeEntry} (hn : n.toNat + 1 < 2 * k)
    (he : nodeAt t n = some e) : e.used = true := by
  by_cases hk : n.toNat < k
  · obtain ⟨d, hd, hu, -⟩ := h.leaf n hk
    rw [Option.some.inj (he.symm.trans hd), hu]
  · obtain ⟨d, hd, hu, -⟩ := h.inner n (by omega) hn
    rw [Option.some.inj (he.symm.trans hd), hu]

theorem ArenaOk.root_some (h : ArenaOk t k root) (hk : k ≠ 0) :
    ∃ e, nodeAt t root = some e ∧ e.internal = decide (k ≠ 1) := by
  have hroot := h.root_toNat hk
  by_cases h1 : k = 1
  · obtain ⟨e, he, -, hl, -⟩ := h.leaf root (by omega)
    exact ⟨e, he, by simp [hl, h1]⟩
  · obtain ⟨e, he, -, hi, -⟩ := h.inner root (by omega) (by omega)
    exact ⟨e, he, by simp [hi, h1]⟩

/-- The root is a leaf exactly in the one-symbol tree (R177). -/
theorem ArenaOk.rootIsLeaf_eq (h : ArenaOk t k root) : rootIsLeaf t root = decide (k = 1) := by
  by_cases hk : k = 0
  · rw [rootIsLeaf, (nodeAt_eq_none_iff t root).mpr (h.root_eq_nil_iff.mpr hk), hk]
    rfl
  · obtain ⟨e, he, hi⟩ := h.root_some hk
    rw [rootIsLeaf, he]
    simp [hi]

/-- A path from the root to a node with an entry stays inside the arena, and passes through internal nodes only (R191). -/
theorem ArenaOk.path_from_root (h : ArenaOk t k root) {q : List Bool} {m : NodeIndex} {e : NodeEntry}
    (hq : pathEnd t root q = some m) (he : nodeAt t m = some e) : m.toNat + 1 < 2 * k ∧ q.length + 1 ≤ k := by
  have hk : k ≠ 0 := fun hk => by
    have hnil := h.root_eq_nil_iff.mpr hk
    cases q with
    | nil =>
      cases hq
      exact ne_nil_of_nodeAt_some he hnil
    | cons c q => simp [pathEnd, (nodeAt_eq_none_iff t root).mpr hnil] at hq
  have hroot := h.root_toNat hk
  obtain ⟨hm, hlen⟩ := path_length t k root h root m q (by omega) hq
  refine ⟨hm, ?_⟩
  by_cases hnil : q = []
  · rw [hnil, List.length_nil]
    omega
  · have := (hlen hnil).2
    omega

end

/-! ## BUILD (R177, R178) -/

theorem buildTree_arenaOk (s : State) : ArenaOk (buildTree s).node (distinctSymbols s.freq) (buildTree s).root :=
  buildArena_ok s.freq

/-- Settles O21: BUILD in IDLE runs BuildTree, whose root says how many symbols there are. -/
theorem buildCompletes : Obligations.BuildCompletes := by
  intro s hp
  have harena := buildTree_arenaOk s
  have hk := harena.leaves_le
  refine ⟨_, exec_build_idle hp, rfl, ?_, rfl, ?_, harena.root_eq_nil_iff, rfl⟩
  · show (BitVec.ofNat 9 (addLeaves s.freq).idx).toNat = distinctSymbols s.freq
    rw [addLeaves_idx, BitVec.toNat_ofNat]
    exact Nat.mod_eq_of_lt (by omega)
  · show setTreeFlags ((buildTree s).root == Config.nilIndex) (rootIsLeaf (buildTree s).node (buildTree s).root)
      s.flags = _
    rw [harena.rootIsLeaf_eq, setTreeFlags, beq_eq_decide, decide_eq_decide.mpr harena.root_eq_nil_iff]

/-! ## Runs of COUNT commands and the BUILD behind them -/

theorem runInstrs_append {is : List Instr} (js : List Instr) {s t : State} (h : runInstrs is s = .next t) :
    runInstrs (is ++ js) s = runInstrs js t := by
  induction is generalizing s with
  | nil =>
    cases h
    rfl
  | cons i is ih =>
    rw [runInstrs] at h
    rw [List.cons_append, runInstrs]
    split at h
    · exact ih h
    · cases h
    · cases h

/-- COUNT commands in IDLE with room for all of them, then BUILD: the tree of the table that the occurrences give. -/
theorem runInstrs_countsOf_build {S : List Byte} {s : State} (hp : s.phase = .idle)
    (hroom : ∀ b, (freqAt s.freq b).toNat + S.count b < 2 ^ 64) :
    ∃ F, runInstrs (countsOf S ++ [.build]) s = .next { buildTree { s with freq := F } with phase := .built } ∧
      ∀ b, (freqAt F b).toNat = (freqAt s.freq b).toNat + S.count b := by
  obtain ⟨F, hrun, hF⟩ := runInstrs_countsOf hp hroom
  refine ⟨F, ?_, hF⟩
  rw [runInstrs_append _ hrun, runInstrs, exec_build_idle (s := { s with freq := F }) hp]
  rfl

/-- Settles O27: the table after the COUNT commands depends on how often each symbol occurs only. -/
theorem countOrderDoesNotMatter : Obligations.CountOrderDoesNotMatter := by
  intro S S' s hp hroom hperm
  obtain ⟨F, hrun, hF⟩ := runInstrs_countsOf_build hp hroom
  obtain ⟨F', hrun', hF'⟩ := runInstrs_countsOf_build (S := S') hp fun b => by
    rw [← hperm.count_eq]
    exact hroom b
  have hFF' : F = F' := freq_ext F F' fun b => BitVec.eq_of_toNat_eq (by rw [hF, hF', hperm.count_eq])
  exact ⟨_, hrun, by rw [hFF']; exact hrun'⟩

/-- Settles O24: the leaves carry the frequencies, each merge adds two weights without a carry out of 72 bits, and
the root is left with the sum. -/
theorem weightsAddUp : Obligations.WeightsAddUp := by
  intro s
  have harena := buildTree_arenaOk s
  refine ⟨fun n e he hu hl => ?_, fun n e he hi => ?_, fun e he => (weightAt_eq he).symm, fun hnil => ?_,
    buildArena_total s.freq, fun S hp hzero hcount => ?_⟩
  · obtain ⟨b, hb, hleaf⟩ := buildArena_leaf s.freq n (harena.leaf_range he hu hl)
    rw [Option.some.inj (he.symm.trans hleaf), leafEntry_weight]
    exact ⟨rfl, hb⟩
  · obtain ⟨a, b, ha, hb⟩ := buildTree_children s he hi
    obtain ⟨-, -, hk, hn⟩ := (buildArena_buildOk s.freq).1.internal_range he hi
    have hadd : e.weight.toNat =
        (weightAt (buildTree s).node e.left).toNat + (weightAt (buildTree s).node e.right).toNat :=
      (buildArena_weights s.freq).1 n hk hn e he
    rw [weightAt_eq ha, weightAt_eq hb] at hadd
    exact ⟨a, b, ha, hb, hadd⟩
  · show weightAt (buildTree s).node (buildTree s).root = 0
    rw [weightAt, (nodeAt_eq_none_iff _ _).mpr hnil]
  · obtain ⟨F, hrun, hF⟩ := runInstrs_countsOf_build (S := S) hp fun b => by
      rw [hzero b, BitVec.toNat_zero, Nat.zero_add]
      exact hcount b
    refine ⟨_, hrun, (buildArena_total F).trans ?_⟩
    have hsum : freqSum s.freq = 0 := List.sum_eq_zero fun n hn => by
      obtain ⟨b, -, rfl⟩ := List.mem_map.mp hn
      rw [hzero b, BitVec.toNat_zero]
    rw [freqSum_eq_add_length hF, hsum, Nat.zero_add]

/-! ## Codes (R190, R191) -/

/-- The code of a symbol is the all-zero entry, or the path from the root to a leaf with the symbol (R190). -/
theorem buildTree_code_cases (s : State) (a : Byte) :
    codeAt (buildTree s).code a = CodeEntry.zero ∨
      ∃ q m e, codeAt (buildTree s).code a = codeEntry q ∧ q.length + 1 ≤ distinctSymbols s.freq ∧
        pathEnd (buildTree s).node (buildTree s).root q = some m ∧ nodeAt (buildTree s).node m = some e ∧
        e.used = true ∧ e.internal = false ∧ e.sym = a := by
  have harena := buildTree_arenaOk s
  rcases visit_sound (buildTree s).node Config.maxNodes (buildTree s).root [] (Vector.replicate 256 CodeEntry.zero) a with
    hold | ⟨q, m, e, hq, he, hl, hsym, hcode⟩
  · exact .inl (hold.trans (codeAt_replicate a _))
  · obtain ⟨hm, hlen⟩ := harena.path_from_root hq he
    exact .inr ⟨q, m, e, hcode, hlen, hq, he, harena.used_of_lt hm he, hl, hsym⟩

theorem codeEntry_len {q : List Bool} (hq : q.length < 2 ^ 9) : (codeEntry q).len.toNat = q.length := by
  rw [codeEntry, BitVec.toNat_ofNat]
  exact Nat.mod_eq_of_lt hq

/-- The code bits behind the path are 0 (10_state.md R39). -/
theorem codeBit_codeEntry_of_le {q : List Bool} {j : Nat} (hj : q.length ≤ j) : codeBit (codeEntry q) j = false := by
  rw [codeBit, codeEntry]
  by_cases h : j < 256
  · rw [packBits_getMsbD q j h, List.getD_eq_default _ _ hj]
  · exact BitVec.getMsbD_of_ge _ _ (by omega)

/-- A valid code is the path from the root to a leaf with its symbol. -/
theorem buildTree_code_valid (s : State) {a : Byte} (hv : (codeAt (buildTree s).code a).valid = true) :
    ∃ m e, pathEnd (buildTree s).node (buildTree s).root (codeOf (codeAt (buildTree s).code a)) = some m ∧
      nodeAt (buildTree s).node m = some e ∧ e.used = true ∧ e.internal = false ∧ e.sym = a := by
  have hk := distinctSymbols_le s.freq
  rcases buildTree_code_cases s a with hzero | ⟨q, m, e, hcode, hlen, hpath⟩
  · rw [hzero] at hv
    cases hv
  · rw [hcode, codeOf_codeEntry q (by omega)]
    exact ⟨m, e, hpath⟩

/-- Settles O26: a code is the path Visit came by. -/
theorem codesAreTreePaths : Obligations.CodesAreTreePaths := by
  intro s a
  have hk := distinctSymbols_le s.freq
  refine ⟨buildTree_code_valid s, ?_⟩
  rcases buildTree_code_cases s a with hzero | ⟨q, m, e, hcode, hlen, -⟩
  · rw [hzero]
    exact ⟨fun _ => rfl, fun j _ => by simp [codeBit, CodeEntry.zero]⟩
  · rw [hcode, codeEntry_len (by omega)]
    exact ⟨fun hv => (nomatch hv), fun j hj => codeBit_codeEntry_of_le hj⟩

/-- Settles O25: two codes, one the start of the other, lead to one leaf; with two symbols or more the empty code
would lead to an internal root. -/
theorem codesArePrefixFree : Obligations.CodesArePrefixFree := by
  intro s
  have harena := buildTree_arenaOk s
  refine ⟨fun a b hab ha hb hstart => ?_, fun a ha => ?_, codesOf_valid_iff s.freq⟩
  · obtain ⟨m, d, hm, hd, -, hl, hda⟩ := buildTree_code_valid s ha
    obtain ⟨n, e, hn, he, -, -, heb⟩ := buildTree_code_valid s hb
    obtain ⟨q, hq⟩ := hstart
    rw [← hq] at hn
    obtain ⟨-, rfl⟩ := path_unique _ _ m n d _ q hm hd hl hn
    exact hab (by rw [← hda, ← heb, Option.some.inj (hd.symm.trans he)])
  · have hk := distinctSymbols_le s.freq
    rcases buildTree_code_cases s a with hzero | ⟨q, m, e, hcode, hlen, hpath, he, -, hl, -⟩
    · rw [hzero] at ha
      cases ha
    · have hlenq := codeEntry_len (q := q) (by omega)
      rw [hcode]
      refine ⟨fun h2 => ⟨?_, by omega⟩, fun h1 => ?_⟩
      · rw [hlenq, Nat.one_le_iff_ne_zero, Ne, List.length_eq_zero_iff]
        rintro rfl
        cases hpath
        obtain ⟨r, hr, hi⟩ := harena.root_some (by omega)
        rw [Option.some.inj (he.symm.trans hr), hi, decide_eq_false_iff_not] at hl
        omega
      · rw [List.length_eq_zero_iff.mp (show q.length = 0 by omega)]
        rfl

end Sys2Proof.Machine
end

section
/-!
PROOFS. One byte of the container header (43_container_header.md R211 to R216): what HDR_EMIT writes, and what the
parser makes of a byte in each of its stages. A byte inside a field is absorbed, in the COUNT field as in the FREQUENCY
field.
-/

namespace Sys2Proof.Machine

/-! ## The entries of a table, as HDR_EMIT writes them (R210, R211) -/

/-- An entry in the header: its symbol, then its frequency (R210). -/
def entryBytes (be : Bool) (p : Byte × Freq) : List Byte := p.1 :: encInt be 8 p.2

/-- The symbols of non-zero frequency with their frequencies, in ascending symbol order (R211). -/
def entriesOf (F : Vector Freq 256) : List (Byte × Freq) :=
  (allSymbols.filter fun b => freqAt F b != 0#64).map fun b => (b, freqAt F b)

@[simp] theorem length_entryBytes (be : Bool) (p : Byte × Freq) : (entryBytes be p).length = 9 := by simp [entryBytes]

theorem length_entriesOf (F : Vector Freq 256) : (entriesOf F).length = distinctSymbols F := by
  rw [entriesOf, List.length_map, ← List.countP_eq_length_filter, distinctSymbols]

theorem headerBytes_eq (be : Bool) (nsym : BitVec 9) (F : Vector Freq 256) :
    headerBytes be nsym F = encInt be 4 (nsym.zeroExtend 64) ++ (entriesOf F).flatMap (entryBytes be) := by
  have hsyms (l : List Byte) : l.flatMap (headerEntry be F) =
      ((l.filter fun b => freqAt F b != 0#64).map fun b => (b, freqAt F b)).flatMap (entryBytes be) := by
    induction l with
    | nil => rfl
    | cons b l ih =>
      rw [List.flatMap_cons, ih, headerEntry]
      by_cases hb : freqAt F b = 0#64
      · simp [hb]
      · simp [hb, entryBytes]
  rw [headerBytes, hsyms, entriesOf]

theorem length_headerBytes (be : Bool) (nsym : BitVec 9) (F : Vector Freq 256) :
    (headerBytes be nsym F).length = 4 + 9 * distinctSymbols F := by
  rw [headerBytes_eq, List.length_append, length_encInt, List.length_flatMap]
  simp [length_entriesOf, Nat.mul_comm]

/-- HDR_EMIT in BUILT appends the header to OUT and enters ENCODING (R211). -/
theorem exec_hdrEmit {s : State} (hp : s.phase = .built) : exec .hdrEmit s =
    .next { s with phase := .encoding, out := s.out ++ headerBytes (hdrBe s.activeCtrl) s.nsym s.freq } := by
  rw [exec_eq_dispatch, dispatch_runs _ _ _ rfl (.inl (by simp [hp])) (by simp [allowed, hp])]
  rfl

/-- Settles O29: the entries are those of the symbols of non-zero frequency, nine bytes each. -/
theorem hdrEmitWritesTheHeader : Obligations.HdrEmitWritesTheHeader := by
  intro s hp
  refine ⟨?_, fun hnsym t ht => ?_⟩
  · rw [exec_hdrEmit hp, headerBytes_eq, entriesOf, List.flatMap_map]
    rfl
  · cases (exec_hdrEmit hp).symm.trans ht
    rw [List.length_append, length_headerBytes, hnsym]

/-! ## DEC_BYTE in DEC_HDR (R212) -/

section
variable {b : Byte} {s t : State} (hp : s.phase = .decHdr)
include hp

/-- DEC_BYTE in DEC_HDR is HdrByte (45_decoder.md R261). -/
theorem exec_decByte_header : exec (.decByte b) s = settle 0x21#8 s (hdrByte b s) := by
  rw [exec_eq_dispatch, dispatch_runs _ _ _ rfl (.inl (by simp [hp])) (by simp [allowed, hp])]
  show settle 0x21#8 s (decByteRule b s) = _
  rw [decByteRule, if_pos hp]

theorem exec_decByte_of_done (h : hdrByte b s = .done t) : exec (.decByte b) s = .next t := by
  rw [exec_decByte_header hp, h, settle]

theorem exec_decByte_of_raise {c : ErrorCode} {sub : Byte} (h : hdrByte b s = .raise c sub) : exec (.decByte b) s =
    .next { s with phase := .error, errInfo := { opcode := 0x21#8, phase := .decHdr, sub := sub, code := c } } := by
  rw [exec_decByte_header hp, h, settle, errorEntry, hp]

end

/-! ## A byte inside a field (R213, R215) -/

/-- How many bytes the field of a stage has, where the parser accumulates one (R213, R215). -/
def HdrStage.fieldBytes (g : HdrStage) : Nat :=
  match g with
  | .count => 4
  | .symbol => 0
  | .frequency => 8
  | .done => 0

theorem HdrStage.fieldBytes_le (g : HdrStage) : g.fieldBytes ≤ 8 := by cases g <;> decide

section
variable {b : Byte} {s : State}

theorem hdrByte_of_count (hst : s.hdrStage = .count) : hdrByte b s = countByte b s := by rw [hdrByte, hst]

theorem hdrByte_of_symbol (hst : s.hdrStage = .symbol) : hdrByte b s = symbolByte b s := by rw [hdrByte, hst]

theorem hdrByte_of_frequency (hst : s.hdrStage = .frequency) : hdrByte b s = frequencyByte b s := by rw [hdrByte, hst]

/-- Before the last byte of its field the parser absorbs, in both fields alike. -/
theorem hdrByte_absorb (h : s.hdrPos.toNat + 1 < s.hdrStage.fieldBytes) : hdrByte b s = .done (absorb b s) := by
  cases hst : s.hdrStage with
  | count =>
    rw [hst] at h
    exact (hdrByte_of_count hst).trans (if_pos h)
  | frequency =>
    rw [hst] at h
    exact (hdrByte_of_frequency hst).trans (if_pos h)
  | symbol | done =>
    rw [hst] at h
    exact absurd h (Nat.not_lt_zero _)

/-- DEC_BYTE before the last byte of a field moves HDR_ACC and HDR_POS on, and nothing else. -/
theorem exec_decByte_absorb (hp : s.phase = .decHdr) (h : s.hdrPos.toNat + 1 < s.hdrStage.fieldBytes) :
    ∃ t, exec (.decByte b) s = .next t ∧ t.hdrPos.toNat = s.hdrPos.toNat + 1 ∧
      t.hdrAcc = accByte (hdrBe s.activeCtrl) s.hdrAcc b s.hdrPos.toNat ∧
      t = { s with hdrPos := t.hdrPos, hdrAcc := t.hdrAcc } := by
  have hle := s.hdrStage.fieldBytes_le
  refine ⟨absorb b s, exec_decByte_of_done hp (hdrByte_absorb h), ?_, rfl, rfl⟩
  rw [absorb_hdrPos, BitVec.toNat_ofNat]
  omega

end

/-! ## The byte that completes a field (R213 to R215) -/

/-- Settles O30: the first three bytes are absorbed; on the fourth the checks come before the writes. -/
theorem countFieldParser : Obligations.CountFieldParser := by
  intro s b hp hst
  refine ⟨fun hpos => ?_, fun hpos c hc => ?_⟩
  · exact exec_decByte_absorb hp (by rw [hst]; exact hpos)
  · replace hc : headerCount (nextAcc b s) = c := hc.symm
    have hbyte : hdrByte b s = if c < 0 then .raise .malformedContainer subNegativeCount
        else if c > 256 then .raise .malformedContainer subCountTooLarge else .done (takeCount c.toNat s) := by
      rw [hdrByte_of_count hst, countByte, if_neg (by omega), hc]
    refine ⟨fun hneg => ?_, fun hbig => ?_, fun hzero => ?_, fun hlo hhi => ?_⟩
    · exact exec_decByte_of_raise hp (hbyte.trans (if_pos hneg))
    · exact exec_decByte_of_raise hp (hbyte.trans ((if_neg (by omega)).trans (if_pos hbig)))
    · subst hzero
      exact exec_decByte_of_done hp hbyte
    · lift c to Nat using hlo.le
      rw [if_neg (by omega), if_neg (by omega), takeCount, if_neg (by omega)] at hbyte
      exact exec_decByte_of_done hp (by rw [hbyte, BitVec.ofInt_natCast, Int.toNat_natCast])

/-- Settles O31: a symbol's frequency is non-zero exactly where the header has given it. -/
theorem symbolByteParser : Obligations.SymbolByteParser := by
  intro s b hp hst
  refine ⟨fun hgiven => exec_decByte_of_raise hp ?_, fun hnew => exec_decByte_of_done hp ?_⟩
  · rw [hdrByte_of_symbol hst, symbolByte, if_pos hgiven]
    rfl
  · rw [hdrByte_of_symbol hst, symbolByte, if_neg (by simpa using hnew)]

/-- Settles O32: seven bytes are absorbed; on the eighth the value decides, and HDR_LEFT says whether the header is
complete. -/
theorem frequencyFieldParser : Obligations.FrequencyFieldParser := by
  intro s b hp hst hleft
  refine ⟨fun hpos => ?_, fun hpos v hv => ?_⟩
  · exact exec_decByte_absorb hp (by rw [hst]; exact hpos)
  · replace hv : nextAcc b s = v := hv.symm
    have hbyte : hdrByte b s = if v = 0#64 then .raise .malformedContainer subZeroFrequency
        else .done (takeFrequency v s) := by
      rw [hdrByte_of_frequency hst, frequencyByte, if_neg (by omega), hv]
    refine ⟨fun hzero => ?_, fun hne hlast => ?_, fun hne hmore => ?_⟩
    · exact exec_decByte_of_raise hp (hbyte.trans (if_pos hzero))
    · rw [if_neg hne] at hbyte
      rcases takeFrequency_cases v s with ⟨-, ht⟩ | ⟨h0, -⟩
      · exact exec_decByte_of_done hp (hbyte.trans (congrArg _ ht))
      · exact absurd (show s.hdrLeft - 1 = 0 by bv_omega) h0
    · rw [if_neg hne] at hbyte
      rcases takeFrequency_cases v s with ⟨h0, -⟩ | ⟨-, ht⟩
      · exact absurd h0 (by bv_omega)
      · exact ⟨_, exec_decByte_of_done hp (hbyte.trans (congrArg _ ht)), by bv_omega, rfl⟩

end Sys2Proof.Machine
end

section
/-!
PROOFS. A whole header through the parser (43_container_header.md R217 to R219): the bytes of a field are absorbed
one by one, the count opens the entries, each entry writes its frequency into FREQ, and the last one completes the
header.
-/

namespace Sys2Proof.Machine

/-! ## The bytes of a field (R213, R215) -/

theorem decBytesOf_append (as bs : List Byte) : decBytesOf (as ++ bs) = decBytesOf as ++ decBytesOf bs :=
  List.map_append

theorem runInstrs_singleton (i : Instr) (s : State) : runInstrs [i] s = exec i s := by
  rw [runInstrs]
  cases exec i s <;> rfl

/-- The parser has taken the bytes bs of a field. -/
def State.inField (s : State) (bs : List Byte) : State :=
  { s with hdrAcc := absorbAll (hdrBe s.activeCtrl) bs, hdrPos := BitVec.ofNat 4 bs.length }

theorem inField_nil {s : State} (hpos : s.hdrPos = 0) (hacc : s.hdrAcc = 0) : s.inField [] = s :=
  State.ext rfl rfl rfl rfl rfl rfl rfl rfl rfl rfl rfl hpos.symm rfl rfl hacc.symm rfl rfl rfl rfl rfl rfl rfl rfl rfl

section
variable {s : State} {bs : List Byte} {b : Byte}

theorem inField_hdrPos_toNat (h : bs.length < 8) : (s.inField bs).hdrPos.toNat = bs.length := by
  rw [State.inField, BitVec.toNat_ofNat]
  omega

theorem nextAcc_inField (h : bs.length < 8) :
    nextAcc b (s.inField bs) = absorbAll (hdrBe s.activeCtrl) (bs ++ [b]) := by
  rw [nextAcc, inField_hdrPos_toNat h, absorbAll_concat]
  rfl

theorem absorb_inField (h : bs.length < 8) : absorb b (s.inField bs) = s.inField (bs ++ [b]) := by
  rw [absorb, nextAcc_inField h, inField_hdrPos_toNat h, State.inField, State.inField, List.length_append]
  rfl

/-- Bytes that do not fill their field are absorbed. -/
theorem runInstrs_inField (hp : s.phase = .decHdr) (h : bs.length < s.hdrStage.fieldBytes) :
    runInstrs (decBytesOf bs) (s.inField []) = .next (s.inField bs) := by
  have hle := s.hdrStage.fieldBytes_le
  induction bs using List.reverseRecOn with
  | nil => rfl
  | append_singleton bs b ih =>
    rw [List.length_append, List.length_singleton] at h
    have hlt : bs.length < 8 := by omega
    have hpos : (s.inField bs).hdrPos.toNat + 1 < (s.inField bs).hdrStage.fieldBytes := by
      rw [inField_hdrPos_toNat hlt]
      exact h
    rw [decBytesOf_append, runInstrs_append _ (ih (by omega))]
    exact (runInstrs_singleton _ _).trans
      (exec_decByte_of_done hp ((hdrByte_absorb hpos).trans (congrArg _ (absorb_inField hlt))))

/-- The bytes of a whole field end in what the parser makes of the last one, the field's value being accumulated. -/
theorem runInstrs_encInt {n : Nat} {v : BitVec 64} (hp : s.phase = .decHdr) (hn : s.hdrStage.fieldBytes = n + 1)
    (hv : v.toNat < 2 ^ (8 * (n + 1))) :
    ∃ b as, as.length = n ∧ nextAcc b (s.inField as) = v ∧
      runInstrs (decBytesOf (encInt (hdrBe s.activeCtrl) (n + 1) v)) (s.inField []) =
        exec (.decByte b) (s.inField as) := by
  have hle := s.hdrStage.fieldBytes_le
  have hlen := length_encInt (hdrBe s.activeCtrl) (n + 1) v
  obtain hnil | ⟨as, b, hbytes⟩ := List.eq_nil_or_concat' (encInt (hdrBe s.activeCtrl) (n + 1) v)
  · rw [hnil] at hlen
    cases hlen
  rw [hbytes, List.length_append, List.length_singleton, Nat.add_right_cancel_iff] at hlen
  refine ⟨b, as, hlen, ?_, ?_⟩
  · rw [nextAcc_inField (by omega), ← hbytes, absorbAll_encInt, lowBytes_eq_self hv]
  · rw [hbytes, decBytesOf_append, runInstrs_append _ (runInstrs_inField hp (by omega))]
    exact runInstrs_singleton _ _

theorem headerCount_ofNat {k : Nat} (hk : k ≤ 256) : headerCount (BitVec.ofNat 64 k) = k := by
  have hnat : ((BitVec.ofNat 64 k).extractLsb' 0 32).toNat = k := by
    rw [BitVec.extractLsb'_toNat, BitVec.toNat_ofNat, Nat.shiftRight_zero]
    omega
  rw [headerCount, BitVec.toInt_eq_toNat_of_lt (by omega), hnat]

/-- A count field from 0 to 256 is taken (R213). -/
theorem runInstrs_count {k : Nat} (hk : k ≤ 256) (hp : s.phase = .decHdr) (hst : s.hdrStage = .count) :
    runInstrs (decBytesOf (encInt (hdrBe s.activeCtrl) 4 (BitVec.ofNat 64 k))) (s.inField []) =
      .next (takeCount k s) := by
  obtain ⟨b, as, hlen, hacc, hrun⟩ := runInstrs_encInt (n := 3) (v := BitVec.ofNat 64 k) hp (by rw [hst]; rfl)
    (by rw [BitVec.toNat_ofNat]; omega)
  have hpos : ¬(s.inField as).hdrPos.toNat + 1 < 4 := by rw [inField_hdrPos_toNat (by omega)]; omega
  rw [hrun]
  refine exec_decByte_of_done hp ((hdrByte_of_count (s := s.inField as) hst).trans ?_)
  rw [countByte, if_neg hpos, hacc, headerCount_ofNat hk, if_neg (by omega), if_neg (by omega), Int.toNat_natCast]
  rfl

/-- A frequency field that is not 0 is taken (R215). -/
theorem runInstrs_frequency {v : Freq} (hv : v ≠ 0#64) (hp : s.phase = .decHdr) (hst : s.hdrStage = .frequency) :
    runInstrs (decBytesOf (encInt (hdrBe s.activeCtrl) 8 v)) (s.inField []) = .next (takeFrequency v s) := by
  obtain ⟨b, as, hlen, hacc, hrun⟩ := runInstrs_encInt (n := 7) (v := v) hp (by rw [hst]; rfl) v.isLt
  have hpos : ¬(s.inField as).hdrPos.toNat + 1 < 8 := by rw [inField_hdrPos_toNat (by omega)]; omega
  rw [hrun]
  refine exec_decByte_of_done hp ((hdrByte_of_frequency (s := s.inField as) hst).trans ?_)
  rw [frequencyByte, if_neg hpos, hacc, if_neg hv]
  rfl

/-- An entry of a new symbol with a frequency that is not 0 is taken (R214, R215). -/
theorem runInstrs_entry {p : Byte × Freq} (hnew : freqAt s.freq p.1 = 0#64) (hv : p.2 ≠ 0#64) (hp : s.phase = .decHdr)
    (hst : s.hdrStage = .symbol) :
    runInstrs (decBytesOf (entryBytes (hdrBe s.activeCtrl) p)) s =
      .next (takeFrequency p.2 { s with hdrSym := p.1, hdrStage := .frequency }) := by
  have hsym := (symbolByteParser s p.1 hp hst).2 hnew
  rw [entryBytes, decBytesOf, List.map_cons, runInstrs, hsym]
  exact runInstrs_frequency (s := { s with hdrSym := p.1, hdrStage := .frequency }) hv hp rfl

end

/-! ## FREQ with entries written into it (R215) -/

/-- The table with the entries of a list written into it, the first one first. -/
def writeEntries (F : Vector Freq 256) (L : List (Byte × Freq)) : Vector Freq 256 :=
  L.foldl (fun F p => setFreq F p.1 p.2) F

/-- The entries a header may carry: distinct symbols, frequencies that are not 0 (R214, R215). -/
structure EntriesOk (L : List (Byte × Freq)) : Prop where
  nodup : (L.map Prod.fst).Nodup
  ne_zero : ∀ p ∈ L, p.2 ≠ 0#64

section
variable {L L' : List (Byte × Freq)} {p : Byte × Freq}

theorem EntriesOk.tail (h : EntriesOk (p :: L)) : EntriesOk L :=
  ⟨(List.nodup_cons.mp h.nodup).2, fun q hq => h.ne_zero q (List.mem_cons_of_mem p hq)⟩

theorem EntriesOk.ne_of_mem (h : EntriesOk (p :: L)) {q : Byte × Freq} (hq : q ∈ L) : q.1 ≠ p.1 := fun heq =>
  (List.nodup_cons.mp h.nodup).1 (List.mem_map.mpr ⟨q, hq, heq⟩)

theorem EntriesOk.length_le (h : EntriesOk L) : L.length ≤ 256 := by
  have hsub := (h.nodup.subperm fun b _ => mem_allSymbols b).length_le
  rwa [List.length_map, allSymbols_length] at hsub

theorem EntriesOk.perm (h : EntriesOk L) (hperm : L.Perm L') : EntriesOk L' :=
  ⟨(hperm.map _).nodup_iff.mp h.nodup, fun p hp => h.ne_zero p (hperm.mem_iff.mpr hp)⟩

theorem freqAt_writeEntries (h : EntriesOk L) (F : Vector Freq 256) (b : Byte) :
    freqAt (writeEntries F L) b = (L.lookup b).getD (freqAt F b) := by
  induction L generalizing F with
  | nil => rfl
  | cons p L ih =>
    have hstep : freqAt (writeEntries F (p :: L)) b = (L.lookup b).getD (freqAt (setFreq F p.1 p.2) b) := ih h.tail _
    rw [hstep, List.lookup_cons]
    by_cases hb : b = p.1
    · subst hb
      have hnone : L.lookup p.1 = none := List.lookup_eq_none_iff.mpr fun q hq => by simpa using (h.ne_of_mem hq).symm
      rw [hnone, Option.getD_none, freqAt_setFreq_self, beq_self_eq_true]
      rfl
    · rw [freqAt_setFreq_ne _ _ _ _ hb, beq_false_of_ne hb]

/-- Entries of distinct symbols may be written in any order. -/
theorem writeEntries_perm (h : EntriesOk L) (F : Vector Freq 256) (hperm : L.Perm L') :
    writeEntries F L = writeEntries F L' := by
  refine hperm.foldl_eq' (fun p hp q hq F => ?_) F
  by_cases hsym : p.1 = q.1
  · rw [List.inj_on_of_nodup_map h.nodup hp hq hsym]
  · refine freq_ext _ _ fun b => ?_
    rw [freqAt_setFreq, freqAt_setFreq, freqAt_setFreq, freqAt_setFreq]
    split_ifs with hq hp
    · exact absurd (hp.symm.trans hq) hsym
    all_goals rfl

theorem entriesOf_ok (F : Vector Freq 256) : EntriesOk (entriesOf F) := by
  have hnodup : allSymbols.Nodup := allSymbols_ascending.imp BitVec.ne_of_lt
  refine ⟨?_, fun p hp => ?_⟩
  · simpa [entriesOf, Function.comp_def] using hnodup.filter _
  · obtain ⟨b, hb, rfl⟩ := List.mem_map.mp hp
    simpa using (List.mem_filter.mp hb).2

/-- The entries of F, written into an empty table, give F again (R218). -/
theorem writeEntries_entriesOf {F Z : Vector Freq 256} (hZ : ∀ b, freqAt Z b = 0#64) :
    writeEntries Z (entriesOf F) = F := by
  refine freq_ext _ _ fun b => ?_
  rw [freqAt_writeEntries (entriesOf_ok F), hZ]
  by_cases hb : freqAt F b = 0#64
  · have hnone : (entriesOf F).lookup b = none := List.lookup_eq_none_iff.mpr fun p hp => by
      obtain ⟨a, ha, rfl⟩ := List.mem_map.mp hp
      have hne : freqAt F a ≠ 0#64 := by simpa using (List.mem_filter.mp ha).2
      exact bne_iff_ne.mpr fun hba => hne ((congrArg (freqAt F) hba.symm).trans hb)
    rw [hnone, hb]
    rfl
  · rw [entriesOf, List.lookup_graph _ (List.mem_filter.mpr ⟨mem_allSymbols b, by simpa using hb⟩)]
    rfl

/-! ## The entries and the header (R216, R217) -/

/-- The entries of a header, as many as HDR_LEFT says, end in HeaderComplete with all of them in FREQ. -/
theorem runInstrs_entries {s : State} (hL : EntriesOk (p :: L)) (hleft : s.hdrLeft.toNat = L.length + 1)
    (hp : s.phase = .decHdr) (hst : s.hdrStage = .symbol) (hnew : ∀ q ∈ p :: L, freqAt s.freq q.1 = 0#64) :
    ∃ y, runInstrs (decBytesOf ((p :: L).flatMap (entryBytes (hdrBe s.activeCtrl)))) s =
      .next (headerComplete { s with freq := writeEntries s.freq (p :: L), hdrLeft := 0, hdrSym := y, hdrAcc := 0,
                                     hdrPos := 0 }) := by
  induction L generalizing s p with
  | nil =>
    have hleft : s.hdrLeft.toNat = 1 := hleft
    refine ⟨p.1, ?_⟩
    rw [List.flatMap_singleton, runInstrs_entry (hnew p List.mem_cons_self) (hL.ne_zero p List.mem_cons_self) hp hst]
    rcases takeFrequency_cases p.2 { s with hdrSym := p.1, hdrStage := .frequency } with ⟨-, ht⟩ | ⟨h0, -⟩
    · exact congrArg _ ht
    · exact absurd (show s.hdrLeft - 1 = 0 by bv_omega) h0
  | cons q L ih =>
    have hle := hL.length_le
    simp only [List.length_cons] at hle hleft
    have hentry := runInstrs_entry (hnew p List.mem_cons_self) (hL.ne_zero p List.mem_cons_self) hp hst
    rcases takeFrequency_cases p.2 { s with hdrSym := p.1, hdrStage := .frequency } with ⟨h0, -⟩ | ⟨-, ht⟩
    · exact absurd h0 (show ¬s.hdrLeft - 1 = 0 by bv_omega)
    · rw [ht] at hentry
      rw [List.flatMap_cons, decBytesOf_append, runInstrs_append _ hentry]
      refine ih hL.tail ?_ hp rfl fun r hr => ?_
      · show (s.hdrLeft - 1).toNat = _
        bv_omega
      · show freqAt (setFreq s.freq p.1 p.2) r.1 = 0#64
        rw [freqAt_setFreq_ne _ _ _ _ (hL.ne_of_mem hr), hnew r (List.mem_cons_of_mem p hr)]

/-- A header of good entries, given to a fresh decode pass, is accepted on its last byte (R217). -/
theorem runInstrs_header {s : State} (hL : EntriesOk L) (hp : s.phase = .decHdr) (hst : s.hdrStage = .count)
    (hpos : s.hdrPos = 0) (hacc : s.hdrAcc = 0) (hnew : ∀ b, freqAt s.freq b = 0#64) :
    ∃ y, runInstrs (decBytesOf (encInt (hdrBe s.activeCtrl) 4 (BitVec.ofNat 64 L.length) ++
        L.flatMap (entryBytes (hdrBe s.activeCtrl)))) s =
      .next (headerComplete { s with freq := writeEntries s.freq L, hdrLeft := 0, hdrSym := y, hdrAcc := 0,
                                     hdrPos := 0 }) := by
  have hle := hL.length_le
  have hcount := runInstrs_count hle hp hst
  rw [inField_nil hpos hacc] at hcount
  rw [decBytesOf_append, runInstrs_append _ hcount]
  cases L with
  | nil => exact ⟨s.hdrSym, rfl⟩
  | cons p L =>
    have hleft : (BitVec.ofNat 9 (L.length + 1)).toNat = L.length + 1 := by
      rw [BitVec.toNat_ofNat]
      exact Nat.mod_eq_of_lt (Nat.lt_of_le_of_lt hle (by decide))
    exact runInstrs_entries hL hleft hp rfl fun q _ => hnew q.1

end

/-! ## Headers written and read (R218, R219) -/

/-- Settles O33: the header of F carries the entries of F, and those written into the empty table are F. -/
theorem headerFidelity : Obligations.HeaderFidelity := by
  intro F s hp hst hpos hacc hnew
  obtain ⟨y, hrun⟩ := runInstrs_header (entriesOf_ok F) hp hst hpos hacc hnew
  have hk := distinctSymbols_le F
  have hnsym : (BitVec.ofNat 9 (distinctSymbols F)).zeroExtend 64 = BitVec.ofNat 64 (entriesOf F).length := by
    rw [length_entriesOf]
    bv_omega
  rw [writeEntries_entriesOf hnew, ← hnsym, ← headerBytes_eq] at hrun
  exact ⟨_, hrun, rfl, rfl, rfl, rfl, rfl, rfl, rfl, rfl⟩

/-- Settles O34: entries of distinct symbols give the same table in any order; the parser keeps the last symbol. -/
theorem headerEntryOrderDoesNotMatter : Obligations.HeaderEntryOrderDoesNotMatter := by
  intro L L' s hp hst hpos hacc hnew hnodup hne hperm
  have hL : EntriesOk L := ⟨hnodup, hne⟩
  obtain ⟨y, hrun⟩ := runInstrs_header hL hp hst hpos hacc hnew
  obtain ⟨y', hrun'⟩ := runInstrs_header (hL.perm hperm) hp hst hpos hacc hnew
  rw [← writeEntries_perm hL s.freq hperm] at hrun'
  refine ⟨_, _, hrun, rfl, fun b => ?_, hrun', rfl⟩
  exact (freqAt_writeEntries hL s.freq b).trans (congrArg _ (hnew b))

end Sys2Proof.Machine
end

section
/-!
PROOFS. The bitstream writer (44_bitstream_writer.md R240, R241, R246, R247): the bits put are the bits of the bytes
emitted and then the pending ones, and counting them gives how many bytes and how many pending bits there are.
-/

namespace Sys2Proof.Machine

/-! ## Counting bits -/

@[simp] theorem length_bitsOfBytes (bs : List Byte) : (bitsOfBytes bs).length = 8 * bs.length := by
  simp [bitsOfBytes, List.length_flatMap, bitsOfByte, Nat.mul_comm]

@[simp] theorem length_pendingBits (s : State) : (pendingBits s).length = s.bitCnt.toNat := by simp [pendingBits]

theorem pendingBits_eq_nil {s : State} (h : s.bitCnt = 0) : pendingBits s = [] :=
  List.length_eq_zero_iff.mp (by simp [h])

@[simp] theorem length_codeOf (e : CodeEntry) : (codeOf e).length = e.len.toNat := by simp [codeOf]

/-! ## PutBit (R240) -/

/-- A bit put in at the right doubles the buffer and adds the bit; the top bit is lost. -/
theorem shiftIn_toNat (c : Bool) (buf : Byte) : (shiftIn c buf).toNat = (2 * buf.toNat + c.toNat) % 256 := by
  have hdisjoint : buf <<< 1 &&& (BitVec.ofBool c).zeroExtend 8 = 0#8 := by
    ext i hi
    cases i <;> simp
  have hadd : shiftIn c buf = buf <<< 1 + (BitVec.ofBool c).zeroExtend 8 :=
    (BitVec.add_eq_or_of_and_eq_zero _ _ hdisjoint).symm
  cases c <;> simp [hadd, Nat.shiftLeft_eq, Nat.mul_comm]

theorem putBit_of_lt {c : Bool} {s : State} (h : s.bitCnt.toNat < 7) : putBit c s =
    { s with bitBuf := shiftIn c s.bitBuf, bitCnt := BitVec.ofNat 3 (s.bitCnt.toNat + 1) } :=
  if_neg (by omega)

theorem putBit_of_eq {c : Bool} {s : State} (h : s.bitCnt.toNat = 7) : putBit c s =
    { s with out := s.out ++ [shiftIn c s.bitBuf], bitBuf := 0, bitCnt := 0 } :=
  if_pos (by omega)

/-- When no bit is pending after PutBit, the buffer is clear, for the byte has just been emitted. -/
theorem putBit_bitBuf_of_empty {c : Bool} {s : State} (h : (putBit c s).bitCnt = 0) : (putBit c s).bitBuf = 0 := by
  have hlt := s.bitCnt.isLt
  by_cases h7 : s.bitCnt.toNat = 7
  · rw [putBit_of_eq h7]
  · rw [putBit_of_lt (by omega)] at h
    have h0 := congrArg BitVec.toNat h
    simp only [BitVec.toNat_ofNat, BitVec.ofNat_eq_ofNat] at h0
    omega

/-! ## PutBit for each bit of a sequence -/

theorem putBits_append (p q : List Bool) (s : State) : putBits (p ++ q) s = putBits q (putBits p s) :=
  List.foldl_append

/-- The bits put go to the end of the stream. -/
theorem putBits_stream (p : List Bool) (s : State) : bitStream (putBits p s) = bitStream s ++ p := by
  induction p generalizing s with
  | nil => exact (List.append_nil _).symm
  | cons c p ih => exact (ih (putBit c s)).trans (by rw [putBit_stream, List.append_assoc, List.singleton_append])

/-- The bytes that a sequence of bits emits and the bits then pending are the old pending bits and the sequence. -/
theorem putBits_emits (p : List Bool) (s : State) : ∃ bs, (putBits p s).out = s.out ++ bs ∧
    bitsOfBytes bs ++ pendingBits (putBits p s) = pendingBits s ++ p := by
  obtain ⟨bs, _, _, hframe⟩ := putBits_frame p s
  have hout : (putBits p s).out = s.out ++ bs := by rw [hframe]
  have hstream := putBits_stream p s
  rw [bitStream, hout, bitsOfBytes_append, bitStream, List.append_assoc, List.append_assoc] at hstream
  exact ⟨bs, hout, List.append_cancel_left hstream⟩

/-- The bits of the emitted bytes and the pending bits of t, fewer than eight, are the pending bits of s and a sequence:
so many bytes and pending bits there are. -/
theorem length_emitted {bs : List Byte} {s t : State} {p : List Bool}
    (h : bitsOfBytes bs ++ pendingBits t = pendingBits s ++ p) :
    bs.length = (s.bitCnt.toNat + p.length) / 8 ∧ t.bitCnt.toNat = (s.bitCnt.toNat + p.length) % 8 := by
  have hlt := t.bitCnt.isLt
  have hlen := congrArg List.length h
  rw [List.length_append, List.length_append, length_bitsOfBytes, length_pendingBits, length_pendingBits] at hlen
  omega

@[simp] theorem putBits_code (p : List Bool) (s : State) : (putBits p s).code = s.code := by
  obtain ⟨_, _, _, h⟩ := putBits_frame p s
  rw [h]

@[simp] theorem putBits_total (p : List Bool) (s : State) : (putBits p s).total = s.total := by
  obtain ⟨_, _, _, h⟩ := putBits_frame p s
  rw [h]

@[simp] theorem putBits_flags (p : List Bool) (s : State) : (putBits p s).flags = s.flags := by
  obtain ⟨_, _, _, h⟩ := putBits_frame p s
  rw [h]

theorem putBits_withEncCount (p : List Bool) (s : State) (n : Weight) :
    putBits p { s with encCount := n } = { putBits p s with encCount := n } := by
  induction p generalizing s with
  | nil => rfl
  | cons c p ih =>
    have hput : putBit c { s with encCount := n } = { putBit c s with encCount := n } := by
      unfold putBit
      split <;> rfl
    exact (congrArg (putBits p) hput).trans (ih (putBit c s))

/-- Eight bits into an empty buffer emit one byte, which holds them in order, and clear the buffer. -/
theorem putBits_byte {p : List Bool} {s : State} (hp : p.length = 8) (hs : s.bitCnt = 0) :
    ∃ y, bitsOfByte y = p ∧ putBits p s = { s with out := s.out ++ [y], bitBuf := 0, bitCnt := 0 } := by
  obtain ⟨bs, hout, hbits⟩ := putBits_emits p s
  obtain ⟨hlen, hcnt⟩ := length_emitted hbits
  rw [hs, hp] at hlen hcnt
  obtain ⟨y, rfl⟩ := List.length_eq_one_iff.mp hlen
  have hcnt0 : (putBits p s).bitCnt = 0 := BitVec.eq_of_toNat_eq hcnt
  have hbuf : (putBits p s).bitBuf = 0 := by
    obtain ⟨q, c, rfl⟩ := p.eq_nil_or_concat'.resolve_left (List.ne_nil_of_length_pos (by omega))
    rw [putBits_append] at hcnt0 ⊢
    exact putBit_bitBuf_of_empty hcnt0
  refine ⟨y, ?_, ?_⟩
  · rwa [pendingBits_eq_nil hcnt0, pendingBits_eq_nil hs, List.append_nil, List.nil_append,
      bitsOfBytes_singleton] at hbits
  · obtain ⟨_, _, _, hframe⟩ := putBits_frame p s
    rw [← hout, ← hbuf, ← hcnt0, hframe]

/-- Settles O36: the two cases of one bit, and the byte of eight. -/
theorem putBitFillsTheBuffer : Obligations.PutBitFillsTheBuffer := by
  refine ⟨fun c s => ⟨fun h => ?_, fun h => ⟨_, shiftIn_toNat c s.bitBuf, putBit_of_eq h⟩⟩, fun p s hp hs => ?_⟩
  · rw [putBit_of_lt h]
    exact ⟨by rw [BitVec.toNat_ofNat]; omega, shiftIn_toNat c s.bitBuf, rfl⟩
  · obtain ⟨y, hy, hput⟩ := putBits_byte hp hs
    refine ⟨y, fun i hi => ?_, hput⟩
    rw [← hy, bitsOfByte_eq, List.getElem?_map, List.getElem?_range hi]
    rfl

/-! ## ENCODE (R241) -/

theorem exec_encode {s : State} {b : Byte} (hp : s.phase = .encoding) :
    exec (.encode b) s = settle 0x13#8 s (encodeRule b s) := by
  rw [exec_eq_dispatch, dispatch_runs _ _ _ rfl (.inl (by simp [hp])) (by simp [allowed, hp])]
  rfl

theorem exec_encode_valid {s : State} {b : Byte} (hp : s.phase = .encoding) (hv : (codeAt s.code b).valid = true) :
    exec (.encode b) s =
      .next { putBits (codeOf (codeAt s.code b)) s with encCount := satInc s.encCount } := by
  rw [exec_encode hp, encodeRule, if_neg (by simp [hv]), settle]

theorem exec_encode_invalid {s : State} {b : Byte} (hp : s.phase = .encoding) (hv : (codeAt s.code b).valid = false) :
    exec (.encode b) s = .next (errorEntry 0x13#8 .symbolNotInTree b s) := by
  rw [exec_encode hp, encodeRule, if_pos hv, settle]

/-- Settles O37: the code's bits go to the end of the stream, and their count gives the bytes and the pending bits. -/
theorem encodeAppendsTheCode : Obligations.EncodeAppendsTheCode := by
  intro s b hp
  refine ⟨fun hv => ?_, fun hv => by rw [exec_encode_invalid hp hv, errorEntry, hp]⟩
  obtain ⟨bs, hout, hbits⟩ := putBits_emits (codeOf (codeAt s.code b)) s
  obtain ⟨hlen, hcnt⟩ := length_emitted hbits
  rw [length_codeOf] at hlen hcnt
  refine ⟨_, bs, exec_encode_valid hp hv, putBits_stream _ s, hout, hlen, hcnt, countersSaturate s.encCount, ?_⟩
  obtain ⟨_, _, _, hframe⟩ := putBits_frame (codeOf (codeAt s.code b)) s
  rw [hframe]

/-- ENCODE commands of symbols with codes put the codes one after the other and count each symbol. -/
theorem runInstrs_encodesOf {S : List Byte} {s : State} (hp : s.phase = .encoding)
    (hv : ∀ b ∈ S, (codeAt s.code b).valid = true) :
    runInstrs (encodesOf S) s = .next
      { putBits (S.flatMap fun b => codeOf (codeAt s.code b)) s with encCount := satInc^[S.length] s.encCount } := by
  induction S generalizing s with
  | nil => rfl
  | cons b S ih =>
    rw [encodesOf, List.map_cons, runInstrs, exec_encode_valid hp (hv b List.mem_cons_self)]
    have hrun := ih (s := { putBits (codeOf (codeAt s.code b)) s with encCount := satInc s.encCount })
      ((putBits_phase _ s).trans hp) fun a ha => by
        rw [putBits_code]
        exact hv a (List.mem_cons_of_mem b ha)
    refine hrun.trans ?_
    rw [putBits_code, putBits_withEncCount, List.flatMap_cons, putBits_append]
    rfl

/-! ## FLUSH (R246) -/

/-- The padded byte: the pending bits first, zero bits behind them. -/
theorem bitsOfByte_paddedByte (s : State) : bitsOfByte (paddedByte s.bitBuf s.bitCnt) =
    pendingBits s ++ List.replicate (8 - s.bitCnt.toNat) false := by
  have hlt := s.bitCnt.isLt
  rw [bitsOfByte_eq]
  refine List.ext_getElem (by simp; omega) fun i hi _ => ?_
  have hi8 : i < 8 := by simpa using hi
  rw [List.getElem_map, List.getElem_range, paddedByte, BitVec.getLsbD_shiftLeft, List.getElem_append]
  split
  · next hpend =>
    rw [length_pendingBits] at hpend
    have hplace : 7 - i - (8 - s.bitCnt.toNat) = s.bitCnt.toNat - 1 - i := by omega
    have hshifted : ¬7 - i < 8 - s.bitCnt.toNat := by omega
    simp [pendingBits, hplace, hshifted, show 7 - i < 8 by omega]
  · next hpad =>
    rw [length_pendingBits] at hpad
    have hshifted : 7 - i < 8 - s.bitCnt.toNat := by omega
    simp [hshifted]

theorem flushBits_of_eq {s : State} (h : s.bitCnt = 0) : flushBits s = s := if_pos h

theorem flushBits_of_ne {s : State} (h : s.bitCnt ≠ 0) : flushBits s =
    { s with out := s.out ++ [paddedByte s.bitBuf s.bitCnt], bitBuf := 0, bitCnt := 0 } :=
  if_neg h

/-- FLUSH's padding emits the pending bits and zero bits to a whole byte, and empties the buffer. -/
theorem flushBits_emits (s : State) : ∃ bs, (flushBits s).out = s.out ++ bs ∧ (flushBits s).bitCnt = 0 ∧
    bitsOfBytes bs = pendingBits s ++ List.replicate ((8 - s.bitCnt.toNat) % 8) false := by
  by_cases h : s.bitCnt = 0
  · rw [flushBits_of_eq h]
    exact ⟨[], (List.append_nil _).symm, h, by simp [pendingBits_eq_nil h, h, bitsOfBytes]⟩
  · have hpos : s.bitCnt.toNat ≠ 0 := fun h0 => h (BitVec.eq_of_toNat_eq h0)
    rw [flushBits_of_ne h, Nat.mod_eq_of_lt (by omega)]
    exact ⟨[_], rfl, rfl, (bitsOfBytes_singleton _).trans (bitsOfByte_paddedByte s)⟩

theorem flushBits_withEncCount (s : State) (n : Weight) :
    flushBits { s with encCount := n } = { flushBits s with encCount := n } := by
  unfold flushBits
  split <;> rfl

theorem exec_flush {s : State} (hp : s.phase = .encoding) : exec .flush s = .next
    { flushBits s with flags := setEncMismatch (s.encCount != s.total) s.flags, phase := .encDone } := by
  rw [exec_eq_dispatch, dispatch_runs _ _ _ rfl (.inl (by simp [hp])) (by simp [allowed, hp])]
  rfl

/-- Settles O38: FLUSH is its padding, the comparison of the counters, and the next phase. -/
theorem flushPadsTheLastByte : Obligations.FlushPadsTheLastByte := by
  intro s hp
  obtain ⟨bs, hout, hcnt, hbits⟩ := flushBits_emits s
  refine ⟨_, bs, exec_flush hp, rfl, hout, hcnt, hbits, fun h => ?_, ?_, ?_⟩
  · exact congrArg State.bitBuf (flushBits_of_ne h)
  · simp [setEncMismatch, bne, beq_eq_decide]
  · by_cases h : s.bitCnt = 0
    · rw [flushBits_of_eq h]
    · rw [flushBits_of_ne h]

/-! ## The payload (R247) -/

/-- Bits put into an empty buffer and padded by FLUSH: the bytes emitted are the bits and zero bits to a whole byte. -/
theorem flushBits_putBits_emits (p : List Bool) {s : State} (hs : s.bitCnt = 0) :
    ∃ bs, (flushBits (putBits p s)).out = s.out ++ bs ∧
      bitsOfBytes bs = p ++ List.replicate ((8 - p.length % 8) % 8) false := by
  obtain ⟨bs, hout, hbits⟩ := putBits_emits p s
  obtain ⟨bs', hout', -, hpad⟩ := flushBits_emits (putBits p s)
  have hcnt : (putBits p s).bitCnt.toNat = p.length % 8 := by
    rw [(length_emitted hbits).2, hs, BitVec.ofNat_eq_ofNat, BitVec.toNat_zero, Nat.zero_add]
  refine ⟨bs ++ bs', by rw [hout', hout, List.append_assoc], ?_⟩
  rw [bitsOfBytes_append, hpad, ← List.append_assoc, hbits, pendingBits_eq_nil hs, List.nil_append, hcnt]

/-- Bits that the padding completes to whole bytes fill as many bytes as they need. -/
theorem length_of_padded {bs : List Byte} {p : List Bool}
    (h : bitsOfBytes bs = p ++ List.replicate ((8 - p.length % 8) % 8) false) : bs.length = (p.length + 7) / 8 := by
  have hlen := congrArg List.length h
  rw [length_bitsOfBytes, List.length_append, List.length_replicate] at hlen
  omega

/-- The ENCODE commands of symbols with codes, then FLUSH: the end state of the encode pass. -/
theorem runInstrs_encodesOf_flush {S : List Byte} {s : State} (hp : s.phase = .encoding)
    (hv : ∀ b ∈ S, (codeAt s.code b).valid = true) :
    runInstrs (encodesOf S ++ [.flush]) s = .next
      { flushBits (putBits (S.flatMap fun b => codeOf (codeAt s.code b)) s) with
        encCount := satInc^[S.length] s.encCount
        flags := setEncMismatch (satInc^[S.length] s.encCount != s.total) s.flags
        phase := .encDone } := by
  rw [runInstrs_append _ (runInstrs_encodesOf hp hv), runInstrs_singleton]
  refine (exec_flush ?_).trans ?_
  · exact (putBits_phase _ s).trans hp
  · rw [flushBits_withEncCount, putBits_total, putBits_flags]

/-- Settles O39: the codes are put into an empty buffer, and FLUSH pads them. -/
theorem payloadIsTheCodes : Obligations.PayloadIsTheCodes := by
  intro S s hp hs hv
  obtain ⟨bs, hout, hbits⟩ := flushBits_putBits_emits (S.flatMap fun b => codeOf (codeAt s.code b)) hs
  exact ⟨_, bs, runInstrs_encodesOf_flush hp hv, hout, length_of_padded hbits, hbits⟩

end Sys2Proof.Machine
end

section
/-!
PROOFS. The decoder's commands (45_decoder.md R261 to R265): one bit of the walk, the eight bits of a payload byte, the
bits of a code, and the end of the pass.
-/

namespace Sys2Proof.Machine

/-! ## One bit of the walk (R264) -/

/-- The walk goes on from an entry to its child's entry. -/
theorem walkBit_eq_arriveAt {c : Bool} {s : State} {e d : NodeEntry} (he : nodeAt s.node s.cursor = some e)
    (hd : nodeAt s.node (childOf e c) = some d) : walkBit c s = some (arriveAt (childOf e c) d s) := by
  simp only [walkBit, he, hd]

theorem arriveAt_of_internal {n : NodeIndex} {d : NodeEntry} (s : State) (hi : d.internal = true) :
    arriveAt n d s = { s with cursor := n } := by
  rw [arriveAt, if_pos hi]

theorem arriveAt_of_leaf {n : NodeIndex} {d : NodeEntry} (s : State) (hl : d.internal = false) :
    arriveAt n d s = { leafReached d.sym s with cursor := s.root } := by
  rw [arriveAt, if_neg (by simp [hl])]

theorem leafReached_of_lt {s : State} (y : Byte) (h : s.outCount < s.total) :
    leafReached y s = { s with out := s.out ++ [y], outCount := s.outCount + 1 } :=
  if_pos h

/-- When every counted symbol is out, a leaf sets OVERRUN, and only the compatible tail emits and counts (R264). -/
theorem leafReached_of_le {s : State} (y : Byte) (h : s.total ≤ s.outCount) : leafReached y s =
    { s with
      out := s.out ++ (if compatTail s.activeCtrl then [y] else [])
      outCount := if compatTail s.activeCtrl then satInc s.outCount else s.outCount
      flags := setOverrun s.flags } := by
  rcases leafReached_cases y s with ⟨hlt, -⟩ | ⟨-, hc, he⟩ | ⟨-, hc, he⟩
  · exact absurd h (BitVec.not_le.mpr hlt)
  · simp [he, hc]
  · simp [he, hc]

/-- Settles O41: the child is an internal node, or a leaf whose effect is that of `leafReached`. -/
theorem walkBitFollowsTheTree : Obligations.WalkBitFollowsTheTree := by
  intro c s e d he hd
  have hwalk : walkBit c s = some (arriveAt (childOf e c) d s) := walkBit_eq_arriveAt he hd
  refine ⟨fun hi => ?_, fun hl hlt => ?_, fun hl hle hc => ⟨_, countersSaturate s.outCount, ?_⟩, fun hl hle hc => ?_⟩
  · rw [hwalk, arriveAt_of_internal s hi]
    rfl
  · rw [hwalk, arriveAt_of_leaf s hl, leafReached_of_lt d.sym hlt]
  all_goals
    replace hc : compatTail s.activeCtrl = _ := hc
    rw [hwalk, arriveAt_of_leaf s hl, leafReached_of_le d.sym hle, hc]
    simp [setOverrun]

/-! ## DEC_BYTE in DEC_PAYLOAD (R261, R263) -/

section
variable {s t : State} {b : Byte} {r : NodeEntry} (hp : s.phase = .decPayload)
include hp

/-- DEC_BYTE in DEC_PAYLOAD runs the payload's rule (R261). -/
theorem exec_decByte_payload : exec (.decByte b) s = settle 0x21#8 s (payloadByte b s) := by
  rw [exec_eq_dispatch, dispatch_runs _ _ _ rfl (.inl (by simp [hp])) (by simp [allowed, hp])]
  show settle 0x21#8 s (decByteRule b s) = _
  rw [decByteRule, if_neg (by simp [hp])]

/-- With an internal root DEC_BYTE is the walk of its bits. -/
theorem exec_decByte_walk (hr : nodeAt s.node s.root = some r) (hi : r.internal = true)
    (hw : walkBits (bitsOfByte b) s = some t) : exec (.decByte b) s = .next t := by
  simp only [exec_decByte_payload hp, payloadByte, hr, hi, if_true, hw, settle]

end

/-- A bit emits one byte at most. -/
theorem walkBit_out_length_le {c : Bool} {s t : State} (h : walkBit c s = some t) :
    t.out.length ≤ s.out.length + 1 := by
  obtain ⟨e, d, -, -, ⟨-, rfl⟩ | ⟨-, rfl⟩⟩ := walkBit_cases h
  · exact Nat.le_succ _
  · rcases leafReached_cases d.sym s with ⟨-, he⟩ | ⟨-, -, he⟩ | ⟨-, -, he⟩ <;> simp [he]

theorem walkBits_cons_iff {c : Bool} {cs : List Bool} {s t : State} :
    walkBits (c :: cs) s = some t ↔ ∃ u, walkBit c s = some u ∧ walkBits cs u = some t := by
  rw [walkBits]
  cases walkBit c s <;> simp

theorem walkBits_out_length_le {cs : List Bool} {s t : State} (h : walkBits cs s = some t) :
    t.out.length ≤ s.out.length + cs.length := by
  induction cs generalizing s with
  | nil =>
    cases h
    exact Nat.le_refl _
  | cons c cs ih =>
    obtain ⟨u, hu, hrest⟩ := walkBits_cons_iff.mp h
    have hbit := walkBit_out_length_le hu
    have hlen := ih hrest
    rw [List.length_cons]
    omega

/-- Settles O42: the root's entry decides before any bit; under the invariant the walk always goes on. -/
theorem payloadByteIsWalked : Obligations.PayloadByteIsWalked := by
  intro s b hp
  refine ⟨fun hnil => ?_, fun r hr hl => ?_, fun r hr hi h => ?_⟩
  · have hnone := (nodeAt_eq_none_iff s.node s.root).mpr hnil
    simp only [exec_decByte_payload hp, payloadByte, hnone, settle, errorEntry, hp]
  · simp only [exec_decByte_payload hp, payloadByte, hr, hl, settle, errorEntry, hp]
    rfl
  · obtain ⟨t, ht, -⟩ := (h.walkReady hr hi).walkBits_some (bitsOfByte b)
    have hlen := walkBits_out_length_le ht
    obtain ⟨_, bs, _, _, rfl⟩ := walkBits_frame ht
    refine ⟨_, bs, exec_decByte_walk hp hr hi ht, ht, rfl, ?_, rfl⟩
    simpa [bitsOfByte] using hlen

/-! ## DEC_END (R265) -/

theorem exec_decEnd_payload {s : State} (hp : s.phase = .decPayload) :
    exec .decEnd s = .next (closeDecode (regenerate s)) := by
  rw [exec_eq_dispatch, dispatch_runs _ _ _ rfl (.inl (by simp [hp])) (by simp [allowed, hp])]
  simp only [ruleOf, decEndRule, hp, settle]
  rfl

/-- A one-symbol tree's symbol is emitted TOTAL times. -/
theorem regenerate_of_leaf {s : State} {r : NodeEntry} (hr : nodeAt s.node s.root = some r) (hl : r.internal = false) :
    regenerate s = { s with out := s.out ++ List.replicate s.total.toNat r.sym, outCount := s.total } := by
  simp only [regenerate, hr, hl]
  rfl

/-- Any other tree emits nothing at the end. -/
theorem regenerate_of_not_leaf {s : State}
    (h : s.root = Config.nilIndex ∨ ∃ r, nodeAt s.node s.root = some r ∧ r.internal = true) : regenerate s = s := by
  rcases h with hnil | ⟨r, hr, hi⟩
  · simp only [regenerate, (nodeAt_eq_none_iff s.node s.root).mpr hnil]
  · simp only [regenerate, hr, hi, if_true]

/-- Settles O44: DEC_END regenerates the one-symbol output and closes the pass. -/
theorem decEndClosesThePass : Obligations.DecEndClosesThePass := by
  intro s
  refine ⟨fun hp => ?_, fun hp r hr hl => ?_, fun hp hroot => ?_⟩
  · rw [exec_eq_dispatch, dispatch_runs _ _ _ rfl (.inl (by simp [hp])) (by simp [allowed, hp])]
    simp only [ruleOf, decEndRule, hp, if_true, settle, errorEntry]
    rfl
  · rw [exec_decEnd_payload hp, regenerate_of_leaf hr hl]
    simp [closeDecode, setEndFlags, bne, beq_eq_decide]
  · rw [exec_decEnd_payload hp, regenerate_of_not_leaf hroot]
    simp [closeDecode, setEndFlags, bne, beq_eq_decide, BitVec.lt_def]

/-! ## The bits of a code (R190, R264) -/

/-- The decoder is ready for a code: the tree is built, its root is internal, and CURSOR is at ROOT. -/
structure AtRoot (s : State) : Prop where
  tree : TreeBuilt s
  root : ∃ r, nodeAt s.node s.root = some r ∧ r.internal = true
  cursor : s.cursor = s.root

theorem Inv.atRoot {s : State} {r : NodeEntry} (h : Inv s) (hr : nodeAt s.node s.root = some r)
    (hi : r.internal = true) (hc : s.cursor = s.root) : AtRoot s :=
  ⟨h.tree (h.treeValid_of_root hr), ⟨r, hr, hi⟩, hc⟩

theorem TreeBuilt.leafReached {s : State} (h : TreeBuilt s) (y : Byte) : TreeBuilt (leafReached y s) := by
  rcases leafReached_cases y s with ⟨-, he⟩ | ⟨-, -, he⟩ | ⟨-, -, he⟩ <;> rw [he] <;> exact { h with }

/-- A symbol taken at its leaf leaves the decoder ready for the next code. -/
theorem AtRoot.leafReached {s : State} (h : AtRoot s) (y : Byte) : AtRoot (leafReached y s) :=
  ⟨h.tree.leafReached y, by simpa using h.root, by simpa using h.cursor⟩

/-- At ROOT, CURSOR back at ROOT is CURSOR unchanged. -/
theorem AtRoot.leafReached_withRoot {s : State} (h : AtRoot s) (y : Byte) :
    { Machine.leafReached y s with cursor := s.root } = Machine.leafReached y s := by
  rw [← (leafReached_cursor y s).trans h.cursor]

theorem TreeBuilt.code_eq {s : State} (h : TreeBuilt s) : s.code = codesOf s.freq := by
  rw [h.code, h.node, h.root, codesOf]

/-- A code is the path from ROOT to a leaf with its symbol (R190). -/
theorem TreeBuilt.code_path {s : State} (h : TreeBuilt s) {b : Byte} (hv : (codeAt s.code b).valid = true) :
    ∃ m e, pathEnd s.node s.root (codeOf (codeAt s.code b)) = some m ∧ nodeAt s.node m = some e ∧
      e.internal = false ∧ e.sym = b := by
  rw [h.code_eq] at hv
  obtain ⟨m, e, hpath, he, hl, hsym, -⟩ := codesOf_valid s.freq b hv
  rw [h.code_eq, h.node, h.root]
  exact ⟨m, e, hpath, he, hl, hsym⟩

/-- The bits of a code from ROOT take its symbol; CURSOR is where it was, at ROOT. -/
theorem AtRoot.walkBits_code {s : State} (h : AtRoot s) {b : Byte} (hv : (codeAt s.code b).valid = true) :
    walkBits (codeOf (codeAt s.code b)) s = some (Machine.leafReached b s) := by
  obtain ⟨m, e, hpath, he, hl, rfl⟩ := h.tree.code_path hv
  obtain ⟨r, hr, hi⟩ := h.root
  have hne : codeOf (codeAt s.code e.sym) ≠ [] := fun hnil => by
    rw [hnil] at hpath
    cases hpath
    rw [Option.some.inj (he.symm.trans hr), hi] at hl
    cases hl
  rw [walkBits_path s _ s.root m e h.cursor hne hpath he hl, h.leafReached_withRoot]

/-- Settles O43: the code is the path from ROOT to the symbol's leaf. -/
theorem codeWalksToItsSymbol : Obligations.CodeWalksToItsSymbol := by
  intro s b r h hr hi hc hv
  have hroot := h.atRoot hr hi hc
  rw [hroot.walkBits_code hv, hroot.leafReached_withRoot]

end Sys2Proof.Machine
end

section
/-!
PROOFS. The padding of the payload (45_decoder.md R267): zero bits go down to the leftmost leaf of the tree, whose code is
the one code of zeros.
-/

namespace Sys2Proof.Machine

/-! ## Paths in a good arena (10_state.md R38) -/

theorem pathEnd_cons_iff {t : Vector NodeEntry 511} {n m : NodeIndex} {c : Bool} {cs : List Bool} :
    pathEnd t n (c :: cs) = some m ↔
      ∃ e, nodeAt t n = some e ∧ e.internal = true ∧ pathEnd t (childOf e c) cs = some m := by
  rw [pathEnd]
  cases nodeAt t n <;> simp

/-- The last edge of a path leads from an internal node to the end of the path. -/
theorem pathEnd_concat {t : Vector NodeEntry 511} {n m : NodeIndex} {p : List Bool} {c : Bool}
    (h : pathEnd t n (p ++ [c]) = some m) :
    ∃ x e, pathEnd t n p = some x ∧ nodeAt t x = some e ∧ e.internal = true ∧ childOf e c = m := by
  induction p generalizing n with
  | nil =>
    obtain ⟨e, he, hi, hm⟩ := pathEnd_cons_iff.mp h
    exact ⟨n, e, rfl, he, hi, Option.some.inj hm⟩
  | cons b p ih =>
    obtain ⟨d, hd, hi, hrest⟩ := pathEnd_cons_iff.mp h
    obtain ⟨x, e, hx, hlast⟩ := ih hrest
    exact ⟨x, e, pathEnd_cons_iff.mpr ⟨d, hd, hi, hx⟩, hlast⟩

theorem isChild_childOf {t : Vector NodeEntry 511} {x : NodeIndex} {e : NodeEntry} (he : nodeAt t x = some e)
    (hi : e.internal = true) (c : Bool) : IsChild t x (childOf e c) :=
  ⟨e, he, hi, by cases c <;> simp [childOf]⟩

section
variable {t : Vector NodeEntry 511} {k : Nat} {root : NodeIndex} (h : ArenaOk t k root)
include h

/-- What an internal node of the arena says of its children: the indices are smaller, and the children differ. -/
theorem ArenaOk.children {x : NodeIndex} {e : NodeEntry} (he : nodeAt t x = some e) (hi : e.internal = true) :
    x.toNat + 1 < 2 * k ∧ (∀ c, (childOf e c).toNat < x.toNat) ∧ Function.Injective (childOf e) := by
  obtain ⟨hk, hx⟩ := arena_internal_range h he hi
  obtain ⟨d, hd, -, -, -, hl, hr, hne⟩ := h.inner x hk hx
  obtain rfl : e = d := Option.some.inj (he.symm.trans hd)
  exact ⟨hx, fun c => by cases c <;> assumption, Bool.injective_iff.mpr hne⟩

/-- A path with an edge ends below the root. -/
theorem ArenaOk.path_concat_lt {p : List Bool} {c : Bool} {m : NodeIndex} (hp : pathEnd t root (p ++ [c]) = some m) :
    m.toNat + 2 < 2 * k := by
  obtain ⟨x, e, -, he, hi, rfl⟩ := pathEnd_concat hp
  obtain ⟨hx, hlt, -⟩ := h.children he hi
  have := hlt c
  omega

theorem ArenaOk.path_concat_ne_root {p : List Bool} {c : Bool} : pathEnd t root (p ++ [c]) ≠ some root := fun hp => by
  have hlt := h.path_concat_lt hp
  rw [h.root_toNat (by omega)] at hlt
  omega

/-- One path leads from the root to a node: its last edge comes from the one parent, on the side where the node is. -/
theorem ArenaOk.path_injective {p q : List Bool} {m : NodeIndex} (hp : pathEnd t root p = some m)
    (hq : pathEnd t root q = some m) : p = q := by
  induction p using List.reverseRecOn generalizing q m with
  | nil =>
    cases hp
    obtain rfl | ⟨q, c, rfl⟩ := q.eq_nil_or_concat'
    · rfl
    · exact absurd hq h.path_concat_ne_root
  | append_singleton p c ih =>
    obtain rfl | ⟨q, c', rfl⟩ := q.eq_nil_or_concat'
    · cases hq
      exact absurd hp h.path_concat_ne_root
    · obtain ⟨parent, -, honly⟩ := h.parent m (h.path_concat_lt hp)
      obtain ⟨x, e, hpx, he, hi, hc⟩ := pathEnd_concat hp
      obtain ⟨y, d, hqy, hd, hdi, hc'⟩ := pathEnd_concat hq
      obtain rfl : x = parent := honly x (hc ▸ isChild_childOf he hi c)
      obtain rfl : y = x := honly y (hc' ▸ isChild_childOf hd hdi c')
      obtain rfl : e = d := Option.some.inj (he.symm.trans hd)
      obtain ⟨-, -, hinj⟩ := h.children he hi
      rw [ih hpx hqy, hinj (hc.trans hc'.symm)]

/-- From every node of the arena left edges go down to a leaf. -/
theorem ArenaOk.leftmost (n : NodeIndex) (hn : n.toNat + 1 < 2 * k) :
    ∃ z m, pathEnd t n (List.replicate z false) = some m ∧ m.toNat < k := by
  induction hd : n.toNat using Nat.strongRecOn generalizing n with
  | ind i ih =>
    by_cases hk : n.toNat < k
    · exact ⟨0, n, rfl, hk⟩
    · obtain ⟨e, he, -, hi, -⟩ := h.inner n (by omega) hn
      have hlt := (h.children he hi).2.1 false
      obtain ⟨z, m, hz, hm⟩ := ih _ (hd ▸ hlt) (childOf e false) (by omega) rfl
      exact ⟨z + 1, m, pathEnd_cons_iff.mpr ⟨e, he, hi, hz⟩, hm⟩

end

/-! ## The code of zeros (R267) -/

/-- Two leaves of the arena with one symbol are one leaf. -/
theorem ArenaOk.leaf_injective {t : Vector NodeEntry 511} {k : Nat} {root m n : NodeIndex} {d e : NodeEntry}
    (h : ArenaOk t k root) (hm : m.toNat < k) (hn : n.toNat < k) (hd : nodeAt t m = some d) (he : nodeAt t n = some e)
    (hsym : d.sym = e.sym) : m = n := by
  rcases Nat.lt_trichotomy m.toNat n.toNat with hlt | heq | hlt
  · exact absurd (h.ascending m n hlt hn d e hd he) (by simp [hsym])
  · exact BitVec.eq_of_toNat_eq heq
  · exact absurd (h.ascending n m hlt hm e d he hd) (by simp [hsym])

/-- The code of a leaf's symbol is the path from ROOT to the leaf. -/
theorem TreeBuilt.code_eq_path {s : State} (h : TreeBuilt s) {q : List Bool} {m : NodeIndex}
    (hq : pathEnd s.node s.root q = some m) (hm : m.toNat < distinctSymbols s.freq) :
    ∃ b, (codeAt s.code b).valid = true ∧ codeOf (codeAt s.code b) = q := by
  have harena := h.arenaOk
  obtain ⟨b, hb, hleaf⟩ := buildArena_leaf s.freq m hm
  rw [← h.node] at hleaf
  have hv : (codeAt s.code b).valid = true := by
    rw [h.code_eq]
    exact codesOf_complete s.freq b hb
  obtain ⟨m', e, hpath, he, hl, hsym⟩ := h.code_path hv
  have hm' : m'.toNat < distinctSymbols s.freq :=
    harena.leaf_range he (harena.used_of_lt (harena.path_from_root hpath he).1 he) hl
  obtain rfl := harena.leaf_injective hm' hm he hleaf hsym
  exact ⟨b, hv, harena.path_injective hpath hq⟩

/-- No code is the start of another symbol's code (42_tree_builder.md R191). -/
theorem TreeBuilt.eq_of_code_prefix {s : State} (h : TreeBuilt s) {a b : Byte} (ha : (codeAt s.code a).valid = true)
    (hb : (codeAt s.code b).valid = true) (hpre : codeOf (codeAt s.code a) <+: codeOf (codeAt s.code b)) : a = b := by
  rw [h.code_eq] at ha hb hpre
  by_contra hab
  exact (codesArePrefixFree s).1 a b hab ha hb hpre

/-- With an internal root one symbol has a code of zeros, and no other symbol has. -/
theorem AtRoot.zero_code {s : State} (h : AtRoot s) :
    ∃ (b : Byte) (z : Nat), 0 < z ∧ (codeAt s.code b).valid = true ∧
      codeOf (codeAt s.code b) = List.replicate z false ∧
      ∀ (a : Byte) (n : Nat), (codeAt s.code a).valid = true → codeOf (codeAt s.code a) = List.replicate n false →
        a = b := by
  obtain ⟨r, hr, hi⟩ := h.root
  have harena := h.tree.arenaOk
  obtain ⟨hk, hroot⟩ := arena_internal_range harena hr hi
  obtain ⟨z, m, hz, hm⟩ := harena.leftmost s.root hroot
  obtain ⟨b, hv, hcode⟩ := h.tree.code_eq_path hz hm
  refine ⟨b, z, ?_, hv, hcode, fun a n ha hn => ?_⟩
  · rcases Nat.eq_zero_or_pos z with rfl | hpos
    · cases hz
      omega
    · exact hpos
  · rcases Nat.le_total n z with hle | hle
    · exact h.tree.eq_of_code_prefix ha hv (by simp [hn, hcode, List.prefix_replicate_iff, hle])
    · exact (h.tree.eq_of_code_prefix hv ha (by simp [hn, hcode, List.prefix_replicate_iff, hle])).symm

/-! ## Several symbols (R264) -/

/-- The leaves of several symbols, reached one after the other. -/
def leavesReached (S : List Byte) (s : State) : State := S.foldl (fun s b => leafReached b s) s

/-- The codes of several symbols from ROOT take the symbols one after the other. -/
theorem AtRoot.walkBits_codes {s : State} (h : AtRoot s) {S : List Byte} (hv : ∀ b ∈ S, (codeAt s.code b).valid = true) :
    walkBits (S.flatMap fun b => codeOf (codeAt s.code b)) s = some (leavesReached S s) ∧ AtRoot (leavesReached S s) := by
  induction S generalizing s with
  | nil => exact ⟨rfl, h⟩
  | cons b S ih =>
    have hrest := ih (h.leafReached b) (by simpa using fun a ha => hv a (List.mem_cons_of_mem b ha))
    rw [leafReached_code] at hrest
    rw [List.flatMap_cons, walkBits_append, h.walkBits_code (hv b List.mem_cons_self)]
    exact hrest

/-- While OUT_COUNT + |S| ≤ TOTAL, the symbols are emitted and counted. -/
theorem leavesReached_of_add_le {S : List Byte} {s : State} (h : s.outCount.toNat + S.length ≤ s.total.toNat) :
    leavesReached S s = { s with out := s.out ++ S, outCount := s.outCount + BitVec.ofNat 72 S.length } := by
  induction S generalizing s with
  | nil => simp [leavesReached]
  | cons b S ih =>
    rw [List.length_cons] at h
    have hlt : s.outCount < s.total := by rw [BitVec.lt_def]; omega
    have hsucc : (s.outCount + 1).toNat = s.outCount.toNat + 1 := by bv_omega
    have hrest := ih (s := { s with out := s.out ++ [b], outCount := s.outCount + 1 }) (by simp only [hsucc]; omega)
    rw [leavesReached, List.foldl_cons, leafReached_of_lt b hlt]
    refine hrest.trans ?_
    have hcount : s.outCount + 1#72 + BitVec.ofNat 72 S.length = s.outCount + BitVec.ofNat 72 (S.length + 1) := by
      rw [BitVec.add_assoc, Nat.add_comm, BitVec.ofNat_add]
    simp [hcount]

/-- When every counted symbol is out, further symbols set OVERRUN, and the compatible tail emits them (R264). -/
theorem leavesReached_of_le {S : List Byte} {s : State} (h : s.total ≤ s.outCount) :
    ∃ k, s.total ≤ k ∧ leavesReached S s =
      { s with
        out := s.out ++ (if compatTail s.activeCtrl then S else [])
        outCount := k
        flags := { s.flags with overrun := s.flags.overrun || decide (S ≠ []) } } := by
  induction S generalizing s with
  | nil => exact ⟨s.outCount, h, by simp [leavesReached]⟩
  | cons b S ih =>
    have hcount : s.total ≤ if compatTail s.activeCtrl then satInc s.outCount else s.outCount := by
      have hsat := countersSaturate s.outCount
      have hlt := s.outCount.isLt
      rw [BitVec.le_def] at h ⊢
      split
      · omega
      · exact h
    have hleaf := leafReached_of_le b h
    obtain ⟨k, hk, hrest⟩ := ih (s := leafReached b s) (by rw [hleaf]; exact hcount)
    refine ⟨k, by simpa using hk, hrest.trans ?_⟩
    rw [hleaf]
    cases compatTail s.activeCtrl <;> simp [setOverrun]

/-! ## The padding bits (R267) -/

theorem pathEnd_internal_start {t : Vector NodeEntry 511} {n m : NodeIndex} {d : NodeEntry} {q : List Bool}
    (hq : pathEnd t n q = some m) (hd : nodeAt t m = some d) (hi : d.internal = true) :
    ∃ e, nodeAt t n = some e ∧ e.internal = true := by
  cases q with
  | nil =>
    cases hq
    exact ⟨d, hd, hi⟩
  | cons c cs =>
    obtain ⟨e, he, hei, -⟩ := pathEnd_cons_iff.mp hq
    exact ⟨e, he, hei⟩

/-- The bits of a path to an internal node move CURSOR there and do nothing else (R264). -/
theorem walkBits_to_internal {s : State} {q : List Bool} {m : NodeIndex} {d : NodeEntry}
    (hq : pathEnd s.node s.cursor q = some m) (hd : nodeAt s.node m = some d) (hi : d.internal = true) :
    walkBits q s = some { s with cursor := m } := by
  induction q generalizing s with
  | nil =>
    cases hq
    rfl
  | cons c cs ih =>
    obtain ⟨e, he, -, hrest⟩ := pathEnd_cons_iff.mp hq
    obtain ⟨f, hf, hfi⟩ := pathEnd_internal_start hrest hd hi
    rw [walkBits, walkBit_eq_arriveAt he hf, arriveAt_of_internal s hfi]
    exact ih (s := { s with cursor := childOf e c }) hrest hd

/-- The start of a path ends somewhere, and at an internal node if it is not the whole path. -/
theorem pathEnd_of_append {t : Vector NodeEntry 511} {n m : NodeIndex} {p q : List Bool}
    (h : pathEnd t n (p ++ q) = some m) (hne : q ≠ []) :
    ∃ x e, pathEnd t n p = some x ∧ nodeAt t x = some e ∧ e.internal = true := by
  induction q using List.reverseRecOn generalizing m with
  | nil => exact absurd rfl hne
  | append_singleton q c ih =>
    rw [← List.append_assoc] at h
    obtain ⟨x, e, hx, he, hi, -⟩ := pathEnd_concat h
    by_cases hq : q = []
    · rw [hq, List.append_nil] at hx
      exact ⟨x, e, hx, he, hi⟩
    · exact ih hx hq

section
variable {s : State} {b : Byte} {z : Nat} (h : AtRoot s) (hv : (codeAt s.code b).valid = true)
  (hcode : codeOf (codeAt s.code b) = List.replicate z false)
include h hv hcode

/-- Fewer zero bits than the code of zeros has, from ROOT, move CURSOR to another node, unless there are none. -/
theorem AtRoot.walkBits_zeros_lt {i : Nat} (hi : i < z) :
    ∃ n, walkBits (List.replicate i false) s = some { s with cursor := n } ∧ (n = s.root ↔ i = 0) := by
  obtain ⟨m, e, hpath, he, hl, -⟩ := h.tree.code_path hv
  have hsplit : List.replicate z false = List.replicate i false ++ List.replicate (z - i) false := by
    rw [← List.replicate_add, Nat.add_sub_cancel' hi.le]
  rw [hcode] at hpath
  obtain ⟨n, d, hn, hd, hdi⟩ := pathEnd_of_append (hsplit ▸ hpath) (by simp; omega)
  refine ⟨n, walkBits_to_internal (h.cursor ▸ hn) hd hdi, fun hroot => ?_, fun hzero => ?_⟩
  · rw [hroot] at hn
    have hrest := hpath
    rw [hsplit, pathEnd_append _ _ _ _ _ hn] at hrest
    have hcomm : List.replicate z false = List.replicate (z - i) false ++ List.replicate i false := by
      rw [← List.replicate_add, Nat.sub_add_cancel hi.le]
    rw [hcomm] at hpath
    simpa using (path_unique _ _ _ _ _ _ _ hrest he hl hpath).1
  · subst hzero
    exact (Option.some.inj hn).symm

/-- Padding of p zero bits, every counted symbol being out: as many symbols as the code of zeros fits into p, and
CURSOR is at ROOT when nothing is left over (R267). -/
theorem AtRoot.walkBits_padding (hz : 0 < z) (hout : s.total ≤ s.outCount) (p : Nat) :
    ∃ n k, s.total ≤ k ∧ (n = s.root ↔ p % z = 0) ∧ walkBits (List.replicate p false) s = some
      { s with
        cursor := n
        out := s.out ++ (if compatTail s.activeCtrl then List.replicate (p / z) b else [])
        outCount := k
        flags := { s.flags with overrun := s.flags.overrun || decide (z ≤ p) } } := by
  have hsplit : List.replicate p false = (List.replicate (p / z) b).flatMap (fun a => codeOf (codeAt s.code a)) ++
      List.replicate (p % z) false := by
    rw [List.flatMap_replicate, hcode, List.flatten_replicate_replicate, ← List.replicate_add, Nat.div_add_mod']
  obtain ⟨hwalk, hroot⟩ := h.walkBits_codes (S := List.replicate (p / z) b)
    fun a ha => (List.eq_of_mem_replicate ha) ▸ hv
  obtain ⟨k, hk, hleaves⟩ := leavesReached_of_le (S := List.replicate (p / z) b) hout
  have hfits : decide (List.replicate (p / z) b ≠ []) = decide (z ≤ p) := by
    simp [Nat.div_eq_zero_iff]
    omega
  rw [hfits] at hleaves
  rw [hleaves] at hwalk hroot
  obtain ⟨n, hrest, hn⟩ := hroot.walkBits_zeros_lt hv hcode (Nat.mod_lt p hz)
  refine ⟨n, k, hk, hn, ?_⟩
  rw [hsplit, walkBits_append, hwalk]
  exact hrest

end

/-- Settles O57: the leftmost leaf's code is the code of zeros, and the padding is so many of these codes and a rest. -/
theorem paddingTracesTheLeftmostLeaf : Obligations.PaddingTracesTheLeftmostLeaf := by
  intro s r hinv hr hi hc hout
  have h := hinv.atRoot hr hi hc
  obtain ⟨b, z, hz, hv, hcode, honly⟩ := h.zero_code
  refine ⟨b, z, hz, hv, hcode, honly, fun p _ => ?_⟩
  obtain ⟨n, k, -, hn, hwalk⟩ := h.walkBits_padding hv hcode hz hout p
  exact ⟨_, hwalk, hn, rfl, rfl⟩

end Sys2Proof.Machine
end

section
/-!
PROOFS. Both passes (45_decoder.md R266, R267): the encode pass of a string writes the header of its table of occurrences
and the codes of its symbols, padded; the decode pass reads the table back, builds the same tree, and walks the codes.
-/

namespace Sys2Proof.Machine

/-! ## The table of occurrences (41_frequency_counter.md R150) -/

/-- The payload of a string before its padding: the codes of its symbols in the tree of F, one after the other (R247). -/
def payloadBits (F : Vector Freq 256) (S : List Byte) : List Bool := S.flatMap fun b => codeOf (codeAt (codesOf F) b)

/-- How many zero bits make a payload of n bits whole bytes (44_bitstream_writer.md R246). -/
def paddingOf (n : Nat) : Nat := (8 - n % 8) % 8

/-- F counts how often each symbol occurs in S. -/
def Occurrences (S : List Byte) (F : Vector Freq 256) : Prop := ∀ b, (freqAt F b).toNat = S.count b

section
variable {S : List Byte} {F : Vector Freq 256} (h : Occurrences S F)
include h

theorem Occurrences.freq_ne_zero_iff {b : Byte} : freqAt F b ≠ 0#64 ↔ b ∈ S := by
  rw [← List.count_pos_iff, ← h b, Nat.pos_iff_ne_zero, Ne, Ne, ← BitVec.toNat_inj]
  rfl

theorem Occurrences.valid_iff {b : Byte} : (codeAt (codesOf F) b).valid = true ↔ b ∈ S :=
  (codesOf_valid_iff F b).trans h.freq_ne_zero_iff

theorem Occurrences.freqSum_eq : freqSum F = S.length := by
  simp only [freqSum, show ∀ b, (freqAt F b).toNat = S.count b from h, sum_count_allSymbols]

/-- The symbol of a leaf occurs in the string. -/
theorem Occurrences.leaf_mem {n : NodeIndex} (hn : n.toNat < distinctSymbols F) :
    ∃ b ∈ S, nodeAt (buildArena F).node n = some (leafEntry b (freqAt F b)) := by
  obtain ⟨b, hb, hleaf⟩ := buildArena_leaf F n hn
  exact ⟨b, h.freq_ne_zero_iff.mp hb, hleaf⟩

/-- Every symbol of the string has a leaf. -/
theorem Occurrences.mem_leaf {b : Byte} (hb : b ∈ S) :
    ∃ n : NodeIndex, n.toNat < distinctSymbols F ∧ nodeAt (buildArena F).node n = some (leafEntry b (freqAt F b)) :=
  buildArena_cover F b (h.freq_ne_zero_iff.mpr hb)

/-- Two symbols of the string have two leaves. -/
theorem Occurrences.two_le_of_ne {a b : Byte} (ha : a ∈ S) (hb : b ∈ S) (hab : a ≠ b) : 2 ≤ distinctSymbols F := by
  obtain ⟨m, hm, ha⟩ := h.mem_leaf ha
  obtain ⟨n, hn, hb⟩ := h.mem_leaf hb
  by_contra hk
  obtain rfl : m = n := BitVec.eq_of_toNat_eq (by omega)
  exact hab (congrArg NodeEntry.sym (Option.some.inj (ha.symm.trans hb)))

/-- A string of one symbol, or an empty one, has one leaf at most. -/
theorem Occurrences.le_one_of_eq (hone : ∀ a b, a ∈ S → b ∈ S → a = b) : distinctSymbols F ≤ 1 := by
  by_contra hk
  obtain ⟨a, ha, hleafa⟩ := h.leaf_mem (n := 0#9) (by simp; omega)
  obtain ⟨b, hb, hleafb⟩ := h.leaf_mem (n := 1#9) (by simp; omega)
  have hlt : a < b := (buildArena_ok F).ascending 0#9 1#9 (by decide) (by simp; omega) _ _ hleafa hleafb
  rw [hone a b ha hb] at hlt
  exact BitVec.lt_irrefl b hlt

end

/-! ## The encode pass (R111, R211, R247) -/

/-- A counter that starts at 0 counts up to 2^72 - 1 (10_state.md R34). -/
theorem iterate_satInc_toNat {n : Nat} (h : n < 2 ^ 72) : (satInc^[n] 0).toNat = n := by
  induction n with
  | zero => rfl
  | succ n ih =>
    rw [Function.iterate_succ_apply', countersSaturate, ih (by omega)]
    omega

/-- The container of a string with the table F: the header of F, and the payload (R210, R247). -/
def containerOf (be : Bool) (F : Vector Freq 256) (payload : List Byte) : List Byte :=
  headerBytes be (BitVec.ofNat 9 (distinctSymbols F)) F ++ payload

theorem runInstrs_cons {i : Instr} {s t : State} (is : List Instr) (h : exec i s = .next t) :
    runInstrs (i :: is) s = runInstrs is t := by
  rw [runInstrs, h]

/-- ENCODING after the header of a string's table: the tree is that of the table, and no symbol is encoded yet. The pass
began in i. -/
structure EncodingStart (S : List Byte) (F : Vector Freq 256) (i e : State) : Prop where
  occurrences : Occurrences S F
  phase : e.phase = .encoding
  code : e.code = codesOf F
  total : e.total.toNat = S.length
  out : e.out = i.out ++ headerBytes (hdrBe i.activeCtrl) (BitVec.ofNat 9 (distinctSymbols F)) F
  bitCnt : e.bitCnt = i.bitCnt
  encCount : e.encCount = i.encCount
  errInfo : e.errInfo = i.errInfo

/-- The commands of an encode pass behind CLEAR, up to HDR_EMIT. -/
theorem runInstrs_to_encoding {S : List Byte} {i : State} (hp : i.phase = .idle) (hzero : ∀ b, freqAt i.freq b = 0#64)
    (hroom : ∀ b, S.count b < 2 ^ 64) :
    ∃ F e, EncodingStart S F i e ∧ runInstrs (countsOf S ++ [.build, .hdrEmit]) i = .next e := by
  obtain ⟨F, hcounts, hF⟩ := runInstrs_countsOf_build (S := S) hp fun b => by simpa [hzero b] using hroom b
  replace hF : Occurrences S F := fun b => by simpa [hzero b] using hF b
  have hrun := runInstrs_append [.hdrEmit] hcounts
  rw [runInstrs_singleton, exec_hdrEmit rfl, List.append_assoc, List.singleton_append] at hrun
  refine ⟨F, _, ⟨hF, rfl, ?_, ?_, ?_, ?_, ?_, ?_⟩, hrun⟩
  case refine_2 => exact (buildArena_total F).trans hF.freqSum_eq
  all_goals simp [addLeaves_idx, codesOf]

@[simp] theorem putBits_errInfo (p : List Bool) (s : State) : (putBits p s).errInfo = s.errInfo := by
  obtain ⟨_, _, _, h⟩ := putBits_frame p s
  rw [h]

/-- An encode pass emits the container of the string's table, with the padded codes as its payload. -/
theorem runInstrs_encodePass {S : List Byte} (s : State) (hroom : ∀ b, S.count b < 2 ^ 64) :
    ∃ F bs t, Occurrences S F ∧
      bitsOfBytes bs = payloadBits F S ++ List.replicate (paddingOf (payloadBits F S).length) false ∧
      runInstrs (encodePass S) s = .next t ∧ t.out = s.out ++ containerOf (hdrBe s.ctrl) F bs ∧ t.code = codesOf F ∧
      t.phase = .encDone ∧ t.flags.encMismatch = false ∧ t.errInfo = ErrInfo.zero := by
  have hclear : exec .clear s = .next { initPass s with phase := .idle } := (initPassOpensAPass s).1
  obtain ⟨F, e, he, hopen⟩ := runInstrs_to_encoding (i := { initPass s with phase := .idle }) rfl
    (fun b => freqAt_replicate b 0) hroom
  have hv : ∀ b ∈ S, (codeAt e.code b).valid = true := fun b hb => by
    rw [he.code]
    exact he.occurrences.valid_iff.mpr hb
  have hencode := runInstrs_encodesOf_flush he.phase hv
  rw [he.code] at hencode
  have hrun : runInstrs (encodePass S) s = runInstrs (encodesOf S ++ [.flush]) e := by
    rw [← runInstrs_append _ hopen, ← runInstrs_cons _ hclear]
    simp [encodePass]
  obtain ⟨bs, hout, hbits⟩ := flushBits_putBits_emits (payloadBits F S) he.bitCnt
  have hcount : satInc^[S.length] e.encCount = e.total := by
    have hlt := e.total.isLt
    rw [he.total] at hlt
    rw [he.encCount, ← BitVec.toNat_inj, he.total]
    exact iterate_satInc_toNat hlt
  refine ⟨F, bs, _, he.occurrences, hbits, hrun.trans hencode, ?_, ?_, rfl, ?_, ?_⟩
  · exact hout.trans (by rw [he.out, List.append_assoc]; rfl)
  · exact (flushBits_code _).trans ((putBits_code _ e).trans he.code)
  · simp [hcount, setEncMismatch]
  · exact (flushBits_errInfo _).trans ((putBits_errInfo _ e).trans he.errInfo)

/-! ## The decode pass up to the payload (R218, R260) -/

/-- DEC_PAYLOAD after the header of F: the tree is that of F, and no symbol is out yet. -/
structure PayloadStart (F : Vector Freq 256) (u d : State) : Prop where
  phase : d.phase = .decPayload
  freq : d.freq = F
  tree : TreeBuilt d
  cursor : d.cursor = d.root
  out : d.out = u.out
  outCount : d.outCount = 0
  activeCtrl : d.activeCtrl = u.ctrl
  errInfo : d.errInfo = ErrInfo.zero
  overrun : d.flags.overrun = false

/-- The header of F, given to a fresh decode pass, ends in HeaderComplete with F as the table (R218). -/
theorem runInstrs_headerBytes (F : Vector Freq 256) {s : State} (hp : s.phase = .decHdr) (hst : s.hdrStage = .count)
    (hpos : s.hdrPos = 0) (hacc : s.hdrAcc = 0) (hnew : ∀ b, freqAt s.freq b = 0#64) :
    ∃ y, runInstrs (decBytesOf (headerBytes (hdrBe s.activeCtrl) (BitVec.ofNat 9 (distinctSymbols F)) F)) s =
      .next (headerComplete { s with freq := F, hdrLeft := 0, hdrSym := y, hdrAcc := 0, hdrPos := 0 }) := by
  obtain ⟨y, hrun⟩ := runInstrs_header (entriesOf_ok F) hp hst hpos hacc hnew
  have hk := distinctSymbols_le F
  have hnsym : (BitVec.ofNat 9 (distinctSymbols F)).zeroExtend 64 = BitVec.ofNat 64 (entriesOf F).length := by
    rw [length_entriesOf]
    bv_omega
  rw [writeEntries_entriesOf hnew, ← hnsym, ← headerBytes_eq] at hrun
  exact ⟨y, hrun⟩

theorem headerComplete_treeBuilt (s : State) : TreeBuilt (headerComplete s) :=
  { buildTree_treeBuilt { s with hdrStage := .done } with }

/-- DEC_START and the header of a container lead to its payload. -/
theorem runInstrs_to_payload (F : Vector Freq 256) (u : State) :
    ∃ d, PayloadStart F u d ∧ ∀ bs, runInstrs (decodePass (containerOf (hdrBe u.ctrl) F bs)) u =
      runInstrs (decBytesOf bs ++ [.decEnd]) d := by
  have hstart : exec .decStart u = .next { initPass u with phase := .decHdr } := (initPassOpensAPass u).2
  obtain ⟨y, hrun⟩ := runInstrs_headerBytes F (s := { initPass u with phase := .decHdr }) rfl rfl rfl rfl
    fun b => freqAt_replicate b 0
  have hopen (bs : List Byte) : runInstrs (decodePass (containerOf (hdrBe u.ctrl) F bs)) u =
      runInstrs (decBytesOf (headerBytes (hdrBe u.ctrl) (BitVec.ofNat 9 (distinctSymbols F)) F) ++
        (decBytesOf bs ++ [.decEnd])) { initPass u with phase := .decHdr } := by
    rw [decodePass, containerOf, decBytesOf_append, List.append_assoc, List.append_assoc, List.singleton_append,
      runInstrs_cons _ hstart]
  refine ⟨_, ⟨rfl, ?_, headerComplete_treeBuilt _, ?_, ?_, ?_, ?_, ?_, ?_⟩,
    fun bs => (hopen bs).trans (runInstrs_append _ hrun)⟩
  all_goals simp [setTreeFlags, StatusFlags.zero]

/-- The bytes of a payload with an internal root are the walk of all their bits (R263). -/
theorem runInstrs_decBytesOf {bs : List Byte} {s t : State} {r : NodeEntry} (hp : s.phase = .decPayload)
    (hr : nodeAt s.node s.root = some r) (hi : r.internal = true) (hw : walkBits (bitsOfBytes bs) s = some t) :
    runInstrs (decBytesOf bs) s = .next t := by
  induction bs generalizing s with
  | nil =>
    cases hw
    rfl
  | cons b bs ih =>
    rw [bitsOfBytes, List.flatMap_cons, walkBits_append] at hw
    obtain ⟨u, hu, hrest⟩ := Option.bind_eq_some_iff.mp hw
    rw [decBytesOf, List.map_cons, runInstrs_cons _ (exec_decByte_walk hp hr hi hu)]
    obtain ⟨_, _, _, _, rfl⟩ := walkBits_frame hu
    exact ih hp hr hrest

/-! ## The payload and the end of the pass (R265 to R267) -/

/-- A decode pass from u has ended in v: the bytes are out, and the flags are as given. -/
structure PassDecoded (u v : State) (bytes : List Byte) (overrun tailPartial : Prop) : Prop where
  phase : v.phase = .decDone
  errInfo : v.errInfo = ErrInfo.zero
  out : v.out = u.out ++ bytes
  underrun : v.flags.underrun = false
  overrun : v.flags.overrun = true ↔ overrun
  tailPartial : v.flags.tailPartial = true ↔ tailPartial

/-- DEC_END closes a pass in which every counted symbol is out. -/
theorem passDecoded_closeDecode {u w : State} {bytes : List Byte} {overrun tailPartial : Prop}
    (herr : w.errInfo = ErrInfo.zero) (hout : w.out = u.out ++ bytes) (hcount : w.total ≤ w.outCount)
    (hoverrun : w.flags.overrun = true ↔ overrun) (htail : w.cursor ≠ w.root ↔ tailPartial) :
    PassDecoded u (closeDecode w) bytes overrun tailPartial where
  phase := rfl
  errInfo := herr
  out := hout
  underrun := decide_eq_false (BitVec.not_lt.mpr hcount)
  overrun := hoverrun
  tailPartial := bne_iff_ne.trans htail

section
variable {S bs : List Byte} {F : Vector Freq 256} {u d : State} (h : PayloadStart F u d) (hF : Occurrences S F)
include h

/-- With two symbols or more the root is internal, and the decoder is ready for the first code. -/
theorem PayloadStart.atRoot (hk : 2 ≤ distinctSymbols F) : AtRoot d := by
  obtain ⟨r, hr, hi⟩ := h.tree.arenaOk.root_some (by rw [h.freq]; omega)
  refine ⟨h.tree, ⟨r, hr, hi.trans ?_⟩, h.cursor⟩
  rw [h.freq]
  exact decide_eq_true (by omega)

theorem PayloadStart.code_eq : d.code = codesOf F := by rw [h.tree.code_eq, h.freq]

include hF

theorem PayloadStart.total_eq : d.total.toNat = S.length := by
  rw [h.tree.total, h.tree.node, h.tree.root, h.freq, buildArena_total, hF.freqSum_eq]

/-- The payload of two symbols or more: the codes give the string, and the padding gives the symbol with the code of
zeros, as often as that code fits into it. -/
theorem PayloadStart.decode_many (hk : 2 ≤ distinctSymbols F) {p : Nat}
    (hbits : bitsOfBytes bs = payloadBits F S ++ List.replicate p false) :
    ∃ b z v, 0 < z ∧ b ∈ S ∧ codeOf (codeAt (codesOf F) b) = List.replicate z false ∧
      (∀ a n, a ∈ S → codeOf (codeAt (codesOf F) a) = List.replicate n false → a = b) ∧
      runInstrs (decBytesOf bs ++ [.decEnd]) d = .next v ∧
      PassDecoded u v (S ++ (if compatTail u.ctrl then List.replicate (p / z) b else [])) (z ≤ p) (p % z ≠ 0) := by
  have hroot := h.atRoot hk
  have htotal := h.total_eq hF
  obtain ⟨hwalk, hroot'⟩ := hroot.walkBits_codes (S := S) fun b hb => by
    rw [h.code_eq]
    exact hF.valid_iff.mpr hb
  have hleaves : leavesReached S d = { d with out := d.out ++ S, outCount := d.total } := by
    rw [leavesReached_of_add_le (by rw [h.outCount, htotal]; simp), h.outCount, ← htotal]
    simp
  rw [hleaves] at hwalk hroot'
  obtain ⟨b, z, hz, hv, hcode, honly⟩ := hroot'.zero_code
  obtain ⟨n, k, hk', hn, hpad⟩ := hroot'.walkBits_padding hv hcode hz (BitVec.le_refl _) p
  obtain ⟨r, hr, hi⟩ := hroot.root
  have hbytes := runInstrs_decBytesOf (bs := bs) h.phase hr hi (by
    rw [hbits, walkBits_append, payloadBits, ← h.code_eq, hwalk]
    exact hpad)
  simp only [h.code_eq] at hv hcode honly
  have hend := (runInstrs_append [.decEnd] hbytes).trans
    ((runInstrs_singleton _ _).trans (exec_decEnd_payload (by exact h.phase)))
  rw [regenerate_of_not_leaf (.inr (by exact hroot.root))] at hend
  refine ⟨b, z, _, hz, hF.valid_iff.mp hv, hcode, fun a n ha hn => honly a n (hF.valid_iff.mpr ha) hn, hend,
    passDecoded_closeDecode h.errInfo ?_ hk' ?_ (not_congr hn)⟩
  · simp [h.out, h.activeCtrl]
  · simp [h.overrun]

/-- DEC_END gives the whole string when it has one symbol, or none. -/
theorem PayloadStart.regenerate_few (hk : distinctSymbols F ≤ 1) :
    regenerate d = { d with out := d.out ++ S, outCount := d.total } := by
  have htotal := h.total_eq hF
  have harena := h.tree.arenaOk
  rw [h.freq] at harena
  rcases Nat.le_one_iff_eq_zero_or_eq_one.mp hk with h0 | h1
  · have hS : S = [] := List.eq_nil_iff_forall_not_mem.mpr fun b hb => by
      obtain ⟨n, hn, -⟩ := hF.mem_leaf hb
      omega
    have hcount : d.outCount = d.total := by
      rw [h.outCount, ← BitVec.toNat_inj, htotal, hS]
      rfl
    rw [regenerate_of_not_leaf (.inl (harena.root_eq_nil_iff.mpr h0)), hS, List.append_nil]
    exact congrArg (fun n => { d with outCount := n }) hcount
  · have hroot : d.root.toNat < distinctSymbols F := by
      rw [harena.root_toNat (by omega), h1]
      omega
    obtain ⟨y, hy, hleaf⟩ := hF.leaf_mem hroot
    have hS : List.replicate S.length y = S := (List.eq_replicate_of_mem fun b hb => by
      obtain ⟨n, hn, hleafb⟩ := hF.mem_leaf hb
      obtain rfl : n = d.root := BitVec.eq_of_toNat_eq (by omega)
      exact congrArg NodeEntry.sym (Option.some.inj (hleafb.symm.trans hleaf))).symm
    rw [← h.freq, ← h.tree.node] at hleaf
    rw [regenerate_of_leaf hleaf rfl, htotal]
    exact congrArg (fun l => { d with out := d.out ++ l, outCount := d.total }) hS

/-- The payload of one symbol or none is empty, and the string comes out at the end of the pass. -/
theorem PayloadStart.decode_few (hk : distinctSymbols F ≤ 1)
    (hbits : bitsOfBytes bs = payloadBits F S ++ List.replicate (paddingOf (payloadBits F S).length) false) :
    ∃ v, runInstrs (decBytesOf bs ++ [.decEnd]) d = .next v ∧ PassDecoded u v S False False := by
  have hcodes : payloadBits F S = [] := List.flatMap_eq_nil_iff.mpr fun b hb => by
    obtain ⟨m, e, -, -, -, -, -, hlen⟩ := codesOf_valid F b (hF.valid_iff.mpr hb)
    exact List.length_eq_zero_iff.mp (by omega)
  have hbs : bs = [] := by simpa [hcodes, paddingOf] using congrArg List.length hbits
  have hend := (runInstrs_singleton _ _).trans (exec_decEnd_payload h.phase)
  rw [h.regenerate_few hF hk] at hend
  rw [hbs]
  refine ⟨_, hend, passDecoded_closeDecode h.errInfo ?_ (BitVec.le_refl _) ?_ ?_⟩
  · simp [h.out]
  · simp [h.overrun]
  · simp [h.cursor]

end

/-! ## Both passes (R266, R267) -/

/-- What a decode pass from u, ended in v, makes of the container of S with the table F, by how many symbols S has. -/
def RoundTripEnd (S : List Byte) (F : Vector Freq 256) (u v : State) : Prop :=
  (2 ≤ distinctSymbols F ∧ ∃ b z p, 0 < z ∧ b ∈ S ∧ codeOf (codeAt (codesOf F) b) = List.replicate z false ∧
    (∀ a n, a ∈ S → codeOf (codeAt (codesOf F) a) = List.replicate n false → a = b) ∧
    p = paddingOf (payloadBits F S).length ∧
    PassDecoded u v (S ++ if compatTail u.ctrl then List.replicate (p / z) b else []) (z ≤ p) (p % z ≠ 0)) ∨
  (distinctSymbols F ≤ 1 ∧ PassDecoded u v S False False)

/-- A decode pass of the container that an encode pass emits. -/
theorem decodePass_encodePass {S : List Byte} {s u : State} (hroom : ∀ b, S.count b < 2 ^ 64)
    (hbe : hdrBe u.ctrl = hdrBe s.ctrl) :
    ∃ F t C v, Occurrences S F ∧ runInstrs (encodePass S) s = .next t ∧ t.out = s.out ++ C ∧ t.code = codesOf F ∧
      t.phase = .encDone ∧ t.flags.encMismatch = false ∧ t.errInfo = ErrInfo.zero ∧
      runInstrs (decodePass C) u = .next v ∧ RoundTripEnd S F u v := by
  obtain ⟨F, bs, t, hF, hbits, hrun, hout, hcode, hphase, hmis, herr⟩ := runInstrs_encodePass s hroom
  obtain ⟨d, hd, hdec⟩ := runInstrs_to_payload F u
  rw [← hbe] at hout
  rcases Nat.lt_or_ge (distinctSymbols F) 2 with hk | hk
  · obtain ⟨v, hend, hv⟩ := hd.decode_few hF (by omega) hbits
    exact ⟨F, t, _, v, hF, hrun, hout, hcode, hphase, hmis, herr, (hdec bs).trans hend, .inr ⟨by omega, hv⟩⟩
  · obtain ⟨b, z, v, hz, hb, hzero, honly, hend, hv⟩ := hd.decode_many hF hk hbits
    exact ⟨F, t, _, v, hF, hrun, hout, hcode, hphase, hmis, herr, (hdec bs).trans hend,
      .inl ⟨hk, b, z, _, hz, hb, hzero, honly, rfl, hv⟩⟩

/-- Settles O58: with the strict tail the padding emits nothing, and CURSOR is off ROOT when the code of zeros does not
divide it. -/
theorem roundTrip : Obligations.RoundTrip := by
  intro S s u hroom hbe hstrict
  obtain ⟨F, t, C, v, hF, hrun, hout, hcode, hphase, hmis, herr, hdec, hend⟩ := decodePass_encodePass hroom hbe
  refine ⟨t, C, v, hrun, hout, hphase, hmis, herr, hdec, ?_⟩
  rw [hcode]
  rcases hend with ⟨hk, b, z, p, hz, hb, hzero, honly, hp, hv⟩ | ⟨hk, hv⟩
  · have hbytes := hv.out
    rw [show compatTail u.ctrl = false from hstrict] at hbytes
    refine ⟨by simpa using hbytes, hv.phase, hv.underrun, hv.errInfo, fun a n hn ha han => ?_, fun hone => ?_⟩
    · obtain rfl := honly a n ha han
      obtain rfl : n = z := by simpa [hzero] using congrArg List.length han.symm
      rw [hv.tailPartial, hp]
      rfl
    · have := hF.le_one_of_eq hone
      omega
  · refine ⟨hv.out, hv.phase, hv.underrun, hv.errInfo, fun a n hn ha han => ?_, fun _ => ?_⟩
    · obtain ⟨m, e, -, -, -, -, -, hlen⟩ := codesOf_valid F a (hF.valid_iff.mpr ha)
      rw [han, List.length_replicate] at hlen
      omega
    · exact Bool.eq_false_iff.mpr hv.tailPartial.mp

/-- Settles O59: the padding is as many codes of zeros as fit into it, and a rest. -/
theorem compatibleTailRoundTrip : Obligations.CompatibleTailRoundTrip := by
  intro S s u hroom hbe
  obtain ⟨F, t, C, v, hF, hrun, hout, hcode, -, -, -, hdec, hend⟩ := decodePass_encodePass hroom hbe
  refine ⟨t, C, v, hrun, hout, hdec, ?_⟩
  rw [hcode]
  rcases hend with ⟨hk, b, z, p, hz, hb, hzero, honly, hp, hv⟩ | ⟨hk, hv⟩
  · refine ⟨hv.phase, hv.errInfo, fun _ => ⟨b, z, p, hz, hb, hzero, honly, hp, ?_, ?_, ?_, hv.tailPartial⟩,
      fun hone => ?_⟩
    · have hp7 : p ≤ 7 := by
        rw [hp, paddingOf]
        omega
      exact (Nat.div_le_self p z).trans hp7
    · rw [List.append_assoc]
      exact hv.out
    · rw [hv.overrun, Nat.one_le_div_iff hz]
    · have := hF.le_one_of_eq hone
      omega
  · refine ⟨hv.phase, hv.errInfo, fun htwo => ?_, fun _ => ⟨hv.out, ?_, ?_⟩⟩
    · obtain ⟨a, b, ha, hb, hab⟩ := htwo
      have := hF.two_le_of_ne ha hb hab
      omega
    · exact Bool.eq_false_iff.mpr hv.overrun.mp
    · exact Bool.eq_false_iff.mpr hv.tailPartial.mp

end Sys2Proof.Machine
end

section
/-!
PROOFS. Errors (60_exceptions.md section 1): precise, discarded behind the first one, checked in the order of R306.
-/

namespace Sys2Proof.Machine

/-! ## ERRINFO as a word (10_state.md R27) -/

/-- Concatenation, in a word wide enough for it, is a shift and an or. -/
theorem zeroExtend_append_eq_shiftLeft_or {n m k : Nat} (x : BitVec n) (y : BitVec m) :
    (x ++ y).zeroExtend k = x.zeroExtend k <<< m ||| y.zeroExtend k := by
  apply BitVec.eq_of_getLsbD_eq
  intro i hi
  by_cases him : i < m
  · simp [BitVec.getLsbD_append, him, hi]
  · simp [BitVec.getLsbD_append, him, hi, BitVec.getLsbD_of_ge y i (by omega)]

theorem errInfoWord_eq_or (e : ErrInfo) : errInfoWord e =
    (e.opcode.zeroExtend 32 <<< 24) ||| (e.phase.bits.zeroExtend 32 <<< 16) ||| (e.sub.zeroExtend 32 <<< 8) |||
      e.code.bits.zeroExtend 32 := by
  have hself : errInfoWord e = (e.opcode ++ 0#5 ++ e.phase.bits ++ e.sub ++ e.code.bits).zeroExtend 32 :=
    (BitVec.setWidth_eq _).symm
  -- what is left after the fields are apart is the five zero bits 23:19
  simp only [hself, zeroExtend_append_eq_shiftLeft_or, BitVec.shiftLeft_or_distrib, ← BitVec.shiftLeft_add]
  simp

/-! ## Words in ERROR (R305) -/

theorem recovers_eq_false {i : Instr} (hnop : i ≠ .nop) (hclear : i ≠ .clear) (hstart : i ≠ .decStart)
    (hctrl : ∀ f, i ≠ .wrctrl f) : recovers i = false := by
  cases i with
  | nop => exact absurd rfl hnop
  | clear => exact absurd rfl hclear
  | wrctrl f => exact absurd rfl (hctrl f)
  | decStart => exact absurd rfl hstart
  | _ => rfl

/-- In ERROR a word, legal or not, that is none of the commands that recover does nothing. -/
theorem stepWord_discards {w : CmdWord} {s : State} (hp : s.phase = .error)
    (hr : ∀ i, decode w = .legal i → recovers i = false) : stepWord w s = .next s := by
  cases hd : decode w with
  | legal i =>
    rw [stepWord_legal hd, exec_eq_dispatch]
    exact dispatch_discards i _ s hp (hr i hd)
  | illegal e =>
    rw [stepWord_illegal (by simp [hd]), illegalWord, if_pos hp]

/-- Settles O7: dispatch discards what does not recover; the commands that recover run their rules in every phase. -/
theorem errorPhaseDiscards : Obligations.ErrorPhaseDiscards := by
  refine ⟨fun s w rest hp hin hother => ?_, fun s _ => ?_⟩
  · rw [step_command s w rest hin]
    refine stepWord_discards hp fun i hd => ?_
    obtain ⟨hnop, hclear, hstart, hctrl⟩ := hother i hd
    exact recovers_eq_false hnop hclear hstart hctrl
  · obtain ⟨hclear, hstart⟩ := initPassOpensAPass s
    exact ⟨nopHasNoEffect.1 s, fun f hf => exec_wrctrl hf s, hclear, hstart⟩

/-! ## The word that raises (R301, R304) -/

/-- A command word that takes the block from another phase to ERROR ends in an error entry. -/
theorem step_to_error {s t : State} {w : CmdWord} {rest : List HostInput} (hin : s.input = .command w :: rest)
    (hstep : step s = .next t) (hs : s.phase ≠ .error) (ht : t.phase = .error) :
    ∃ c sub, c ≠ .none ∧ t = errorEntry (opcodeOf w) c sub { s with input := rest } := by
  cases stepCase_of_step hstep with
  | hold => exact absurd ht hs
  | drain h | reset h => cases hin.symm.trans h
  | discard _ hp => exact absurd hp hs
  | @raise _ _ c sub h _ hc =>
    cases hin.symm.trans h
    exact ⟨c, sub, hc, rfl⟩
  | complete _ _ _ hc => exact absurd ht (hc.phase_ne_error hs)

/-- Settles O8: a word that enters ERROR ends in the error entry, whose ERRINFO is its four fields. -/
theorem errorsArePrecise : Obligations.ErrorsArePrecise := by
  intro s t w rest hin hstep hs ht
  obtain ⟨c, sub, hc, rfl⟩ := step_to_error hin hstep hs ht
  exact ⟨c, sub, hc, rfl, errInfoWord_eq_or _, by cases c <;> rfl⟩

/-! ## The writers of ERRINFO (R307) -/

theorem hdrByte_errInfo {b : Byte} {s t : State} (h : hdrByte b s = .done t) : t.errInfo = s.errInfo := by
  rcases hdrByte_done_cases h with ⟨-, -, rfl⟩ | ⟨-, -, -, -, rfl⟩ | ⟨-, -, rfl⟩ | ⟨-, -, rfl⟩ |
    ⟨-, -, -, rfl⟩ | ⟨-, rfl⟩
  · rfl
  · rcases takeCount_cases (headerCount (nextAcc b s)).toNat s with ⟨-, hc⟩ | ⟨-, hc⟩ <;> simp [hc]
  · rfl
  · rfl
  · rcases takeFrequency_cases (nextAcc b s) s with ⟨-, hc⟩ | ⟨-, hc⟩ <;> simp [hc]
  · rfl

/-- A command that completes leaves ERRINFO alone, or it is one of the callers of InitPass (10_state.md R44). -/
theorem Completes.errInfo {s t : State} {i : Instr} (h : Completes s i t) :
    t.errInfo = s.errInfo ∨ (i = .clear ∨ i = .decStart) ∧ t.errInfo = ErrInfo.zero := by
  cases h with
  | clear => exact .inr ⟨.inl rfl, rfl⟩
  | decStart => exact .inr ⟨.inr rfl, rfl⟩
  | header b _ ht => exact .inl (hdrByte_errInfo ht)
  | payload b _ _ _ ht =>
    obtain ⟨_, _, _, _, rfl⟩ := walkBits_frame ht
    exact .inl rfl
  | _ => exact .inl (by simp)

/-- Settles O9: among the ways a step ends, only an error entry, InitPass and reset write ERRINFO. -/
theorem firstErrorWins : Obligations.FirstErrorWins := by
  intro s t hstep hne
  cases stepCase_of_step hstep with
  | hold | discard => exact absurd rfl hne
  | drain => exact absurd (drainOne_errInfo _) hne
  | reset hin => exact .inr ⟨rfl, .inr (.inr (congrArg List.head? hin))⟩
  | raise _ hp => exact .inl ⟨hp, rfl⟩
  | complete hin _ _ hc =>
    have hhead := congrArg List.head? hin
    rcases hc.errInfo with he | ⟨rfl | rfl, hz⟩
    · exact absurd he hne
    · exact .inr ⟨hz, .inl hhead⟩
    · exact .inr ⟨hz, .inr (.inl hhead)⟩

/-! ## The order of the checks (R306) -/

/-- Out of phase a well-formed command reports SEQUENCE before its own rule is asked. -/
theorem exec_reports_sequence {i : Instr} {s : State} (hw : i.WF) (hs : s.phase ≠ .error)
    (ha : ¬allowed i s.phase = true) : ∃ t, exec i s = .next t ∧ t.errInfo.code = .sequence :=
  ⟨_, (exec_eq_sequence_iff hw hs).mpr ha, rfl⟩

/-- Settles O10: an illegal word is no command of any phase; COUNT, ENCODE, DEC_BYTE and DEC_END are well formed
whatever their operand, so that only their phase is asked. -/
theorem checkOrder : Obligations.CheckOrder := by
  refine ⟨fun s w rest t hs hin hn hstep => ?_, fun s b hs => ⟨fun hidle => ?_, fun henc => ?_, fun hhdr hpay => ?_⟩⟩
  · rw [illegalWordRaises.1 s w rest hin hn, if_neg hs] at hstep
    cases hstep
    rfl
  · exact exec_reports_sequence rfl hs (by simpa [allowed] using hidle)
  · exact exec_reports_sequence rfl hs (by simpa [allowed] using henc)
  · exact ⟨exec_reports_sequence rfl hs (by simp [allowed, hhdr, hpay]),
      exec_reports_sequence rfl hs (by simp [allowed, hhdr, hpay])⟩

end Sys2Proof.Machine
end

section
/-!
PROOFS. A container read in the wrong byte order (70_reset_and_hazards.md R368). The bytes of a count in one order are
the bytes of another count in the other order, and that count is no count of a header unless it is 0.
-/

namespace Sys2Proof.Machine

/-- What a count of at most two bytes reads as in the order it was not written in (R368): its bytes 0 and 1 stand as the
bytes 3 and 2. -/
def misreadCount (c : Nat) : Nat := 2 ^ 24 * (c % 256) + 2 ^ 16 * (c / 256)

theorem misreadCount_of_le {c : Nat} (hc : c ≤ 255) : misreadCount c = 2 ^ 24 * c := by
  rw [misreadCount, Nat.mod_eq_of_lt (by omega), Nat.div_eq_of_lt (by omega)]
  rfl

theorem littleBytes_misreadCount {c : Nat} (hc : c ≤ 256) :
    littleBytes 4 (BitVec.ofNat 64 (misreadCount c)) = (littleBytes 4 (BitVec.ofNat 64 c)).reverse := by
  rcases Nat.lt_or_eq_of_le hc with hlt | rfl
  · rw [misreadCount_of_le (by omega)]
    simp only [littleBytes, List.range_succ, List.range_zero, List.nil_append, List.cons_append, List.map_cons,
      List.map_nil, List.reverse_cons, List.reverse_nil, List.cons.injEq, and_true, ← BitVec.toNat_inj,
      BitVec.extractLsb'_toNat, BitVec.toNat_ofNat, Nat.shiftRight_eq_div_pow]
    omega
  · decide

theorem encInt_not_eq_misreadCount (be : Bool) {c : Nat} (hc : c ≤ 256) :
    encInt (!be) 4 (BitVec.ofNat 64 c) = encInt be 4 (BitVec.ofNat 64 (misreadCount c)) := by
  have hbytes := littleBytes_misreadCount hc
  cases be with
  | false => exact hbytes.symm
  | true => exact (List.reverse_eq_iff.mpr hbytes).symm

/-- The four bytes of a count field as an int32. -/
theorem headerCount_ofNat_eq_ite {k : Nat} (hk : k < 2 ^ 32) :
    headerCount (BitVec.ofNat 64 k) = if k < 2 ^ 31 then (k : Int) else k - 2 ^ 32 := by
  have hnat : ((BitVec.ofNat 64 k).extractLsb' 0 32).toNat = k := by
    rw [BitVec.extractLsb'_toNat, BitVec.toNat_ofNat, Nat.shiftRight_zero]
    omega
  rw [headerCount, BitVec.toInt_eq_toNat_cond, hnat]
  split <;> split <;> omega

theorem misreadCount_lt {c : Nat} (hc : c ≤ 256) : misreadCount c < 2 ^ 32 := by
  unfold misreadCount
  omega

/-- Byte 3 of the misread count carries the sign bit exactly for the counts 128 to 255. -/
theorem headerCount_misreadCount_neg_iff {c : Nat} (hc : c ≤ 256) :
    headerCount (BitVec.ofNat 64 (misreadCount c)) < 0 ↔ 128 ≤ c ∧ c ≤ 255 := by
  rcases Nat.lt_or_eq_of_le hc with hlt | rfl
  · rw [headerCount_ofNat_eq_ite (misreadCount_lt hc), misreadCount_of_le (by omega)]
    split <;> omega
  · decide

/-- No misread count but 0 is a count of a header. -/
theorem headerCount_misreadCount_bad {c : Nat} (hc : c ≤ 256) (hpos : 1 ≤ c) :
    headerCount (BitVec.ofNat 64 (misreadCount c)) < 0 ∨ 256 < headerCount (BitVec.ofNat 64 (misreadCount c)) := by
  rcases Nat.lt_or_eq_of_le hc with hlt | rfl
  · rw [headerCount_ofNat_eq_ite (misreadCount_lt hc), misreadCount_of_le (by omega)]
    split <;> omega
  · decide

/-- A count field below 0 or above 256 is an error entry on its fourth byte (R213). -/
theorem runInstrs_count_rejected {s : State} {v : BitVec 64} (hv : v.toNat < 2 ^ 32) (hp : s.phase = .decHdr)
    (hst : s.hdrStage = .count) (hbad : headerCount v < 0 ∨ 256 < headerCount v) :
    ∃ as, runInstrs (decBytesOf (encInt (hdrBe s.activeCtrl) 4 v)) (s.inField []) =
      .next { s.inField as with
        phase := .error,
        errInfo := { opcode := 0x21#8, phase := .decHdr, sub := if headerCount v < 0 then 1 else 2,
                     code := .malformedContainer } } := by
  obtain ⟨b, as, hlen, hacc, hrun⟩ := runInstrs_encInt (n := 3) (v := v) hp (by rw [hst]; rfl) hv
  have hfourth : 4 ≤ (s.inField as).hdrPos.toNat + 1 := by rw [inField_hdrPos_toNat (by omega)]; omega
  obtain ⟨hneg, hbig, -⟩ := (countFieldParser (s.inField as) b hp hst).2 hfourth (headerCount v)
    (congrArg headerCount hacc).symm
  refine ⟨as, hrun.trans ?_⟩
  by_cases h0 : headerCount v < 0
  · rw [if_pos h0]
    exact hneg h0
  · rw [if_neg h0]
    exact hbig (hbad.resolve_left h0)

/-- Settles O35: the bytes are those of the misread count in the order the parser reads, so the fourth of them is judged
by that count; the three before it are absorbed. -/
theorem byteOrderMismatchIsDetected : Obligations.ByteOrderMismatchIsDetected := by
  intro c s hc hp hst hpos hacc
  have hmis : encInt (!s.activeCtrl.getLsbD 0) 4 (BitVec.ofNat 64 c) =
      encInt (hdrBe s.activeCtrl) 4 (BitVec.ofNat 64 (misreadCount c)) := encInt_not_eq_misreadCount _ hc
  have hthree : ((encInt (hdrBe s.activeCtrl) 4 (BitVec.ofNat 64 (misreadCount c))).take 3).length <
      s.hdrStage.fieldBytes := by
    rw [hst, List.length_take, length_encInt]
    decide
  have habsorbed := runInstrs_inField hp hthree
  rw [inField_nil hpos hacc] at habsorbed
  rw [hmis]
  rcases Nat.eq_zero_or_pos c with rfl | hc1
  · have htaken := runInstrs_count (k := 0) (by omega) hp hst
    rw [inField_nil hpos hacc] at htaken
    exact ⟨_, htaken, ⟨_, habsorbed, hp⟩, fun _ => rfl, fun h => absurd h (by omega)⟩
  · have hlt : (BitVec.ofNat 64 (misreadCount c)).toNat < 2 ^ 32 :=
      (Nat.mod_le _ _).trans_lt (misreadCount_lt hc)
    obtain ⟨as, hrun⟩ := runInstrs_count_rejected hlt hp hst (headerCount_misreadCount_bad hc hc1)
    rw [inField_nil hpos hacc] at hrun
    exact ⟨_, hrun, ⟨_, habsorbed, hp⟩, fun h => absurd h (by omega), fun _ => ⟨rfl, rfl, rfl,
      if_congr (headerCount_misreadCount_neg_iff hc) rfl rfl⟩⟩

end Sys2Proof.Machine
end
